-- ==== Sys2Proof/Word.lean ====
section
/-! DEFINITION. The machine's words: byte, halfword, word and transaction word (00_scope.md R8, R9; 30_encoding.md R90). -/

namespace Sys2Proof

/-- One byte, the unit of an address (R60). -/
abbrev Byte := BitVec 8

/-- The width of the CRC register (R8). -/
abbrev Half := BitVec 16

/-- The word, the register and the address width (R8). -/
abbrev Word := BitVec 32

/-- A bus transaction word of format T72 (R90). -/
abbrev Txn := BitVec 72

end Sys2Proof
end

