-- ==== Sys2Proof/Config.lean ====
section
/-! DEFINITION. The implementation parameters of 00_scope.md R7, their constraints, and the free values (R10 `Draw`). -/

namespace Sys2Proof

/-- R7 `PROGRAM_OVER_DATA` (D23): what a commit onto a page that is not fully erased leaves. -/
inductive ProgramOverData where
  /-- every byte of the page is a Draw (the default) -/
  | any
  /-- new = old and data -/
  | and
  deriving DecidableEq, Repr

/-- The parameters of R7 with their stated defaults. A base or an end is a Nat because `FLASH_END` may be 2^32.
`BUSY_CLEARS` is a proposition about runs (Safety.lean), and `INITIAL_FLASH` an argument of `State.powerOn`,
whose default, any bytes, is `freeFlash`. -/
structure Config where
  pageSize        : Nat := 64
  flashBase       : Nat := 0x08000000
  flashEnd        : Nat := 0x08004000
  fctlBase        : Nat := 0x40022000
  crcBase         : Nat := 0x40023000
  key1            : Word := 0x45670123
  key2            : Word := 0xCDEF89AB
  mkey1           : Word := 0x45670123
  mkey2           : Word := 0xCDEF89AB
  programOverData : ProgramOverData := .any
  tornOnReset     : Bool := false
  deriving DecidableEq, Repr

namespace Config

/-- The default parameters of R7. -/
def default : Config := {}

/-- R7, derived: `WORDS_PER_PAGE`. -/
def wordsPerPage (c : Config) : Nat := c.pageSize / 4

/-- R7, derived: `FLASH_SIZE`. -/
def flashSize (c : Config) : Nat := c.flashEnd - c.flashBase

/-- R7, derived: `NUM_PAGES`. -/
def numPages (c : Config) : Nat := c.flashSize / c.pageSize

/-- R60: the size of each register window. -/
def windowSize : Nat := 0x400

/-- The half-open ranges [a, a + n) and [b, b + m) do not meet. -/
abbrev Apart (a n b m : Nat) : Prop := a + n ≤ b ∨ b + m ≤ a

/-- R7's constraints, and no other. A power of two that divides `FLASH_END` is at most 2^32, so its exponent is below
33. -/
structure Wf (c : Config) : Prop where
  page_pow   : ∃ k, k < 33 ∧ c.pageSize = 2 ^ k
  page_four  : 4 ≤ c.pageSize
  base_page  : c.flashBase % c.pageSize = 0
  end_page   : c.flashEnd % c.pageSize = 0
  base_lt    : c.flashBase < c.flashEnd
  end_le     : c.flashEnd ≤ 2 ^ 32
  flash_fctl : Apart c.flashBase c.flashSize c.fctlBase windowSize
  flash_crc  : Apart c.flashBase c.flashSize c.crcBase windowSize
  fctl_crc   : Apart c.fctlBase windowSize c.crcBase windowSize

/-- The check of R7's constraints that a step makes (`Wf`, which Laws/Config.lean proves it decides). -/
def wf (c : Config) : Bool :=
  decide (
    4 ≤ c.pageSize ∧ (∃ k, k < 33 ∧ c.pageSize = 2 ^ k) ∧ c.flashBase % c.pageSize = 0 ∧
    c.flashEnd % c.pageSize = 0 ∧ c.flashBase < c.flashEnd ∧ c.flashEnd ≤ 2 ^ 32 ∧
    Apart c.flashBase c.flashSize c.fctlBase windowSize ∧ Apart c.flashBase c.flashSize c.crcBase windowSize ∧
    Apart c.fctlBase windowSize c.crcBase windowSize)

/-- R10 `Draw(Bits8)`: the n-th free byte. No body, so nothing can be proved of its value (log 4). -/
opaque freeByte : Nat → Byte

/-- R10 `Draw(Bits32)`: the n-th free word (log 4). -/
opaque freeWord : Nat → Word

/-- R10 `Draw` between two outcomes: the n-th free choice (log 4). -/
opaque freeChoice : Nat → Bool

/-- R294 `INITIAL_FLASH`, any bytes: the free byte the flash array holds at address a at first power-on (log 5). -/
opaque freeFlash : Nat → Byte

/-- What host register number r reads as, at the n-th draw, when nothing has written it (R109, log 13). -/
opaque freeRegister (n r : Nat) : Word

/-- The result, at the n-th draw, of a host's left shift of x by y > 31, which R101 does not state (log 21). -/
opaque freeShl (n : Nat) (x y : Word) : Word

/-- The result, at the n-th draw, of a host's right shift of x by y > 31, which R101 does not state (log 21). -/
opaque freeShr (n : Nat) (x y : Word) : Word

end Config
end Sys2Proof
end

