-- ==== Sys2Proof/Syntax.lean ====
section
/-! DEFINITION. The transactions: one constructor per row of spec/opcode_table.json (30_encoding.md R94). -/

namespace Sys2Proof

/-- One bus transaction of the SSB, with the operands its rule gives it. Data bits a rule ignores are no operand
(R92: the D field of a read, D[31:8] of an 8-bit write). -/
inductive Instr where
  /-- `CRC_FEED` (R121), the byte D[7:0] -/
  | crcFeed (b : Byte)
  /-- `CRC_READ16` (R122) -/
  | crcRead16
  /-- `CRC_READ32` (R123) -/
  | crcRead32
  /-- `CRC_CTRL_WR` (R120), the data D -/
  | crcCtrlWr (d : Word)
  /-- `FKEYR_WR` (R140), the key D -/
  | fkeyrWr (d : Word)
  /-- `FSTATR_RD` (R172) -/
  | fstatrRd
  /-- `FCTLR_RD` (R160) -/
  | fctlrRd
  /-- `FCTLR_WR` (R161), the data D -/
  | fctlrWr (d : Word)
  /-- `FADDR_RD` (R171) -/
  | faddrRd
  /-- `FADDR_WR` (R170), the address D -/
  | faddrWr (d : Word)
  /-- `FMODEKEYR_WR` (R142), the key D -/
  | fmodekeyrWr (d : Word)
  /-- `FLASH_RD8` (R200), the address A -/
  | flashRd8 (a : Word)
  /-- `FLASH_RD16` (R201), the address A -/
  | flashRd16 (a : Word)
  /-- `FLASH_RD32` (R202), the address A -/
  | flashRd32 (a : Word)
  /-- `FLASH_WR32` (R205), the address A and the data D -/
  | flashWr32 (a d : Word)
  deriving DecidableEq, Repr

end Sys2Proof
end

