-- ==== Sys2Proof/WellFormed.lean ====
section
/-! DEFINITION. Which transactions are well formed: the address conditions of 30_encoding.md R94 and 20_memory.md R66. -/

namespace Sys2Proof

/-- R10 `inFlash`. -/
abbrev Config.InFlash (c : Config) (a : Nat) : Prop := c.flashBase ≤ a ∧ a < c.flashEnd

/-- The byte address a is an address of the bus (R60: 32 bits) and a multiple of the width of n bytes (R66). -/
abbrev OnBus (a n : Nat) : Prop := a < 2 ^ 32 ∧ a % n = 0

/-- The operands R94 admits: a flash access has its address in the flash window, aligned to its width. Every other
transaction takes any data, and exists where its register's address is on the bus and aligned (R60, R66; log 10: with
the default parameters all are). -/
abbrev Instr.Wf (c : Config) : Instr → Prop
  | .flashRd8 a    => c.InFlash a.toNat
  | .flashRd16 a   => c.InFlash a.toNat ∧ a.toNat % 2 = 0
  | .flashRd32 a   => c.InFlash a.toNat ∧ a.toNat % 4 = 0
  | .flashWr32 a _ => c.InFlash a.toNat ∧ a.toNat % 4 = 0
  | .crcFeed _     => OnBus (c.crcBase + 0x00) 1
  | .crcRead16     => OnBus (c.crcBase + 0x04) 2
  | .crcRead32     => OnBus (c.crcBase + 0x04) 4
  | .crcCtrlWr _   => OnBus (c.crcBase + 0x08) 4
  | .fkeyrWr _     => OnBus (c.fctlBase + 0x04) 4
  | .fstatrRd      => OnBus (c.fctlBase + 0x0C) 4
  | .fctlrRd       => OnBus (c.fctlBase + 0x10) 4
  | .fctlrWr _     => OnBus (c.fctlBase + 0x10) 4
  | .faddrRd       => OnBus (c.fctlBase + 0x14) 4
  | .faddrWr _     => OnBus (c.fctlBase + 0x14) 4
  | .fmodekeyrWr _ => OnBus (c.fctlBase + 0x24) 4

end Sys2Proof
end

