-- ==== Sys2Proof/Decode.lean ====
section
/-! DEFINITION. Transaction words of format T72 (30_encoding.md R90-R99): the fields, the decoder, total on every
72-bit word and rejecting by name, the encoder, and the opcode table of the default parameters as masks. -/

namespace Sys2Proof

/-! ## The fields of R90 -/

/-- R90 `W` (bit 71): a write. -/
def Txn.isWrite (t : Txn) : Bool := t.getLsbD 71

/-- R90 `SZ` (bits 70:69). -/
def Txn.size (t : Txn) : BitVec 2 := t.extractLsb' 69 2

/-- R90 `RES` (bits 68:64). -/
def Txn.res (t : Txn) : BitVec 5 := t.extractLsb' 64 5

/-- R90 `A` (bits 63:32). -/
def Txn.addr (t : Txn) : Word := t.extractLsb' 32 32

/-- R90 `D` (bits 31:0). -/
def Txn.data (t : Txn) : Word := t.extractLsb' 0 32

/-- The transaction word with the given fields and `RES` = 00000 (R90). -/
def Txn.make (w : Bool) (sz : BitVec 2) (a d : Word) : Txn := BitVec.ofBool w ++ sz ++ 0#5 ++ a ++ d

/-- R90, the codes of `SZ`. -/
def size8 : BitVec 2 := 0b00
def size16 : BitVec 2 := 0b01
def size32 : BitVec 2 := 0b10

/-! ## The register addresses of 10_state.md R23 and R24 -/

namespace Config

def regCrcData  (c : Config) : Nat := c.crcBase + 0x00
def regCrcValue (c : Config) : Nat := c.crcBase + 0x04
def regCrcCtrl  (c : Config) : Nat := c.crcBase + 0x08
def regKeyr     (c : Config) : Nat := c.fctlBase + 0x04
def regStatr    (c : Config) : Nat := c.fctlBase + 0x0C
def regCtlr     (c : Config) : Nat := c.fctlBase + 0x10
def regAddr     (c : Config) : Nat := c.fctlBase + 0x14
def regModeKeyr (c : Config) : Nat := c.fctlBase + 0x24

/-- R60: the byte address a lies in one of the three windows. -/
abbrev InWindow (c : Config) (a : Nat) : Prop :=
  c.InFlash a ∨ (c.fctlBase ≤ a ∧ a < c.fctlBase + windowSize) ∨ (c.crcBase ≤ a ∧ a < c.crcBase + windowSize)

end Config

/-! ## The decoder -/

/-- Why a word spells no transaction of the SSB (R98 a). -/
inductive DecodeRefusal where
  /-- `RES != 0` (R91) -/
  | reservedField
  /-- the address lies in none of the three windows (20_memory.md R63) -/
  | outsideWindows
  deriving DecidableEq, Repr

/-- What a transaction word decodes as. -/
inductive Decoded where
  /-- a row of the opcode table (R94) -/
  | op (i : Instr)
  /-- `ACCESS_VIOLATION` (R95): an address in a window, and no row matches -/
  | accessViolation
  /-- no transaction of the SSB -/
  | refused (r : DecodeRefusal)
  deriving DecidableEq, Repr

/-- The rows of R94 in the order of the opcode table: whether t matches the row, and what it then decodes as. An address
is compared as a number, so a register at or past 2^32 has no address (R60), and it is a multiple of the access width
(R24, R66), which R94 leaves unsaid of a register (log 10). -/
def decodeRows (c : Config) (t : Txn) : List (Bool × Instr) :=
  let row (w : Bool) (sz : BitVec 2) (addressOk : Bool) := t.isWrite == w && t.size == sz && addressOk
  let a := t.addr
  let n := a.toNat
  [ (row true  size8  (decide (n = c.regCrcData)),               .crcFeed (t.data.setWidth 8)),
    (row false size16 (decide (n = c.regCrcValue ∧ n % 2 = 0)),  .crcRead16),
    (row false size32 (decide (n = c.regCrcValue ∧ n % 4 = 0)),  .crcRead32),
    (row true  size32 (decide (n = c.regCrcCtrl ∧ n % 4 = 0)),   .crcCtrlWr t.data),
    (row true  size32 (decide (n = c.regKeyr ∧ n % 4 = 0)),      .fkeyrWr t.data),
    (row false size32 (decide (n = c.regStatr ∧ n % 4 = 0)),     .fstatrRd),
    (row false size32 (decide (n = c.regCtlr ∧ n % 4 = 0)),      .fctlrRd),
    (row true  size32 (decide (n = c.regCtlr ∧ n % 4 = 0)),      .fctlrWr t.data),
    (row false size32 (decide (n = c.regAddr ∧ n % 4 = 0)),      .faddrRd),
    (row true  size32 (decide (n = c.regAddr ∧ n % 4 = 0)),      .faddrWr t.data),
    (row true  size32 (decide (n = c.regModeKeyr ∧ n % 4 = 0)),  .fmodekeyrWr t.data),
    (row false size8  (decide (c.InFlash n)),                    .flashRd8 a),
    (row false size16 (decide (c.InFlash n ∧ n % 2 = 0)),        .flashRd16 a),
    (row false size32 (decide (c.InFlash n ∧ n % 4 = 0)),        .flashRd32 a),
    (row true  size32 (decide (c.InFlash n ∧ n % 4 = 0)),        .flashWr32 a t.data) ]

/-- R94: the first row that matches; where none does, `ACCESS_VIOLATION` (R95). -/
def firstRow : List (Bool × Instr) → Decoded
  | [] => .accessViolation
  | (hit, i) :: rows => if hit then .op i else firstRow rows

/-- R91, R63, R94, R95: the decoder. -/
def decode (c : Config) (t : Txn) : Decoded :=
  if t.res = 0 then
    if c.InWindow t.addr.toNat then firstRow (decodeRows c t) else .refused .outsideWindows
  else .refused .reservedField

/-- The instruction that the low `nbits` bits of `w` decode as under the default parameters, `none` where the decoder
gives no row of the opcode table. A T72 word is one word, so the table's bit numbering is R90's. -/
def decodeTableWord (nbits w : Nat) : Option Instr :=
  match decode Config.default (BitVec.ofNat 72 (w % 2 ^ nbits)) with
  | .op i => some i
  | .accessViolation => none
  | .refused _ => none

/-! ## The encoder -/

/-- An address as it stands in the field `A` (R90). -/
abbrev busAddr (a : Nat) : Word := BitVec.ofNat 32 a

/-- The word of a transaction (R90, R94), ignored data bits 0. -/
def encode (c : Config) : Instr → Txn
  | .crcFeed b     => Txn.make true  size8  (busAddr c.regCrcData) (b.setWidth 32)
  | .crcRead16     => Txn.make false size16 (busAddr c.regCrcValue) 0
  | .crcRead32     => Txn.make false size32 (busAddr c.regCrcValue) 0
  | .crcCtrlWr d   => Txn.make true  size32 (busAddr c.regCrcCtrl) d
  | .fkeyrWr d     => Txn.make true  size32 (busAddr c.regKeyr) d
  | .fstatrRd      => Txn.make false size32 (busAddr c.regStatr) 0
  | .fctlrRd       => Txn.make false size32 (busAddr c.regCtlr) 0
  | .fctlrWr d     => Txn.make true  size32 (busAddr c.regCtlr) d
  | .faddrRd       => Txn.make false size32 (busAddr c.regAddr) 0
  | .faddrWr d     => Txn.make true  size32 (busAddr c.regAddr) d
  | .fmodekeyrWr d => Txn.make true  size32 (busAddr c.regModeKeyr) d
  | .flashRd8 a    => Txn.make false size8  a 0
  | .flashRd16 a   => Txn.make false size16 a 0
  | .flashRd32 a   => Txn.make false size32 a 0
  | .flashWr32 a d => Txn.make true  size32 a d

/-- The data bits the SSB uses of a transaction (R92): none of a read, D[7:0] of an 8-bit write, all of a 32-bit
write. -/
def Txn.usedData (t : Txn) : Word :=
  if t.isWrite then (if t.size = size8 then (t.data.setWidth 8).setWidth 32 else t.data) else 0

/-! ## The opcode table of the default parameters -/

/-- A row of spec/opcode_table.json. -/
structure OpcodeRow where
  mnemonic : String
  mask     : Txn
  value    : Txn
  deriving DecidableEq, Repr

/-- spec/opcode_table.json, its masks and match values, in its order. -/
def opcodeTable : List OpcodeRow :=
  [ ⟨"CRC_FEED",     0xFFFFFFFFFF00000000, 0x804002300000000000⟩,
    ⟨"CRC_READ16",   0xFFFFFFFFFF00000000, 0x204002300400000000⟩,
    ⟨"CRC_READ32",   0xFFFFFFFFFF00000000, 0x404002300400000000⟩,
    ⟨"CRC_CTRL_WR",  0xFFFFFFFFFF00000000, 0xC04002300800000000⟩,
    ⟨"FKEYR_WR",     0xFFFFFFFFFF00000000, 0xC04002200400000000⟩,
    ⟨"FSTATR_RD",    0xFFFFFFFFFF00000000, 0x404002200C00000000⟩,
    ⟨"FCTLR_RD",     0xFFFFFFFFFF00000000, 0x404002201000000000⟩,
    ⟨"FCTLR_WR",     0xFFFFFFFFFF00000000, 0xC04002201000000000⟩,
    ⟨"FADDR_RD",     0xFFFFFFFFFF00000000, 0x404002201400000000⟩,
    ⟨"FADDR_WR",     0xFFFFFFFFFF00000000, 0xC04002201400000000⟩,
    ⟨"FMODEKEYR_WR", 0xFFFFFFFFFF00000000, 0xC04002202400000000⟩,
    ⟨"FLASH_RD8",    0xFFFFFFC00000000000, 0x000800000000000000⟩,
    ⟨"FLASH_RD16",   0xFFFFFFC00100000000, 0x200800000000000000⟩,
    ⟨"FLASH_RD32",   0xFFFFFFC00300000000, 0x400800000000000000⟩,
    ⟨"FLASH_WR32",   0xFFFFFFC00300000000, 0xC00800000000000000⟩ ]

/-- The mnemonic of a transaction, as the opcode table spells it. -/
def Instr.mnemonic : Instr → String
  | .crcFeed _     => "CRC_FEED"
  | .crcRead16     => "CRC_READ16"
  | .crcRead32     => "CRC_READ32"
  | .crcCtrlWr _   => "CRC_CTRL_WR"
  | .fkeyrWr _     => "FKEYR_WR"
  | .fstatrRd      => "FSTATR_RD"
  | .fctlrRd       => "FCTLR_RD"
  | .fctlrWr _     => "FCTLR_WR"
  | .faddrRd       => "FADDR_RD"
  | .faddrWr _     => "FADDR_WR"
  | .fmodekeyrWr _ => "FMODEKEYR_WR"
  | .flashRd8 _    => "FLASH_RD8"
  | .flashRd16 _   => "FLASH_RD16"
  | .flashRd32 _   => "FLASH_RD32"
  | .flashWr32 _ _ => "FLASH_WR32"

/-- R94: the first row of the opcode table whose value equals `t and mask`. -/
def tableMnemonic (t : Txn) : Option String :=
  (opcodeTable.find? (fun r => t &&& r.mask == r.value)).map (·.mnemonic)

end Sys2Proof
end

