-- ==== Sys2Proof/Machine/HostLang.lean ====
section
/-! DEFINITION. The host's program language (30_encoding.md R100, R101) and the host's registers (R109), as plain data.
They are host side: no SSB operation reads or writes them. -/

namespace Sys2Proof.Machine

/-- The host registers t0 to t7 (R109). -/
inductive HostReg where
  | t0 | t1 | t2 | t3 | t4 | t5 | t6 | t7
  deriving DecidableEq, Repr

/-- A register's number. -/
def HostReg.number : HostReg → Nat
  | .t0 => 0 | .t1 => 1 | .t2 => 2 | .t3 => 3 | .t4 => 4 | .t5 => 5 | .t6 => 6 | .t7 => 7

/-- The contents of the host registers: 32 bits each, or unwritten (R109). -/
structure HostRegs where
  t0 : Option Word := none
  t1 : Option Word := none
  t2 : Option Word := none
  t3 : Option Word := none
  t4 : Option Word := none
  t5 : Option Word := none
  t6 : Option Word := none
  t7 : Option Word := none
  deriving DecidableEq, Repr

/-- The named constants of a host expression (R100): the keys of R7 and the bits of R96. -/
inductive HostConst where
  | key1 | key2 | mkey1 | mkey2
  | strt | lock | flock | pagePg | pageEr | bufLoad | bufRst
  deriving DecidableEq, Repr

/-- The binary operators of R101. -/
inductive HostOp where
  | or | and | xor | add | sub | shl | shr | eq | ne | lt
  deriving DecidableEq, Repr

/-- A host expression over numbers, named constants and t0..t7 (R101). -/
inductive HostExpr where
  | num   (w : Word)
  | const (k : HostConst)
  | reg   (r : HostReg)
  | not   (e : HostExpr)
  | bin   (op : HostOp) (e₁ e₂ : HostExpr)
  deriving DecidableEq, Repr

/-- The registers a host statement can write by name (R100). -/
inductive WriteReg where
  | fkeyr | fmodekeyr | fctlr | faddr | crcCtrl | crcFeed
  deriving DecidableEq, Repr

/-- The registers a host statement can read by name (R100). -/
inductive ReadReg where
  | fstatr | fctlr | faddr | crcRead16 | crcRead32
  deriving DecidableEq, Repr

/-- The access widths of a transaction (R90). -/
inductive AccessSize where
  | b8 | b16 | b32
  deriving DecidableEq, Repr

/-- A host statement: a transaction (R100) or one of the five host forms (R101). -/
inductive HostStmt where
  /-- `FKEYR_WR <data>` and the like -/
  | writeReg   (k : WriteReg) (data : HostExpr)
  /-- `FSTATR_RD -> tN` and the like -/
  | readReg    (k : ReadReg) (t : HostReg)
  /-- `FLASH_RD8/16/32 <addr> -> tN`, `R8/R16/R32 <addr> -> tN` -/
  | readAt     (sz : AccessSize) (addr : HostExpr) (t : HostReg)
  /-- `FLASH_WR32 <addr>, <data>`, `W8/W16/W32 <addr>, <data>` -/
  | writeAt    (sz : AccessSize) (addr data : HostExpr)
  /-- `name:` -/
  | label      (l : Nat)
  /-- `tN <- <expr>` -/
  | assign     (t : HostReg) (e : HostExpr)
  /-- `goto name` -/
  | goto       (l : Nat)
  /-- `if (<expr>) goto name` -/
  | ifGoto     (e : HostExpr) (l : Nat)
  /-- `halt` -/
  | halt
  deriving DecidableEq, Repr

/-- The host agent (00_scope.md R12): its registers, its program, its position in it, whether it has halted, and whether
a host error (R109) has occurred: an expression has read a register nothing has written (log 13). -/
structure HostCpu where
  regs   : HostRegs := {}
  prog   : List HostStmt := []
  pc     : Nat := 0
  halted : Bool := false
  error  : Bool := false
  deriving DecidableEq, Repr

end Sys2Proof.Machine
end

