-- ==== Sys2Proof/Machine/Memory.lean ====
section
/-! DEFINITION. The flash array: reads, writes, runs of bytes, byte order (20_memory.md R64), any bytes
(70_reset_and_hazards.md R294) and the canonical form. -/

namespace Sys2Proof.Machine

/-- The flash array (R37): the bytes that differ from what an unlisted address reads as, by rising address. -/
abbrev Memory := List Host.Cell

/-- What an unlisted address of the flash array reads as: the erased byte (R210). It says nothing of the contents of any
array, since every array can be listed (log 5). -/
def Memory.unlisted : Byte := 0xFF

/-- R10 `FlashByte(a)`. -/
def Memory.read : Memory → Nat → Byte
  | [], _ => Memory.unlisted
  | (k, v) :: m, a => if a = k then v else Memory.read m a

/-- m with its entry for address a set to b, the list kept in rising order and free of unlisted bytes. -/
def Memory.write : Memory → Nat → Byte → Memory
  | [], a, b => if b = Memory.unlisted then [] else [(a, b)]
  | (k, v) :: m, a, b =>
    if a < k then (if b = Memory.unlisted then (k, v) :: m else (a, b) :: (k, v) :: m)
    else if a = k then (if b = Memory.unlisted then m else (a, b) :: m)
    else (k, v) :: Memory.write m a b

/-- The bytes bs written at a, a+1, … -/
def Memory.writeBytes : Memory → Nat → List Byte → Memory
  | m, _, [] => m
  | m, a, b :: bs => Memory.writeBytes (Memory.write m a b) (a + 1) bs

/-- The n bytes at a, a+1, … -/
def Memory.readBytes (m : Memory) (a n : Nat) : List Byte := (List.range n).map fun i => m.read (a + i)

/-- Any bytes in the n addresses from lo (R294): the byte at a is the free byte `Config.freeFlash a`. -/
def Memory.free (lo n : Nat) : Memory :=
  ((List.range' lo n).map fun a => (a, Config.freeFlash a)).filter fun x => decide (x.2 ≠ Memory.unlisted)

/-- The canonical form: addresses strictly rising, no entry equal to what an unlisted address reads as. -/
abbrev Memory.Wf (m : Memory) : Prop :=
  m.Pairwise (fun x y => x.1 < y.1) ∧ ∀ x ∈ m, x.2 ≠ Memory.unlisted

/-- Every listed address lies in [lo, hi). -/
abbrev Memory.Within (m : Memory) (lo hi : Nat) : Prop := ∀ x ∈ m, lo ≤ x.1 ∧ x.1 < hi

/-- Bytes assembled little-endian, the first least significant, zero-extended to a word (R64). -/
def leWord : List Byte → Word
  | [] => 0
  | b :: bs => b.setWidth 32 ||| (leWord bs <<< 8)

/-- The four bytes of a word, least significant first (R64). -/
def wordBytes (w : Word) : List Byte :=
  [w.extractLsb' 0 8, w.extractLsb' 8 8, w.extractLsb' 16 8, w.extractLsb' 24 8]

/-- The bytes of consecutive words (R64). -/
def wordsBytes (ws : List Word) : List Byte := ws.flatMap wordBytes

/-- R10 `MemRead(a, n)`. -/
def memRead (m : Memory) (a n : Nat) : Word := leWord (m.readBytes a n)

end Sys2Proof.Machine
end

