-- ==== Sys2Proof/Machine/State.lean ====
section
/-! DEFINITION. The state of the machine as plain data (10_state.md), why a step can stop, and the state after reset. -/

namespace Sys2Proof.Machine

/-- The fault codes of 60_exceptions.md R261, and the model fault of 44_driver_sequences.md R242 (c), for which R261 has
none. -/
inductive FaultCode where
  | accessViolation | reservedBit | busy | locked | keySequence
  | multiAction | modeError | addressRange | bufferState | pageMismatch
  /-- R242 (c): the host has ended an erase/program path without `RELOCK` (log 22) -/
  | notRelocked
  deriving DecidableEq, Repr

/-- One entry of `faults` (R39): the code, the transaction word (none for `notRelocked`, which no transaction raises;
log 22), and the register R261 records beside it (`ADDR` for `AddressRange`, `bufPage` for `PageMismatch`; log 7). -/
structure FaultRecord where
  code : FaultCode
  txn  : Option Txn
  info : Option Word := none
  deriving DecidableEq, Repr

/-- The progress of a key sequencer (R33). -/
inductive KeySeq where
  | idle | key1Seen
  deriving DecidableEq, Repr

/-- Whether the page buffer may be loaded and committed (R35). -/
inductive BufState where
  | invalid | ready
  deriving DecidableEq, Repr

/-- The operation `BSY` is waiting on (R34). -/
inductive Pending where
  | none
  /-- the erase of page p -/
  | erase (p : Word)
  /-- a buffer load -/
  | load
  /-- the commit of the buffer snapshot w to page p -/
  | program (p : Word) (w : List Word)
  deriving DecidableEq, Repr

/-- An event at the SSB (00_scope.md R12, 60_exceptions.md R276): what one step of the machine takes. -/
inductive BusEvent where
  /-- the host issues this transaction word -/
  | txn (t : Txn)
  /-- the flash completion agent's turn (R180) -/
  | complete
  /-- reset is asserted (R290) -/
  | reset
  /-- the host performs one statement of its program (R101) -/
  | host
  deriving DecidableEq, Repr

/-- The state of the machine. The fields down to `faults` are the spec's (10_state.md R22 to R39); the rest are the
configuration (R7), the host agent (R12, R109) and the model's own fields. -/
structure State where
  /-- the implementation parameters (R7); no step changes them (log 1) -/
  cfg        : Config
  /-- R22 -/
  crc        : Half
  /-- `LOCK` (R28) -/
  lock       : Bool
  /-- `FLOCK` (R29) -/
  flock      : Bool
  /-- `PAGE_ER` (R30) -/
  pageEr     : Bool
  /-- `PAGE_PG` (R30) -/
  pagePg     : Bool
  /-- `BSY` (R31) -/
  bsy        : Bool
  /-- `ADDR` (R32) -/
  addr       : Word
  /-- R33 -/
  keySeq     : KeySeq
  /-- R33 -/
  modeKeySeq : KeySeq
  /-- R33 -/
  barred     : Bool
  /-- R34 -/
  pending    : Pending
  /-- R35 -/
  buf        : List Word
  /-- R35 -/
  loaded     : List Bool
  /-- R35 -/
  bufState   : BufState
  /-- R35 -/
  bufPage    : Option Word
  /-- the latched data word with its address (R36) -/
  latch      : Option (Word × Word)
  /-- R37 -/
  flash      : Memory
  /-- R39, oldest first -/
  faults     : List FaultRecord
  /-- the host agent (R12, R101, R109); host side, not SSB state -/
  host       : HostCpu
  /-- the model's: what the last transaction returned to the host (R10 `return v`), none after a write (log 6) -/
  rdata      : Option Word
  /-- the model's: how many free values have been drawn (log 4) -/
  draws      : Nat
  /-- the model's: how many Erase and Program steps have completed (R283, log 20) -/
  flashOps   : Nat
  /-- the model's: the events still to come, oldest first (log 2) -/
  bus        : List BusEvent
  deriving DecidableEq, Repr

/-- Why the machine stops with a fault: never. A protocol violation of the SSB is recorded in `faults` (R260) and a host
error in `host.error` (R109), and the machine goes on. -/
inductive Fault where
  deriving DecidableEq, Repr

/-- Why the machine has no meaning for an event. All are safe: the model stops. -/
inductive Refusal where
  /-- an instruction that has no meaning yet; no arm of exec uses it. Safe. -/
  | notModelled (mnemonic : String)
  /-- a transaction word with `RES != 0` (R91), raised by the bus. Safe. -/
  | reservedField
  /-- a transaction outside the three windows (R63), raised by the bus. Safe. -/
  | outsideWindows
  /-- a configuration that breaks a constraint of R7, raised by every step. Safe. -/
  | badConfig
  /-- a host statement jumps to a label its program does not hold (log 13). Safe. -/
  | hostNoLabel (l : Nat)
  /-- the host runs past the last statement of its program (log 13). Safe. -/
  | hostNoStatement
  deriving DecidableEq, Repr

/-- What a step answers with. -/
abbrev Result := Host.Outcome State Fault Refusal

/-- First power-on with parameters c and `INITIAL_FLASH` = flash (R40, R294): every register at its reset value,
`faults` empty, the page buffer drawn (R35). -/
def State.powerOn (c : Config) (flash : Memory) : State where
  cfg        := c
  crc        := 0xFFFF
  lock       := true
  flock      := true
  pageEr     := false
  pagePg     := false
  bsy        := false
  addr       := 0
  keySeq     := .idle
  modeKeySeq := .idle
  barred     := false
  pending    := .none
  buf        := (List.range c.wordsPerPage).map Config.freeWord
  loaded     := List.replicate c.wordsPerPage false
  bufState   := .invalid
  bufPage    := none
  latch      := none
  flash      := flash
  faults     := []
  host       := {}
  rdata      := none
  draws      := c.wordsPerPage
  flashOps   := 0
  bus        := []

/-- The machine right after reset: first power-on with the default parameters, the flash array holding any bytes
(R294). A claim that needs a given array, such as the blank one, takes it as a premise and starts at `State.powerOn`. -/
def State.reset : State :=
  State.powerOn Config.default (Memory.free Config.default.flashBase Config.default.flashSize)

end Sys2Proof.Machine
end

