-- ==== Sys2Proof/Machine/Operands.lean ====
section
/-! DEFINITION. Operand forms: page addresses and slots (00_scope.md R10, 20_memory.md R62) and the fields of the data
word of `FCTLR_WR` and `CRC_CTRL_WR` (30_encoding.md R96, R97). -/

namespace Sys2Proof.Machine

/-- R10 `pageOf(a)`. -/
def pageOf (c : Config) (a : Nat) : Nat := a - a % c.pageSize

/-- R10 `pageOf(a)` as an address word. -/
def pageWord (c : Config) (a : Word) : Word := BitVec.ofNat 32 (pageOf c a.toNat)

/-- R10 `slotOf(a)`. -/
def slotOf (c : Config) (a : Nat) : Nat := a % c.pageSize / 4

/-- R62: a page address. -/
abbrev IsPage (c : Config) (p : Nat) : Prop := c.InFlash p ∧ p % c.pageSize = 0

/-- R27, R96: the reserved mask of `CTLR`. -/
abbrev ctlrReserved : Word := 0xFFF07F3F

/-- R27, R97: the reserved mask of `CRC_CTRL`. -/
abbrev crcCtrlReserved : Word := 0xFFFFFFFE

/-- The bits of `CTLR` (R25, R96). -/
def bitStrt    : Word := 0x00000040
def bitLock    : Word := 0x00000080
def bitFlock   : Word := 0x00008000
def bitPagePg  : Word := 0x00010000
def bitPageEr  : Word := 0x00020000
def bitBufLoad : Word := 0x00040000
def bitBufRst  : Word := 0x00080000

/-- The fields of a data word written to `CTLR` (R25, R96). -/
def dStrt    (d : Word) : Bool := d.getLsbD 6
def dLock    (d : Word) : Bool := d.getLsbD 7
def dFlock   (d : Word) : Bool := d.getLsbD 15
def dPagePg  (d : Word) : Bool := d.getLsbD 16
def dPageEr  (d : Word) : Bool := d.getLsbD 17
def dBufLoad (d : Word) : Bool := d.getLsbD 18
def dBufRst  (d : Word) : Bool := d.getLsbD 19

/-- The field `INIT` of a data word written to `CRC_CTRL` (R97). -/
def dInit (d : Word) : Bool := d.getLsbD 0

end Sys2Proof.Machine
end

