-- ==== Sys2Proof/Machine/Flags.lean ====
section
/-! DEFINITION. The status views: what reads of `CTLR` and `STATR` return (10_state.md R25, R26), and the lock states
(41_flash_lock.md R147). The SSB has no condition codes (R38). -/

namespace Sys2Proof.Machine

/-- A bit as a word (`zext_32`). -/
def bitWord (b : Bool) : Word := (BitVec.ofBool b).setWidth 32

/-- R25, R160: a read of `CTLR`. -/
def ctlrView (s : State) : Word :=
  (bitWord s.pageEr <<< 17) ||| (bitWord s.pagePg <<< 16) ||| (bitWord s.flock <<< 15) ||| (bitWord s.lock <<< 7)

/-- R26, R172: a read of `STATR`. -/
def statrView (s : State) : Word := bitWord s.bsy

/-- R147 `Locked`. -/
abbrev State.Locked (s : State) : Prop := s.lock = true ∧ s.flock = true

/-- R147 `MainUnlocked`. -/
abbrev State.MainUnlocked (s : State) : Prop := s.lock = false ∧ s.flock = true

/-- R147 `Unlocked`. -/
abbrev State.Unlocked (s : State) : Prop := s.lock = false ∧ s.flock = false

/-- R73, R200: the byte address a lies in the page of a pending erase or program. -/
def underOperation (s : State) (a : Nat) : Bool :=
  s.bsy && match s.pending with
    | .erase p => pageOf s.cfg a == p.toNat
    | .program p _ => pageOf s.cfg a == p.toNat
    | .load => false
    | .none => false

/-- The code numbers of 60_exceptions.md R261; 11 is the model's own (log 22). -/
def FaultCode.number : FaultCode → Nat
  | .accessViolation => 1
  | .reservedBit     => 2
  | .busy            => 3
  | .locked          => 4
  | .keySequence     => 5
  | .multiAction     => 6
  | .modeError       => 7
  | .addressRange    => 8
  | .bufferState     => 9
  | .pageMismatch    => 10
  | .notRelocked     => 11

end Sys2Proof.Machine
end

