-- ==== Sys2Proof/Machine/Ops.lean ====
section
/-! DEFINITION. The operations the meanings share: how a transaction ends, recording a model fault (60_exceptions.md
R260, the SSB's only exception), drawing free values, the completion step (42_flash_erase_program.md R180) and reset
(70_reset_and_hazards.md R290, R292). -/

namespace Sys2Proof.Machine

/-! ## How a transaction ends -/

/-- A read ends: v is returned to the host. -/
def returnData (v : Word) (s : State) : State := { s with rdata := some v }

/-- A write ends: nothing is returned. -/
def acknowledge (s : State) : State := { s with rdata := none }

/-- R260 `raise Fault(code, T)`, no T where no transaction is at fault: the record is appended to `faults` and nothing else changes. There is no trap entry, no
saved register and no redirection (R277). -/
def raise (code : FaultCode) (t : Option Txn) (info : Option Word) (s : State) : State :=
  { s with faults := s.faults ++ [⟨code, t, info⟩] }

/-- A violation that a write's checks find: the code and the register R261 records with it. -/
structure Violation where
  code : FaultCode
  info : Option Word := none
  deriving DecidableEq, Repr

/-- R260: a write whose checks pass takes its effect; one whose check fails records the violation and has no other
effect. -/
def finishWrite (t : Txn) (s : State) : Except Violation State → Result
  | .ok s' => .next (acknowledge s')
  | .error v => .next (acknowledge (raise v.code t v.info s))

/-- R95, R262: `ACCESS_VIOLATION`. A read returns 0. -/
def accessViolation (t : Txn) (s : State) : Result :=
  let s' := raise .accessViolation t none s
  if t.isWrite then .next (acknowledge s') else .next (returnData 0 s')

/-! ## Free values -/

/-- The next n free bytes (R10 `Draw(Bits8)`). -/
def freeBytes (from_ n : Nat) : List Byte := (List.range n).map fun i => Config.freeByte (from_ + i)

/-- The next n free words (R10 `Draw(Bits32)`). -/
def freeWords (from_ n : Nat) : List Word := (List.range n).map fun i => Config.freeWord (from_ + i)

/-! ## Reads of the flash array -/

/-- R200: one flash byte, a Draw under an operation. -/
def readFlashByte (s : State) (a : Nat) : Byte × State :=
  if underOperation s a then (Config.freeByte s.draws, { s with draws := s.draws + 1 }) else (s.flash.read a, s)

/-- R201, R202: the n flash bytes at a, a+1, …, each read by R200. -/
def readFlashBytes (s : State) (a : Nat) : Nat → List Byte × State
  | 0 => ([], s)
  | n + 1 =>
    let first := readFlashByte s a
    let rest := readFlashBytes first.2 (a + 1) n
    (first.1 :: rest.1, rest.2)

/-- A flash read of n bytes, assembled little-endian and returned zero-extended (R64, R92). -/
def flashRead (n : Nat) (a : Word) (s : State) : Result :=
  let r := readFlashBytes s a.toNat n
  .next (returnData (leWord r.1) r.2)

/-! ## Key errors and the lock actions -/

/-- R141 `keyError(T)`: the one fault that changes state. -/
def keyError (t : Txn) (s : State) : State :=
  { raise .keySequence t none s with
    barred := true, lock := true, flock := true, keySeq := .idle, modeKeySeq := .idle }

/-- R144 `LOCKSET`. -/
def lockSet (s : State) : State := { s with lock := true, flock := true, keySeq := .idle, modeKeySeq := .idle }

/-- R145 `FLOCKSET`. -/
def flockSet (s : State) : State := { s with flock := true, modeKeySeq := .idle }

/-! ## The completion agent -/

/-- R180: every byte of page p is 0xFF. -/
def pageErased (s : State) (p : Word) : Bool := (s.flash.readBytes p.toNat s.cfg.pageSize).all (· == 0xFF)

/-- R180: the flash array after the pending operation finishes, and the count of free values then. -/
def finishedFlash (s : State) : Memory × Nat :=
  match s.pending with
  | .none => (s.flash, s.draws)
  | .load => (s.flash, s.draws)
  | .erase p => (s.flash.writeBytes p.toNat (List.replicate s.cfg.pageSize 0xFF), s.draws)
  | .program p w =>
    if pageErased s p then (s.flash.writeBytes p.toNat (wordsBytes w), s.draws)
    else match s.cfg.programOverData with
      | .and =>
        (s.flash.writeBytes p.toNat
          (List.zipWith (· &&& ·) (s.flash.readBytes p.toNat s.cfg.pageSize) (wordsBytes w)), s.draws)
      | .any => (s.flash.writeBytes p.toNat (freeBytes s.draws s.cfg.pageSize), s.draws + s.cfg.pageSize)

/-- R283: an Erase or a Program is pending. -/
def Pending.changesFlash : Pending → Bool
  | .none => false
  | .load => false
  | .erase _ => true
  | .program _ _ => true

/-- R180: the completion agent's step, enabled exactly when `BSY = 1`; where it is not, its turn changes nothing
(log 2). -/
def complete (s : State) : State :=
  if s.bsy then
    { s with
      flash := (finishedFlash s).1, draws := (finishedFlash s).2, bsy := false, pending := .none,
      flashOps := if s.pending.changesFlash then s.flashOps + 1 else s.flashOps }
  else s

/-! ## Reset -/

/-- R292: the flash array after a reset that falls while an operation is pending, and the count of free values then. -/
def interruptedFlash (s : State) : Memory × Nat :=
  match s.pending with
  | .none => (s.flash, s.draws)
  | .load => (s.flash, s.draws)
  | .erase p | .program p _ =>
    if s.cfg.tornOnReset then
      (s.flash.writeBytes p.toNat (freeBytes s.draws s.cfg.pageSize), s.draws + s.cfg.pageSize)
    else if Config.freeChoice s.draws then finishedFlash { s with draws := s.draws + 1 }
    else (s.flash, s.draws + 1)

/-- R290: reset. The flash array keeps its contents but for R292, `faults` keeps its entries, and what is not SSB state
(parameters, host, bus, the model's own fields) is as before (log 11). -/
def resetBlock (s : State) : State :=
  { s with
    crc := 0xFFFF, lock := true, flock := true, pageEr := false, pagePg := false, bsy := false, addr := 0,
    keySeq := .idle, modeKeySeq := .idle, barred := false, pending := .none,
    buf := freeWords (interruptedFlash s).2 s.cfg.wordsPerPage,
    loaded := List.replicate s.cfg.wordsPerPage false,
    bufState := .invalid, bufPage := none, latch := none,
    flash := (interruptedFlash s).1,
    draws := (interruptedFlash s).2 + s.cfg.wordsPerPage }

end Sys2Proof.Machine
end

