-- ==== Sys2Proof/Machine/Control.lean ====
section
/-! DEFINITION. The control, address and status registers of the flash controller
(42_flash_erase_program.md R160-R172). -/

namespace Sys2Proof.Machine

/-- The actions of a `CTLR` write (R161). -/
inductive CtlrAction where
  | strt | bufLoad | bufRst | lockSet | flockSet
  deriving DecidableEq, Repr

/-- R161: the actions the data word d asks for, in the order of the rule. -/
def ctlrActions (d : Word) (s : State) : List CtlrAction :=
  (if dStrt d then [.strt] else []) ++
  (if dBufLoad d then [.bufLoad] else []) ++
  (if dBufRst d then [.bufRst] else []) ++
  (if dLock d && !s.lock then [.lockSet] else if dFlock d && !s.flock then [.flockSet] else [])

/-- R161: d changes a mode bit. -/
def modeChanges (d : Word) (s : State) : Bool := dPagePg d != s.pagePg || dPageEr d != s.pageEr

/-- R162 `applyMode`. -/
def applyMode (newPg newEr : Bool) (s : State) : State :=
  if s.pagePg && !newPg then { s with bufState := .invalid, latch := none, pagePg := newPg, pageEr := newEr }
  else { s with pagePg := newPg, pageEr := newEr }

/-- The precondition of `STRT` under the modes of the same write (R163, R164, R165). -/
def strtCheck (newPg newEr : Bool) (s : State) : Option Violation :=
  match newEr, newPg with
  | true, false => if ¬ IsPage s.cfg s.addr.toNat then some ⟨.addressRange, some s.addr⟩ else none
  | false, true =>
    if ¬ IsPage s.cfg s.addr.toNat then some ⟨.addressRange, some s.addr⟩
    else if s.bufState ≠ .ready ∨ s.latch ≠ none then some ⟨.bufferState, none⟩
    else if s.bufPage ≠ none ∧ s.bufPage ≠ some s.addr then some ⟨.pageMismatch, s.bufPage⟩
    else none
  | false, false => some ⟨.modeError, none⟩
  | true, true => some ⟨.modeError, none⟩

/-- The precondition of `BUFRST` (R166). -/
def bufRstCheck (newPg newEr : Bool) : Option Violation :=
  if ¬ (newPg = true ∧ newEr = false) then some ⟨.modeError, none⟩ else none

/-- The precondition of `BUFLOAD` (R167). -/
def bufLoadCheck (newPg newEr : Bool) (s : State) : Option Violation :=
  if ¬ (newPg = true ∧ newEr = false) then some ⟨.modeError, none⟩
  else if s.bufState ≠ .ready then some ⟨.bufferState, none⟩
  else match s.latch with
    | none => some ⟨.bufferState, none⟩
    | some (a, _) =>
      if s.bufPage ≠ none ∧ s.bufPage ≠ some (pageWord s.cfg a) then some ⟨.pageMismatch, s.bufPage⟩
      else if s.loaded.getD (slotOf s.cfg a.toNat) false then some ⟨.bufferState, none⟩
      else none

/-- R161: the precondition of an action that needs `Unlocked`. The lock actions have none. -/
def actionCheck (newPg newEr : Bool) (s : State) : CtlrAction → Option Violation
  | .strt => strtCheck newPg newEr s
  | .bufLoad => bufLoadCheck newPg newEr s
  | .bufRst => bufRstCheck newPg newEr
  | .lockSet => none
  | .flockSet => none

/-- R164: the erase of page `ADDR` starts. -/
def startErase (s : State) : State := { s with bsy := true, pending := .erase s.addr }

/-- R165: the commit of the buffer to page `ADDR` starts, with a snapshot of the buffer. -/
def startProgram (s : State) : State :=
  { s with bsy := true, pending := .program s.addr s.buf, bufState := .invalid }

/-- R163: the operation the mode bits select starts. -/
def start (s : State) : State := if s.pageEr then startErase s else startProgram s

/-- R166: the page buffer is reset. -/
def bufReset (s : State) : State :=
  { s with
    buf := List.replicate s.cfg.wordsPerPage 0xFFFFFFFF, loaded := List.replicate s.cfg.wordsPerPage false,
    bufPage := none, latch := none, bufState := .ready }

/-- R167: the latched word moves into its slot. -/
def bufLoad (s : State) : State :=
  match s.latch with
  | none => s
  | some (a, d) =>
    { s with
      buf := s.buf.set (slotOf s.cfg a.toNat) d, loaded := s.loaded.set (slotOf s.cfg a.toNat) true,
      bufPage := some (pageWord s.cfg a), latch := none, bsy := true, pending := .load }

/-- The effect of an action (R144, R145, R163-R167). -/
def performAction (s : State) : CtlrAction → State
  | .strt => start s
  | .bufLoad => bufLoad s
  | .bufRst => bufReset s
  | .lockSet => lockSet s
  | .flockSet => flockSet s

/-- R161, past the lock check: the action's precondition against the new modes, then the mode bits, then the
action. -/
def modesThenAction (d : Word) (s : State) (act : Option CtlrAction) : Except Violation State :=
  match act.bind (actionCheck (dPagePg d) (dPageEr d) s) with
  | some v => .error v
  | none =>
    let s₁ := if modeChanges d s then applyMode (dPagePg d) (dPageEr d) s else s
    .ok (act.elim s₁ (performAction s₁))

/-- The checks and the effect of a write to `CTLR` (R161). -/
def ctlrWrite (d : Word) (s : State) : Except Violation State :=
  if d &&& ctlrReserved ≠ 0 then .error ⟨.reservedBit, none⟩
  else if modeChanges d s = false ∧ ctlrActions d s = [] then .ok s
  else if s.bsy then .error ⟨.busy, none⟩
  else if 1 < (ctlrActions d s).length then .error ⟨.multiAction, none⟩
  else if ctlrActions d s = [.lockSet] then
    if modeChanges d s then .error ⟨.multiAction, none⟩ else .ok (lockSet s)
  else if ctlrActions d s = [.flockSet] then
    if modeChanges d s then .error ⟨.multiAction, none⟩ else .ok (flockSet s)
  else if s.lock || s.flock then .error ⟨.locked, none⟩
  else modesThenAction d s (ctlrActions d s).head?

/-- The checks and the effect of a write to `ADDR` (R170). -/
def addrWrite (d : Word) (s : State) : Except Violation State :=
  if s.bsy then .error ⟨.busy, none⟩ else .ok { s with addr := d }

/-- `FCTLR_RD` (R160). -/
def execFctlrRd (s : State) : Result := .next (returnData (ctlrView s) s)

/-- `FCTLR_WR` (R161). -/
def execFctlrWr (d : Word) (s : State) : Result :=
  finishWrite (encode s.cfg (.fctlrWr d)) s (ctlrWrite d s)

/-- `FADDR_WR` (R170). -/
def execFaddrWr (d : Word) (s : State) : Result :=
  finishWrite (encode s.cfg (.faddrWr d)) s (addrWrite d s)

/-- `FADDR_RD` (R171). -/
def execFaddrRd (s : State) : Result := .next (returnData s.addr s)

/-- `FSTATR_RD` (R172). -/
def execFstatrRd (s : State) : Result := .next (returnData (statrView s) s)

end Sys2Proof.Machine
end

