-- ==== Sys2Proof/Machine/Crc.lean ====
section
/-! DEFINITION. The CRC-16-CCITT datapath and its four transactions (40_crc.md). -/

namespace Sys2Proof.Machine

/-- One shift of the CRC register (R124). -/
def crcShift (c : Half) : Half := if c.getLsbD 15 then (c <<< 1) ^^^ 0x1021 else c <<< 1

/-- n shifts (R124). -/
def crcShifts : Nat → Half → Half
  | 0, c => c
  | n + 1, c => crcShifts n (crcShift c)

/-- R124 `crcStep`: the byte enters at the top, then eight shifts. -/
def crcStep (c : Half) (b : Byte) : Half := crcShifts 8 (c ^^^ (b.setWidth 16 <<< 8))

/-- The register after the bytes m, from c (R124). -/
def crcFold (c : Half) (m : List Byte) : Half := m.foldl crcStep c

/-- R124 `crc16`. -/
def crc16 (m : List Byte) : Half := crcFold 0xFFFF m

/-- `CRC_FEED` (R121). -/
def execCrcFeed (b : Byte) (s : State) : Result :=
  .next (acknowledge { s with crc := crcStep s.crc b })

/-- `CRC_READ16` (R122). -/
def execCrcRead16 (s : State) : Result := .next (returnData (s.crc.setWidth 32) s)

/-- `CRC_READ32` (R123). -/
def execCrcRead32 (s : State) : Result := .next (returnData (s.crc.setWidth 32) s)

/-- The checks and the effect of a write to `CRC_CTRL` (R120). -/
def crcCtrlWrite (d : Word) (s : State) : Except Violation State :=
  if d &&& crcCtrlReserved ≠ 0 then .error ⟨.reservedBit, none⟩
  else if dInit d then .ok { s with crc := 0xFFFF }
  else .ok s

/-- `CRC_CTRL_WR` (R120). -/
def execCrcCtrlWr (d : Word) (s : State) : Result :=
  finishWrite (encode s.cfg (.crcCtrlWr d)) s (crcCtrlWrite d s)

end Sys2Proof.Machine
end

