-- ==== Sys2Proof/Machine/FlashArray.lean ====
section
/-! DEFINITION. The transactions on the flash window (43_flash_array.md R200-R205). -/

namespace Sys2Proof.Machine

/-- `FLASH_RD8` (R200). -/
def execFlashRd8 (a : Word) (s : State) : Result := flashRead 1 a s

/-- `FLASH_RD16` (R201). -/
def execFlashRd16 (a : Word) (s : State) : Result := flashRead 2 a s

/-- `FLASH_RD32` (R202). -/
def execFlashRd32 (a : Word) (s : State) : Result := flashRead 4 a s

/-- The checks and the effect of a data-word write (R205): the word is latched; the flash array does not change. -/
def flashDataWrite (a d : Word) (s : State) : Except Violation State :=
  if s.bsy then .error ⟨.busy, none⟩
  else if s.lock || s.flock then .error ⟨.locked, none⟩
  else if ¬ (s.pagePg = true ∧ s.pageEr = false) then .error ⟨.modeError, none⟩
  else if s.bufState ≠ .ready ∨ s.latch ≠ none then .error ⟨.bufferState, none⟩
  else .ok { s with latch := some (a, d) }

/-- `FLASH_WR32` (R205). -/
def execFlashWr32 (a d : Word) (s : State) : Result :=
  finishWrite (encode s.cfg (.flashWr32 a d)) s (flashDataWrite a d s)

end Sys2Proof.Machine
end

