-- ==== Sys2Proof/Machine/Keys.lean ====
section
/-! DEFINITION. The two unlock key registers (41_flash_lock.md R140-R143). -/

namespace Sys2Proof.Machine

/-- The main key sequencer takes the key d (R140). -/
def mainKey (t : Txn) (d : Word) (s : State) : State :=
  match s.keySeq with
  | .idle     => if d = s.cfg.key1 then { s with keySeq := .key1Seen } else keyError t s
  | .key1Seen => if d = s.cfg.key2 then { s with lock := false, keySeq := .idle } else keyError t s

/-- The mode key sequencer takes the key d (R142). -/
def modeKey (t : Txn) (d : Word) (s : State) : State :=
  match s.modeKeySeq with
  | .idle     => if d = s.cfg.mkey1 then { s with modeKeySeq := .key1Seen } else keyError t s
  | .key1Seen => if d = s.cfg.mkey2 then { s with flock := false, modeKeySeq := .idle } else keyError t s

/-- The checks and the effect of a write to `KEYR` (R140). -/
def keyrWrite (t : Txn) (d : Word) (s : State) : Except Violation State :=
  if s.bsy then .error ⟨.busy, none⟩
  else if s.barred then .error ⟨.keySequence, none⟩
  else .ok (mainKey t d s)

/-- The checks and the effect of a write to `MODEKEYR` (R142). -/
def modeKeyrWrite (t : Txn) (d : Word) (s : State) : Except Violation State :=
  if s.bsy then .error ⟨.busy, none⟩
  else if s.barred then .error ⟨.keySequence, none⟩
  else if s.lock then .error ⟨.keySequence, none⟩
  else .ok (modeKey t d s)

/-- `FKEYR_WR` (R140). -/
def execFkeyrWr (d : Word) (s : State) : Result :=
  finishWrite (encode s.cfg (.fkeyrWr d)) s (keyrWrite (encode s.cfg (.fkeyrWr d)) d s)

/-- `FMODEKEYR_WR` (R142). -/
def execFmodekeyrWr (d : Word) (s : State) : Result :=
  finishWrite (encode s.cfg (.fmodekeyrWr d)) s (modeKeyrWrite (encode s.cfg (.fmodekeyrWr d)) d s)

end Sys2Proof.Machine
end

