-- ==== Sys2Proof/Machine/Dispatch.lean ====
section
/-! DEFINITION. The dispatch: one arm per transaction, one direct call of its meaning. -/

namespace Sys2Proof.Machine

def exec (i : Instr) (s : State) : Host.Outcome State Fault Refusal :=
  match i with
  -- the CRC datapath (40_crc.md)
  | .crcFeed b => Sys2Proof.Machine.execCrcFeed b s
  | .crcRead16 => Sys2Proof.Machine.execCrcRead16 s
  | .crcRead32 => Sys2Proof.Machine.execCrcRead32 s
  | .crcCtrlWr d => Sys2Proof.Machine.execCrcCtrlWr d s
  -- the flash controller (41_flash_lock.md, 42_flash_erase_program.md)
  | .fkeyrWr d => Sys2Proof.Machine.execFkeyrWr d s
  | .fstatrRd => Sys2Proof.Machine.execFstatrRd s
  | .fctlrRd => Sys2Proof.Machine.execFctlrRd s
  | .fctlrWr d => Sys2Proof.Machine.execFctlrWr d s
  | .faddrRd => Sys2Proof.Machine.execFaddrRd s
  | .faddrWr d => Sys2Proof.Machine.execFaddrWr d s
  | .fmodekeyrWr d => Sys2Proof.Machine.execFmodekeyrWr d s
  -- the flash window (43_flash_array.md)
  | .flashRd8 a => Sys2Proof.Machine.execFlashRd8 a s
  | .flashRd16 a => Sys2Proof.Machine.execFlashRd16 a s
  | .flashRd32 a => Sys2Proof.Machine.execFlashRd32 a s
  | .flashWr32 a d => Sys2Proof.Machine.execFlashWr32 a d s

end Sys2Proof.Machine
end

