-- ==== Sys2Proof/Machine/Bus.lean ====
section
/-! DEFINITION. A transaction word at the SSB: it is decoded and takes its effect as one step (20_memory.md R68). -/

namespace Sys2Proof.Machine

/-- The refusal of a word that spells no transaction of the SSB (R91, R63). -/
def refuseWord : DecodeRefusal → Refusal
  | .reservedField => .reservedField
  | .outsideWindows => .outsideWindows

/-- The transaction word t at the SSB. -/
def transact (t : Txn) (s : State) : Result :=
  match decode s.cfg t with
  | .op i => exec i s
  | .accessViolation => accessViolation t s
  | .refused r => .refused (refuseWord r)

end Sys2Proof.Machine
end

