-- ==== Sys2Proof/Machine/Host.lean ====
section
/-! DEFINITION. The host agent: one statement of its program (30_encoding.md R100, R101, R109). -/

namespace Sys2Proof.Machine

/-- The contents of a host register (R109). -/
def HostRegs.get (rs : HostRegs) : HostReg → Option Word
  | .t0 => rs.t0
  | .t1 => rs.t1
  | .t2 => rs.t2
  | .t3 => rs.t3
  | .t4 => rs.t4
  | .t5 => rs.t5
  | .t6 => rs.t6
  | .t7 => rs.t7

/-- Host register t set to v. -/
def HostRegs.set (rs : HostRegs) (t : HostReg) (v : Word) : HostRegs :=
  match t with
  | .t0 => { rs with t0 := some v }
  | .t1 => { rs with t1 := some v }
  | .t2 => { rs with t2 := some v }
  | .t3 => { rs with t3 := some v }
  | .t4 => { rs with t4 := some v }
  | .t5 => { rs with t5 := some v }
  | .t6 => { rs with t6 := some v }
  | .t7 => { rs with t7 := some v }

/-- The value of a named constant (R96, R7). -/
def HostConst.value (c : Config) : HostConst → Word
  | .key1 => c.key1
  | .key2 => c.key2
  | .mkey1 => c.mkey1
  | .mkey2 => c.mkey2
  | .strt => bitStrt
  | .lock => bitLock
  | .flock => bitFlock
  | .pagePg => bitPagePg
  | .pageEr => bitPageEr
  | .bufLoad => bitBufLoad
  | .bufRst => bitBufRst

/-- A comparison's 1 or 0 (R101). -/
def truthWord (p : Bool) : Word := bitWord p

/-- A binary operator on 32-bit unsigned values (R101). A shift by more than 31, whose result R101 does not state, gives a
free value, n being how many have been drawn (log 21). -/
def HostOp.apply (n : Nat) (op : HostOp) (x y : Word) : Word :=
  match op with
  | .or  => x ||| y
  | .and => x &&& y
  | .xor => x ^^^ y
  | .add => x + y
  | .sub => x - y
  | .shl => if y.toNat < 32 then x <<< y.toNat else Config.freeShl n x y
  | .shr => if y.toNat < 32 then x >>> y.toNat else Config.freeShr n x y
  | .eq  => truthWord (x == y)
  | .ne  => truthWord (x != y)
  | .lt  => truthWord (decide (x.toNat < y.toNat))

/-- The value of a host expression (R101), n being how many free values have been drawn: a register nothing has written
reads as one (log 13). -/
def HostExpr.eval (c : Config) (rs : HostRegs) (n : Nat) : HostExpr → Word
  | .num w => w
  | .const k => k.value c
  | .reg r => (rs.get r).getD (Config.freeRegister n r.number)
  | .not e => ~~~(e.eval c rs n)
  | .bin op e₁ e₂ => op.apply n (e₁.eval c rs n) (e₂.eval c rs n)

/-- R109: a host expression reads a register nothing has written, which is a host error. -/
def HostExpr.readsUnwritten (rs : HostRegs) : HostExpr → Bool
  | .num _ => false
  | .const _ => false
  | .reg r => (rs.get r).isNone
  | .not e => e.readsUnwritten rs
  | .bin _ e₁ e₂ => e₁.readsUnwritten rs || e₂.readsUnwritten rs

/-- The `SZ` code of an access width (R90). -/
def AccessSize.code : AccessSize → BitVec 2
  | .b8 => size8
  | .b16 => size16
  | .b32 => size32

/-- The transaction word of a named register write (R94, R100). -/
def WriteReg.word (c : Config) (d : Word) : WriteReg → Txn
  | .fkeyr => Txn.make true size32 (busAddr c.regKeyr) d
  | .fmodekeyr => Txn.make true size32 (busAddr c.regModeKeyr) d
  | .fctlr => Txn.make true size32 (busAddr c.regCtlr) d
  | .faddr => Txn.make true size32 (busAddr c.regAddr) d
  | .crcCtrl => Txn.make true size32 (busAddr c.regCrcCtrl) d
  | .crcFeed => Txn.make true size8 (busAddr c.regCrcData) d

/-- The transaction word of a named register read (R94, R100). -/
def ReadReg.word (c : Config) : ReadReg → Txn
  | .fstatr => Txn.make false size32 (busAddr c.regStatr) 0
  | .fctlr => Txn.make false size32 (busAddr c.regCtlr) 0
  | .faddr => Txn.make false size32 (busAddr c.regAddr) 0
  | .crcRead16 => Txn.make false size16 (busAddr c.regCrcValue) 0
  | .crcRead32 => Txn.make false size32 (busAddr c.regCrcValue) 0

/-- The position after the first label l, if the statements hold it (`goto`, R101). -/
def findLabel (l : Nat) : List HostStmt → Nat → Option Nat
  | [], _ => none
  | .label k :: rest, n => if k = l then some (n + 1) else findLabel l rest (n + 1)
  | _ :: rest, n => findLabel l rest (n + 1)

/-- The host goes on at the next statement. -/
def hostNext (s : State) : State := { s with host := { s.host with pc := s.host.pc + 1 } }

/-- The host goes on at label l. -/
def hostJump (l : Nat) (s : State) : Result :=
  match findLabel l s.host.prog 0 with
  | some n => .next { s with host := { s.host with pc := n } }
  | none => .refused (.hostNoLabel l)

/-- Host register t takes v. -/
def hostSet (t : HostReg) (v : Word) (s : State) : State :=
  { s with host := { s.host with regs := s.host.regs.set t v } }

/-- The host issues a write (R100). -/
def hostWrite (t : Txn) (s : State) : Result :=
  match transact t s with
  | .next s' => .next (hostNext s')
  | .fault f => .fault f
  | .refused r => .refused r

/-- The host issues a read and keeps what it returns in register t (R100). -/
def hostRead (t : Txn) (r : HostReg) (s : State) : Result :=
  match transact t s with
  | .next s' => .next (hostNext (s'.rdata.elim s' (hostSet r · s')))
  | .fault f => .fault f
  | .refused e => .refused e

/-- What a host expression evaluates to now. -/
def exprValue (e : HostExpr) (s : State) : Word := e.eval s.cfg s.host.regs s.draws

/-- s once the host has evaluated e: a host error is kept (R109), and the next evaluation draws other free values
(logs 4, 13). -/
def evaluated (e : HostExpr) (s : State) : State :=
  { s with
    draws := s.draws + 1,
    host := { s.host with error := s.host.error || e.readsUnwritten s.host.regs } }

/-- `halt` (R101). 44_driver_sequences.md R242 (c), D48: a host whose program ends with the controller not re-locked has
broken its duty, which is a model fault (log 22). -/
def hostHalt (s : State) : State :=
  { s with
    faults := if s.Locked then s.faults else (raise .notRelocked none none s).faults,
    host := { s.host with halted := true } }

/-- One host statement (R100, R101). A host that breaks its duties of 44_driver_sequences.md R242 (b), or unlocks too late
for (c), records the faults of the transactions it issues; one that ends without the re-lock of (c) records `notRelocked`
at its `halt`. -/
def hostStmt (st : HostStmt) (s : State) : Result :=
  match st with
  | .writeReg k data => hostWrite (k.word s.cfg (exprValue data s)) (evaluated data s)
  | .readReg k t => hostRead (k.word s.cfg) t s
  | .readAt sz addr t => hostRead (Txn.make false sz.code (exprValue addr s) 0) t (evaluated addr s)
  | .writeAt sz addr data =>
    let s' := evaluated addr s
    hostWrite (Txn.make true sz.code (exprValue addr s) (exprValue data s')) (evaluated data s')
  | .label _ => .next (hostNext s)
  | .assign t e => .next (hostNext (hostSet t (exprValue e s) (evaluated e s)))
  | .goto l => hostJump l s
  | .ifGoto e l => if exprValue e s ≠ 0 then hostJump l (evaluated e s) else .next (hostNext (evaluated e s))
  | .halt => .next (hostHalt s)

/-- The host's turn: the next statement of its program; a halted host does nothing more (R101). -/
def hostTurn (s : State) : Result :=
  if s.host.halted then .next s
  else match s.host.prog[s.host.pc]? with
    | some st => hostStmt st s
    | none => .refused .hostNoStatement

end Sys2Proof.Machine
end

