-- ==== Sys2Proof/Machine/Events.lean ====
section
/-! DEFINITION. One step of the whole machine: the next event of the bus (00_scope.md R12, 60_exceptions.md R276). -/

namespace Sys2Proof.Machine

/-- One event. -/
def takeEvent (e : BusEvent) (s : State) : Result :=
  match e with
  | .txn t => transact t s
  | .complete => .next (complete s)
  | .reset => .next (resetBlock s)
  | .host => hostTurn s

/-- The next event of the bus, taken off it. R7: "A model refuses a configuration that breaks a
constraint." With no event to come the machine stays as it is (log 2). -/
def nextEvent (s : State) : Result :=
  if s.cfg.wf then
    match s.bus with
    | [] => .next s
    | e :: rest => takeEvent e { s with bus := rest }
  else .refused .badConfig

/-- s with the low nbits bits of w as the next transaction word on the bus. -/
def placeWord (s : State) (nbits w : Nat) : State :=
  { s with bus := .txn (BitVec.ofNat 72 (w % 2 ^ nbits)) :: s.bus }

end Sys2Proof.Machine
end

