-- ==== Sys2Proof/Machine/Step.lean ====
section
/-! DEFINITION. The step function and where the next transaction comes from. -/

namespace Sys2Proof.Machine

/-- One step of the machine: the next event of the bus. -/
def step (s : State) : Host.Outcome State Fault Refusal := nextEvent s

/-- s with the transaction word w of nbits bits as the event its next step takes (log 3). -/
def State.withFetchWord (s : State) (nbits w : Nat) : State := placeWord s nbits w

end Sys2Proof.Machine
end

