-- ==== Sys2Proof/Machine/Driver.lean ====
section
/-! DEFINITION. The reference driver (44_driver_sequences.md): region geometry, data layout, the pseudo-instructions of
30_encoding.md R102 and R236-R239, and the reference save and load (R240, R241) as host programs. No SSB operation is
defined here. A label is a number; an expansion that needs fresh labels takes the first one it may use. -/

namespace Sys2Proof.Machine

/-! ## Region geometry (R230, R231) -/

/-- R230 `align_up`, on unsigned 32-bit values, a being a power of two. -/
def alignUp (v a : Word) : Word := (v + a - 1) &&& ~~~(a - 1)

/-- The region of a settings block (R230). -/
structure Region where
  alignedSize : Nat
  numPages    : Nat
  base        : Nat
  deriving DecidableEq, Repr

/-- R230: the region of a block of the given length; none where R231 refuses it (32-bit overflow in `align_up`, or a
base below `FLASH_BASE`). DESIGN CHOICE (log 23): `align_up` overflows when `v + a - 1` does; an intermediate `v + a` of
exactly 2^32, which R231 does not speak of, is no overflow. The fields are numbers, so a `FLASH_END` of 2^32 is the base
of an empty region as it stands. -/
def region (c : Config) (length : Nat) : Option Region :=
  if length + c.pageSize - 1 < 2 ^ 32 then
    let aligned := (alignUp (BitVec.ofNat 32 length) (BitVec.ofNat 32 c.pageSize)).toNat
    if c.flashBase + aligned ≤ c.flashEnd then
      some ⟨aligned, aligned / c.pageSize, c.flashEnd - aligned / c.pageSize * c.pageSize⟩
    else none
  else none

/-! ## Data layout (R233-R235) -/

/-- R233: CRC use is forced off when L < 2. -/
def crcInUse (useCrc : Bool) (length : Nat) : Bool := useCrc && decide (2 ≤ length)

/-- R233: the number of payload bytes. -/
def payloadLength (useCrc : Bool) (length : Nat) : Nat := if crcInUse useCrc length then length - 2 else length

/-- R233: the block with its CRC field, low byte first. -/
def storedBlock (useCrc : Bool) (block : List Byte) : List Byte :=
  if crcInUse useCrc block.length then
    let payload := block.take (block.length - 2)
    payload ++ [(crc16 payload).extractLsb' 0 8, (crc16 payload).extractLsb' 8 8]
  else block

/-- R234 `b(j)`: the bytes of a block, 0xFF past its end. -/
def blockByte (block : List Byte) (j : Nat) : Byte := block.getD j 0xFF

/-- R234 `word(k, s)`. -/
def blockWord (c : Config) (block : List Byte) (k s : Nat) : Word :=
  leWord ((List.range 4).map fun i => blockByte block (k * c.pageSize + 4 * s + i))

/-- R235: whether the L bytes read from the region are a valid block. -/
def blockValid (useCrc : Bool) (block : List Byte) : Bool :=
  if crcInUse useCrc block.length then
    crc16 (block.take (block.length - 2)) ==
      ((blockByte block (block.length - 2)).setWidth 16 |||
        ((blockByte block (block.length - 1)).setWidth 16 <<< 8))
  else true

/-! ## Pseudo-instructions (R102, R236-R239) -/

def crcInitSeq : List HostStmt := [.writeReg .crcCtrl (.num 1)]

/-- `CTLR_SET m`, using t6. -/
def ctlrSetSeq (m : HostExpr) : List HostStmt :=
  [.readReg .fctlr .t6, .writeReg .fctlr (.bin .or (.reg .t6) m)]

/-- `CTLR_CLR m`, using t6. -/
def ctlrClrSeq (m : HostExpr) : List HostStmt :=
  [.readReg .fctlr .t6, .writeReg .fctlr (.bin .and (.reg .t6) (.not m))]

/-- `POLL_BSY`, using t7 and the fresh label l. -/
def pollBsySeq (l : Nat) : List HostStmt :=
  [.label l, .readReg .fstatr .t7, .ifGoto (.bin .and (.reg .t7) (.num 1)) l]

/-- `UNLOCK` (R236). -/
def unlockSeq : List HostStmt :=
  [.writeReg .fkeyr (.const .key1), .writeReg .fkeyr (.const .key2),
   .writeReg .fmodekeyr (.const .mkey1), .writeReg .fmodekeyr (.const .mkey2)]

/-- `RELOCK` (R237). -/
def relockSeq : List HostStmt := ctlrSetSeq (.const .flock) ++ ctlrSetSeq (.const .lock)

/-- `ERASE_PAGE p` (R238), using the fresh label l. -/
def erasePageSeq (l : Nat) (p : HostExpr) : List HostStmt :=
  ctlrSetSeq (.const .pageEr) ++ [.writeReg .faddr p] ++ ctlrSetSeq (.const .strt) ++ pollBsySeq l ++
  ctlrClrSeq (.const .pageEr)

/-- The loads of `PROGRAM_PAGE` (R239), unrolled: the words ws into the slots at a, a+4, …, with fresh labels l, l+1, … -/
def loadWordsSeq (l : Nat) (p : HostExpr) : Nat → List HostExpr → List HostStmt
  | _, [] => []
  | s, w :: ws =>
    [.writeAt .b32 (.bin .add p (.num (BitVec.ofNat 32 (4 * s)))) w] ++ ctlrSetSeq (.const .bufLoad) ++
    pollBsySeq (l + s) ++ loadWordsSeq l p (s + 1) ws

/-- `PROGRAM_PAGE p, ws` (R239), using the fresh labels l to l + ws.length. -/
def programPageSeq (l : Nat) (p : HostExpr) (ws : List HostExpr) : List HostStmt :=
  ctlrSetSeq (.const .pagePg) ++ ctlrSetSeq (.const .bufRst) ++ loadWordsSeq l p 0 ws ++ [.writeReg .faddr p] ++
  ctlrSetSeq (.const .strt) ++ pollBsySeq (l + ws.length) ++ ctlrClrSeq (.const .pagePg)

/-! ## The reference save and load (R240, R241) -/

/-- Byte j of the block to be stored, as a host expression: the CRC bytes come from t0 (R233, R234). -/
def storedByteExpr (useCrc : Bool) (block : List Byte) (j : Nat) : HostExpr :=
  if crcInUse useCrc block.length && j == block.length - 2 then .bin .and (.reg .t0) (.num 0xFF)
  else if crcInUse useCrc block.length && j == block.length - 1 then
    .bin .and (.bin .shr (.reg .t0) (.num 8)) (.num 0xFF)
  else .num ((blockByte block j).setWidth 32)

/-- `word(k, s)` of the block to be stored, as a host expression (R234). -/
def storedWordExpr (c : Config) (useCrc : Bool) (block : List Byte) (k s : Nat) : HostExpr :=
  (List.range 4).foldr
    (fun i e => .bin .or (storedByteExpr useCrc block (k * c.pageSize + 4 * s + i)) (.bin .shl e (.num 8))) (.num 0)

/-- The address of page k of a region, as a host expression. -/
def pageExpr (c : Config) (r : Region) (k : Nat) : HostExpr := .num (BitVec.ofNat 32 (r.base + k * c.pageSize))

/-- R240, step 1: compare the bytes with the region, going to label `changed` at the first mismatch. -/
def compareSeq (base changed : Nat) : Nat → List Byte → List HostStmt
  | _, [] => []
  | i, b :: bs =>
    [.readAt .b8 (.num (BitVec.ofNat 32 (base + i))) .t1,
     .ifGoto (.bin .ne (.reg .t1) (.num (b.setWidth 32))) changed] ++ compareSeq base changed (i + 1) bs

/-- R240: the reference save of a block, as a host program; none where the region is refused (R231). Label 0 is the end,
label 1 the changed path; the labels from 2 on are the polls'. -/
def saveProgram (c : Config) (useCrc force : Bool) (block : List Byte) : Option (List HostStmt) :=
  (region c block.length).map fun r =>
    let payload := block.take (payloadLength useCrc block.length)
    let pages := List.range r.numPages
    let perPage := c.wordsPerPage + 1
    (if force then [] else compareSeq r.base 1 0 payload ++ [.goto 0]) ++ [.label 1] ++
    (if crcInUse useCrc block.length then
      crcInitSeq ++ payload.map (fun b => .writeReg .crcFeed (.num (b.setWidth 32))) ++ [.readReg .crcRead16 .t0]
     else []) ++
    unlockSeq ++
    pages.flatMap (fun k => erasePageSeq (2 + k) (pageExpr c r k)) ++
    pages.flatMap (fun k =>
      programPageSeq (2 + r.numPages + k * perPage) (pageExpr c r k)
        ((List.range c.wordsPerPage).map (storedWordExpr c useCrc block k))) ++
    relockSeq ++ [.label 0, .halt]

/-- R241: the reference load of a block of L bytes, as a host program; none where the region is refused. Each byte passes
through t2 on its way to the host's buffer, t4 collects the CRC field, and t0 ends as the validity. -/
def loadProgram (c : Config) (useCrc : Bool) (length : Nat) : Option (List HostStmt) :=
  (region c length).map fun r =>
    let readByte (i : Nat) : List HostStmt := [.readAt .b8 (.num (BitVec.ofNat 32 (r.base + i))) .t2]
    if crcInUse useCrc length then
      crcInitSeq ++
      (List.range (length - 2)).flatMap (fun i => readByte i ++ [.writeReg .crcFeed (.reg .t2)]) ++
      [.readReg .crcRead16 .t3] ++
      readByte (length - 2) ++ [.assign .t4 (.reg .t2)] ++
      readByte (length - 1) ++ [.assign .t4 (.bin .or (.reg .t4) (.bin .shl (.reg .t2) (.num 8)))] ++
      [.assign .t0 (.bin .eq (.reg .t3) (.reg .t4)), .halt]
    else (List.range length).flatMap readByte ++ [.assign .t0 (.num 1), .halt]

/-- s with the host program loaded and the host at its first statement; the registers are the start state's (R109). -/
def State.withProgram (s : State) (prog : List HostStmt) : State :=
  { s with host := { s.host with prog := prog, pc := 0, halted := false, error := false } }

end Sys2Proof.Machine
end

