-- ==== Sys2Proof/Safety.lean ====
section
/-! DEFINITION. What counts as a good run, in the terms the statements use: the machine's invariant, runs, a good end
and the assumption BUSY_CLEARS. -/

namespace Sys2Proof.Machine

/-- The invariant of the machine: what every step keeps. Each clause is named after what it says. -/
structure Inv (s : State) : Prop where
  /-- R7 -/
  config_wf : s.cfg.Wf
  /-- R34: `pending = None` exactly when `BSY = 0` -/
  busy_iff_pending : s.bsy = true ↔ s.pending ≠ .none
  /-- R147: (LOCK, FLOCK) is never (1, 0) -/
  lock_implies_flock : s.lock = true → s.flock = true
  /-- R161: an operation starts only in `Unlocked`, and no lock action is taken while busy -/
  busy_implies_unlocked : s.bsy = true → s.Unlocked
  /-- R164, R161: a pending erase is of a page address, in page-erase mode -/
  erase_pending : ∀ p, s.pending = .erase p →
    IsPage s.cfg p.toNat ∧ s.pageEr = true ∧ s.pagePg = false
  /-- R165, R161: a pending commit is of a page address and holds a full page, in page-program mode -/
  program_pending : ∀ p w, s.pending = .program p w →
    IsPage s.cfg p.toNat ∧ w.length = s.cfg.wordsPerPage ∧ s.bufState = .invalid ∧ s.pagePg = true ∧
      s.pageEr = false
  /-- R167, R161: a pending load is in page-program mode with the buffer ready -/
  load_pending : s.pending = .load → s.bufState = .ready ∧ s.pagePg = true ∧ s.pageEr = false
  /-- R141: a barred controller is locked and its sequencers are idle -/
  barred_implies_locked : s.barred = true → s.Locked ∧ s.keySeq = .idle ∧ s.modeKeySeq = .idle
  /-- R142: the mode sequencer advances only while `LOCK = 0` -/
  mode_key_implies_main_unlocked : s.modeKeySeq = .key1Seen → s.lock = false
  /-- R35 -/
  buf_length : s.buf.length = s.cfg.wordsPerPage
  /-- R35 -/
  loaded_length : s.loaded.length = s.cfg.wordsPerPage
  /-- R166, R167: with no page fixed, no slot is loaded -/
  no_page_no_slot : s.bufPage = none → s.loaded = List.replicate s.cfg.wordsPerPage false
  /-- R165, R166: while the buffer is ready, a slot not loaded holds 0xFFFFFFFF -/
  unloaded_slot : s.bufState = .ready → ∀ k, k < s.cfg.wordsPerPage → s.loaded.getD k false = false →
    s.buf.getD k 0 = 0xFFFFFFFF
  /-- R167: the page of the loaded words is a page address -/
  buf_page : ∀ p, s.bufPage = some p → IsPage s.cfg p.toNat
  /-- R205, R162: a word is latched only for an aligned flash address, in page-program mode, the buffer ready -/
  latched : ∀ a d, s.latch = some (a, d) →
    s.cfg.InFlash a.toNat ∧ a.toNat % 4 = 0 ∧ s.pagePg = true ∧ s.bufState = .ready
  /-- R37: the flash array is in its canonical form -/
  flash_wf : s.flash.Wf
  /-- R37: it holds no byte outside the flash window -/
  flash_within : s.flash.Within s.cfg.flashBase s.cfg.flashEnd

/-! ## Runs -/

/-- s with further events arriving from outside the machine (log 2). -/
def State.arrive (s : State) (es : List BusEvent) : State := { s with bus := s.bus ++ es }

/-- A run on the arrivals e: before each step the events `e n` arrive, and the next state is what the step answers. Events
may arrive for ever, so an infinite run need not stand still. -/
def RunOn (e : Nat → List BusEvent) (r : Nat → State) : Prop := ∀ n, step ((r n).arrive (e n)) = .next (r (n + 1))

/-- A run, whatever arrives. -/
def Run (r : Nat → State) : Prop := ∃ e, RunOn e r

/-- R181 `BUSY_CLEARS`: in the run r, whenever `BSY = 1` it is 0 at some later time. Nothing in the model assumes it. -/
def BusyClears (r : Nat → State) : Prop := ∀ n, (r n).bsy = true → ∃ m, n ≤ m ∧ (r m).bsy = false

/-- R101: the host's program ends with step n of the run r: that step performs `halt`. `r (n + 1)` is the program's end
state. -/
def EndsAt (r : Nat → State) (n : Nat) : Prop := (r n).host.halted = false ∧ (r (n + 1)).host.halted = true

/-- R101, R264, D49: the host's program has a good end in the run r: no fault is recorded and `BSY = 0` in its end state,
whatever comes later, so it has re-locked the controller (44_driver_sequences.md R242 (c)); nor has a host error (R109, log 13) occurred. -/
def GoodEnd (r : Nat → State) : Prop :=
  ∃ n, EndsAt r n ∧ (r (n + 1)).faults = [] ∧ (r (n + 1)).bsy = false ∧ (r (n + 1)).host.error = false

end Sys2Proof.Machine
end

