-- ==== Sys2Proof/Certificates/Slice0/Obligations.lean ====
section
/-! DEFINITION. The statements for the provers, from the numbered rules of spec/. Where a rule gives a record "with no
other effect" the conclusion is the whole next state, so that it states the frame as well. -/

open Sys2Proof Sys2Proof.Machine

/-! ## Words the statements share -/

/-- s with the fault (code, t) recorded and nothing returned to the host (60_exceptions.md R260). -/
abbrev Sys2Proof.Spec.faulted (s : State) (code : FaultCode) (t : Txn) (info : Option Word := none) : State :=
  { s with faults := s.faults ++ [⟨code, t, info⟩], rdata := none }

/-- s after `keyError(t)` (41_flash_lock.md R141). -/
abbrev Sys2Proof.Spec.keyErrored (s : State) (t : Txn) : State :=
  { s with
    faults := s.faults ++ [⟨.keySequence, t, none⟩], rdata := none,
    barred := true, lock := true, flock := true, keySeq := .idle, modeKeySeq := .idle }

/-- d is a `CTLR` data word with no reserved bit set and the given fields (10_state.md R25). -/
abbrev Sys2Proof.Spec.CtlrData (d : Word) (strt lock flock pagePg pageEr bufLoad bufRst : Bool) : Prop :=
  d &&& 0xFFF07F3F = 0 ∧ d.getLsbD 6 = strt ∧ d.getLsbD 7 = lock ∧ d.getLsbD 15 = flock ∧
  d.getLsbD 16 = pagePg ∧ d.getLsbD 17 = pageEr ∧ d.getLsbD 18 = bufLoad ∧ d.getLsbD 19 = bufRst

/-- `zext_32` of a bit (00_scope.md R9). -/
abbrev Sys2Proof.Spec.zext (b : Bool) : Word := (BitVec.ofBool b).setWidth 32

/-- The byte a lies in the page of a pending erase or program (20_memory.md R73). -/
abbrev Sys2Proof.Spec.InBusyPage (s : State) (a : Nat) : Prop :=
  s.bsy = true ∧ ∃ p, (s.pending = .erase p ∨ ∃ w, s.pending = .program p w) ∧ a - a % s.cfg.pageSize = p.toNat

open Sys2Proof.Spec

/-! ## Encoding -/

/-- 30_encoding.md R90, R94: no operand bit is dropped: decoding the word of a well-formed transaction gives it back,
under every configuration R7 admits. -/
def Obligations.EncodedTransactionsDecodeBack : Prop :=
  ∀ c : Config, c.Wf → ∀ i : Instr, i.Wf c → decode c (encode c i) = .op i

/-- 30_encoding.md R90, R92: the other direction: a word that decodes is the word of what it decodes as, the data bits
the SSB ignores apart. -/
def Obligations.DecodedWordsEncodeBack : Prop :=
  ∀ c : Config, c.Wf → ∀ (t : Txn) (i : Instr), decode c t = .op i →
    i.Wf c ∧ encode c i = Txn.make t.isWrite t.size t.addr t.usedData

/-- 20_memory.md R66: inside the windows, exactly the accesses of the width table, naturally aligned, are transactions of
the opcode table. That a register is reached at an aligned address only is R24 and R66 read into R94 (log 10). -/
def Obligations.AdmittedAccessesAreTheTableOfWidths : Prop :=
  ∀ c : Config, c.Wf → ∀ t : Txn, t.res = 0 → c.InWindow t.addr.toNat →
    ((∃ i, decode c t = .op i) ↔
      (c.InFlash t.addr.toNat ∧ t.isWrite = false ∧ t.size = 0b00) ∨
      (c.InFlash t.addr.toNat ∧ t.isWrite = false ∧ t.size = 0b01 ∧ t.addr.toNat % 2 = 0) ∨
      (c.InFlash t.addr.toNat ∧ t.size = 0b10 ∧ t.addr.toNat % 4 = 0) ∨
      ((t.addr.toNat = c.fctlBase + 0x04 ∨ t.addr.toNat = c.fctlBase + 0x24) ∧ t.isWrite = true ∧ t.size = 0b10 ∧
        t.addr.toNat % 4 = 0) ∨
      (t.addr.toNat = c.fctlBase + 0x0C ∧ t.isWrite = false ∧ t.size = 0b10 ∧ t.addr.toNat % 4 = 0) ∨
      ((t.addr.toNat = c.fctlBase + 0x10 ∨ t.addr.toNat = c.fctlBase + 0x14) ∧ t.size = 0b10 ∧
        t.addr.toNat % 4 = 0) ∨
      (t.addr.toNat = c.crcBase + 0x00 ∧ t.isWrite = true ∧ t.size = 0b00) ∨
      (t.addr.toNat = c.crcBase + 0x04 ∧ t.isWrite = false ∧ t.size = 0b01 ∧ t.addr.toNat % 2 = 0) ∨
      (t.addr.toNat = c.crcBase + 0x04 ∧ t.isWrite = false ∧ t.size = 0b10 ∧ t.addr.toNat % 4 = 0) ∨
      (t.addr.toNat = c.crcBase + 0x08 ∧ t.isWrite = true ∧ t.size = 0b10 ∧ t.addr.toNat % 4 = 0))

/-- spec/opcode_table.json: under the default parameters the decoder names exactly the row whose match the table
gives. -/
def Obligations.OpcodeTableNamesTheDecodedRow : Prop :=
  ∀ t : Txn,
    (∀ i, decode Config.default t = .op i → tableMnemonic t = some i.mnemonic) ∧
    ((∀ i, decode Config.default t ≠ .op i) → tableMnemonic t = none)

/-- 30_encoding.md R94: for the default parameters the rows are pairwise disjoint, so their order does not matter. -/
def Obligations.OpcodeTableRowsAreDisjoint : Prop :=
  ∀ r ∈ opcodeTable, ∀ r' ∈ opcodeTable, ∀ t : Txn, t &&& r.mask = r.value → t &&& r'.mask = r'.value → r = r'

/-- 30_encoding.md R103: the example words decode, under the default parameters, as what the table says. -/
def Obligations.ExampleWordsDecodeAsTheSpecSays : Prop :=
  decode Config.default 0xC04002200445670123 = .op (.fkeyrWr 0x45670123) ∧
  decode Config.default 0xC040022024CDEF89AB = .op (.fmodekeyrWr 0xCDEF89AB) ∧
  decode Config.default 0x404002200C00000000 = .op .fstatrRd ∧
  decode Config.default 0xC04002201000020040 = .op (.fctlrWr 0x00020040) ∧
  decode Config.default 0xC04002201408003FC0 = .op (.faddrWr 0x08003FC0) ∧
  decode Config.default 0xC008003FC004030201 = .op (.flashWr32 0x08003FC0 0x04030201) ∧
  decode Config.default 0x0008003FC100000000 = .op (.flashRd8 0x08003FC1) ∧
  decode Config.default 0x804002300000000031 = .op (.crcFeed 0x31) ∧
  decode Config.default 0x204002300400000000 = .op .crcRead16 ∧
  decode Config.default 0xC04002300800000001 = .op (.crcCtrlWr 0x00000001)

/-- 30_encoding.md R91, 20_memory.md R63: a word with `RES != 0`, and one whose address lies in none of the windows, is
refused, by name. -/
def Obligations.WordsThatSpellNoTransactionAreRefused : Prop :=
  ∀ (s : State) (t : Txn) (rest : List BusEvent), s.cfg.Wf → s.bus = .txn t :: rest →
    (t.res ≠ 0 → step s = .refused .reservedField) ∧
    (t.res = 0 → ¬ s.cfg.InWindow t.addr.toNat → step s = .refused .outsideWindows)

/-- 30_encoding.md R95, 60_exceptions.md R262: an access to a window that no row matches, `SZ` = 11 among them, records
`AccessViolation` and has no other effect; a read returns 0. -/
def Obligations.UnmatchedWindowAccessesAreViolations : Prop :=
  ∀ (s : State) (t : Txn), t.res = 0 → s.cfg.InWindow t.addr.toNat →
    ((∀ row ∈ decodeRows s.cfg t, row.1 = false) →
      transact t s = .next
        { s with
          faults := s.faults ++ [⟨.accessViolation, t, none⟩],
          rdata := if t.isWrite then none else some 0 }) ∧
    (t.size = 0b11 → ∀ row ∈ decodeRows s.cfg t, row.1 = false)

/-! ## Steps -/

/-- A transaction word on the bus that decodes runs as exec of what it decodes as, off the bus (log 2). -/
def Obligations.StepRunsTheDecodedTransaction : Prop :=
  ∀ (s : State) (t : Txn) (rest : List BusEvent) (i : Instr),
    s.cfg.Wf → s.bus = .txn t :: rest → decode s.cfg t = .op i → step s = exec i { s with bus := rest }

/-- The other events (00_scope.md R12, 60_exceptions.md R276) and, the model's choice of log 2, the empty bus; a
configuration that breaks a constraint of R7 is refused, as R7 says. -/
def Obligations.StepTakesTheOtherEvents : Prop :=
  ∀ (s : State) (rest : List BusEvent),
    (s.cfg.Wf → s.bus = .complete :: rest → step s = .next (complete { s with bus := rest })) ∧
    (s.cfg.Wf → s.bus = .reset :: rest → step s = .next (resetBlock { s with bus := rest })) ∧
    (s.cfg.Wf → s.bus = .host :: rest → step s = hostTurn { s with bus := rest }) ∧
    (s.cfg.Wf → s.bus = [] → step s = .next s) ∧
    (¬ s.cfg.Wf → step s = .refused .badConfig)

/-- No step changes the parameters (log 1). -/
def Obligations.NoStepChangesTheConfiguration : Prop :=
  ∀ s t : State, step s = .next t → t.cfg = s.cfg

/-! ## The CRC datapath (40_crc.md) -/

/-- R125: the shift-register loop of R124 equals the closed form, for every register value and byte. -/
def Obligations.CrcLoopEqualsClosedForm : Prop :=
  ∀ (c : Half) (b : Byte),
    let x₀ : Byte := c.extractLsb' 8 8 ^^^ b
    let x : Byte := x₀ ^^^ (x₀ >>> 4)
    crcStep c b = (c <<< 8) ^^^ (x.setWidth 16 <<< 12) ^^^ (x.setWidth 16 <<< 5) ^^^ x.setWidth 16

/-- R121 `CRC_FEED`: its word, its effect, its corner cases and its example; a read issued next sees the update. -/
def Obligations.CrcFeedFeedsOneByte : Prop :=
  (∀ c : Config, c.Wf → OnBus (c.crcBase + 0x00) 1 → ∀ d : Word,
    decode c (Txn.make true 0b00 (BitVec.ofNat 32 (c.crcBase + 0x00)) d) = .op (.crcFeed (d.setWidth 8))) ∧
  (∀ (b : Byte) (s : State), exec (.crcFeed b) s = .next { s with crc := crcStep s.crc b, rdata := none }) ∧
  (∀ c : Config, c.Wf → OnBus (c.crcBase + 0x00) 1 → ∀ (sz : BitVec 2) (d : Word), sz = 0b01 ∨ sz = 0b10 →
    decode c (Txn.make true sz (BitVec.ofNat 32 (c.crcBase + 0x00)) d) = .accessViolation) ∧
  (∀ (b : Byte) (s : State), ∃ t, exec (.crcFeed b) s = .next t ∧
    exec .crcRead16 t = .next { t with rdata := some ((crcStep s.crc b).setWidth 32) }) ∧
  crcStep 0xFFFF 0x00 = 0xE1F0 ∧ crcStep 0xFFFF 0xFF = 0xFF00 ∧ crcStep 0x0000 0x00 = 0x0000 ∧
  crcStep 0xFFFF 0x31 = 0xC782

/-- R122 `CRC_READ16`, R123 `CRC_READ32`: their words and what they return; a read changes nothing. -/
def Obligations.CrcReadsReturnTheRegister : Prop :=
  (∀ c : Config, c.Wf → ∀ d : Word,
    (OnBus (c.crcBase + 0x04) 2 →
      decode c (Txn.make false 0b01 (BitVec.ofNat 32 (c.crcBase + 0x04)) d) = .op .crcRead16) ∧
    (OnBus (c.crcBase + 0x04) 4 →
      decode c (Txn.make false 0b10 (BitVec.ofNat 32 (c.crcBase + 0x04)) d) = .op .crcRead32)) ∧
  (∀ s : State,
    exec .crcRead16 s = .next { s with rdata := some (s.crc.setWidth 32) } ∧
    exec .crcRead32 s = .next { s with rdata := some (s.crc.setWidth 32) }) ∧
  (∀ s : State, s.crc = crc16 [0x31, 0x32, 0x33, 0x34, 0x35, 0x36, 0x37, 0x38, 0x39] →
    exec .crcRead16 s = .next { s with rdata := some 0x000029B1 }) ∧
  exec .crcRead32 State.reset = .next { State.reset with rdata := some 0x0000FFFF }

/-- R120 `CRC_CTRL_WR`: its word; a reserved bit is a fault and nothing else; `INIT` sets the register to 0xFFFF; a
write of 0 does nothing. The lock state and `BSY` have no effect. -/
def Obligations.CrcControlWriteInitialises : Prop :=
  (∀ c : Config, c.Wf → OnBus (c.crcBase + 0x08) 4 → ∀ d : Word,
    decode c (Txn.make true 0b10 (BitVec.ofNat 32 (c.crcBase + 0x08)) d) = .op (.crcCtrlWr d)) ∧
  (∀ (d : Word) (s : State), d &&& 0xFFFFFFFE ≠ 0 →
    exec (.crcCtrlWr d) s =
      .next (faulted s .reservedBit (Txn.make true 0b10 (BitVec.ofNat 32 (s.cfg.crcBase + 0x08)) d))) ∧
  (∀ s : State, exec (.crcCtrlWr 1) s = .next { s with crc := 0xFFFF, rdata := none }) ∧
  (∀ s : State, exec (.crcCtrlWr 0) s = .next { s with rdata := none })

/-- R128: a feed has no latency; no controller state affects the CRC unit and it affects none. -/
def Obligations.CrcUnitAndControllerAreIndependent : Prop :=
  (∀ (b b' : Byte) (s : State), ∃ t, exec (.crcFeed b) s = .next t ∧ t.crc = crcStep s.crc b ∧
    exec (.crcFeed b') t = .next { t with crc := crcStep (crcStep s.crc b) b' } ∧
    exec .crcRead32 t = .next { t with rdata := some ((crcStep s.crc b).setWidth 32) }) ∧
  (∀ (i : Instr) (s t : State), exec i s = .next t →
    ((∃ b, i = .crcFeed b) ∨ i = .crcRead16 ∨ i = .crcRead32 ∨ (∃ d, i = .crcCtrlWr d) →
      t = { s with crc := t.crc, rdata := t.rdata, faults := t.faults } ∧
      ∀ s' t' : State, exec i s' = .next t' → s'.crc = s.crc → t'.crc = t.crc ∧ t'.rdata = t.rdata) ∧
    (¬ ((∃ b, i = .crcFeed b) ∨ i = .crcRead16 ∨ i = .crcRead32 ∨ (∃ d, i = .crcCtrlWr d)) → t.crc = s.crc)) ∧
  (∀ s : State, (complete s).crc = s.crc)

/-- R127: appending a message's CRC high byte first gives 0, for every message; low byte first, as the driver stores it,
it gives 0x93F3 in the spec's example. -/
def Obligations.CrcHighByteFirstLeavesNoResidue : Prop :=
  (∀ m : List Byte, crc16 (m ++ [(crc16 m).extractLsb' 8 8, (crc16 m).extractLsb' 0 8]) = 0) ∧
  crc16 [0x31, 0x32, 0x33, 0x34, 0x35, 0x36, 0x37, 0x38, 0x39] = 0x29B1 ∧
  crc16 [0x31, 0x32, 0x33, 0x34, 0x35, 0x36, 0x37, 0x38, 0x39, 0xB1, 0x29] = 0x93F3

/-- R129: a change confined to one byte of a message changes its CRC. -/
def Obligations.CrcDetectsAChangeOfOneByte : Prop :=
  ∀ (before after : List Byte) (b b' : Byte), b ≠ b' →
    crc16 (before ++ b :: after) ≠ crc16 (before ++ b' :: after)

/-! ## Keys and locks (41_flash_lock.md) -/

/-- R140 `FKEYR_WR`: its word, every branch of its rule, and its example. -/
def Obligations.MainKeyWritesAdvanceTheSequence : Prop :=
  (∀ c : Config, c.Wf → OnBus (c.fctlBase + 0x04) 4 → ∀ d : Word,
    decode c (Txn.make true 0b10 (BitVec.ofNat 32 (c.fctlBase + 0x04)) d) = .op (.fkeyrWr d)) ∧
  (∀ (d : Word) (s : State),
    let t := Txn.make true 0b10 (BitVec.ofNat 32 (s.cfg.fctlBase + 0x04)) d
    (s.bsy = true → exec (.fkeyrWr d) s = .next (faulted s .busy t)) ∧
    (s.bsy = false → s.barred = true → exec (.fkeyrWr d) s = .next (faulted s .keySequence t)) ∧
    (s.bsy = false → s.barred = false → s.keySeq = .idle →
      (d = s.cfg.key1 → exec (.fkeyrWr d) s = .next { s with keySeq := .key1Seen, rdata := none }) ∧
      (d ≠ s.cfg.key1 → exec (.fkeyrWr d) s = .next (keyErrored s t))) ∧
    (s.bsy = false → s.barred = false → s.keySeq = .key1Seen →
      (d = s.cfg.key2 → exec (.fkeyrWr d) s = .next { s with lock := false, keySeq := .idle, rdata := none }) ∧
      (d ≠ s.cfg.key2 → exec (.fkeyrWr d) s = .next (keyErrored s t)))) ∧
  (∃ t, exec (.fkeyrWr Config.default.key1) State.reset = .next t ∧
    exec (.fkeyrWr Config.default.key2) t = .next { State.reset with lock := false })

/-- R142 `FMODEKEYR_WR`: its word, every branch of its rule, and its example. -/
def Obligations.ModeKeyWritesAdvanceTheSequence : Prop :=
  (∀ c : Config, c.Wf → OnBus (c.fctlBase + 0x24) 4 → ∀ d : Word,
    decode c (Txn.make true 0b10 (BitVec.ofNat 32 (c.fctlBase + 0x24)) d) = .op (.fmodekeyrWr d)) ∧
  (∀ (d : Word) (s : State),
    let t := Txn.make true 0b10 (BitVec.ofNat 32 (s.cfg.fctlBase + 0x24)) d
    (s.bsy = true → exec (.fmodekeyrWr d) s = .next (faulted s .busy t)) ∧
    (s.bsy = false → s.barred = true ∨ s.lock = true →
      exec (.fmodekeyrWr d) s = .next (faulted s .keySequence t)) ∧
    (s.bsy = false → s.barred = false → s.lock = false → s.modeKeySeq = .idle →
      (d = s.cfg.mkey1 → exec (.fmodekeyrWr d) s = .next { s with modeKeySeq := .key1Seen, rdata := none }) ∧
      (d ≠ s.cfg.mkey1 → exec (.fmodekeyrWr d) s = .next (keyErrored s t))) ∧
    (s.bsy = false → s.barred = false → s.lock = false → s.modeKeySeq = .key1Seen →
      (d = s.cfg.mkey2 →
        exec (.fmodekeyrWr d) s = .next { s with flock := false, modeKeySeq := .idle, rdata := none }) ∧
      (d ≠ s.cfg.mkey2 → exec (.fmodekeyrWr d) s = .next (keyErrored s t)))) ∧
  (∃ t, exec (.fmodekeyrWr Config.default.mkey1) { State.reset with lock := false } = .next t ∧
    exec (.fmodekeyrWr Config.default.mkey2) t = .next { State.reset with lock := false, flock := false })

/-- R141: `keyError` records the fault, locks and bars the controller and resets the sequencers, nothing else; a barred,
locked controller stays so over every step but reset, and reset clears `barred`. -/
def Obligations.KeyErrorBarsUntilReset : Prop :=
  (∀ (t : Txn) (s : State), keyError t s =
    { s with
      faults := s.faults ++ [⟨.keySequence, t, none⟩],
      barred := true, lock := true, flock := true, keySeq := .idle, modeKeySeq := .idle }) ∧
  (∀ (s t : State), (∀ rest, s.bus ≠ .reset :: rest) → step s = .next t →
    s.barred = true → s.lock = true → s.flock = true → t.barred = true ∧ t.lock = true ∧ t.flock = true) ∧
  (∀ (s : State) (rest : List BusEvent), s.cfg.Wf → s.bus = .reset :: rest →
    ∃ t, step s = .next t ∧ t.barred = false)

/-- R143: from `Locked`, idle and not barred, the four key writes in order reach `Unlocked` and record no fault. That
both sequencers start idle is a premise the rule leaves unsaid (log 19). -/
def Obligations.FourKeyWritesUnlock : Prop :=
  ∀ s : State, s.Locked → s.barred = false → s.bsy = false → s.keySeq = .idle → s.modeKeySeq = .idle →
    ∃ t₁ t₂ t₃,
      exec (.fkeyrWr s.cfg.key1) s = .next t₁ ∧ exec (.fkeyrWr s.cfg.key2) t₁ = .next t₂ ∧
      exec (.fmodekeyrWr s.cfg.mkey1) t₂ = .next t₃ ∧
      exec (.fmodekeyrWr s.cfg.mkey2) t₃ = .next { s with lock := false, flock := false, rdata := none }

/-- R144 `LOCKSET`: a write of bit 7 = 1 while `LOCK = 0`, no other action and no mode change, locks the controller and
changes nothing else; with bit 15 as well it is the same; it faults while busy and beside another action or a mode
change; while `LOCK = 1` the bit is no action; and the example. -/
def Obligations.LockBitLocksTheController : Prop :=
  (∀ (d : Word) (s : State) (fl : Bool), CtlrData d false true fl s.pagePg s.pageEr false false →
    s.lock = false → s.bsy = false →
    exec (.fctlrWr d) s = .next
      { s with lock := true, flock := true, keySeq := .idle, modeKeySeq := .idle, rdata := none }) ∧
  (∀ (d : Word) (s : State) (st fl pg er bl br : Bool), CtlrData d st true fl pg er bl br →
    s.lock = false →
    let t := Txn.make true 0b10 (BitVec.ofNat 32 (s.cfg.fctlBase + 0x10)) d
    (s.bsy = true → exec (.fctlrWr d) s = .next (faulted s .busy t)) ∧
    (s.bsy = false → st = true ∨ bl = true ∨ br = true ∨ pg ≠ s.pagePg ∨ er ≠ s.pageEr →
      exec (.fctlrWr d) s = .next (faulted s .multiAction t))) ∧
  (∀ (d : Word) (s : State) (fl : Bool), CtlrData d false true fl s.pagePg s.pageEr false false →
    s.lock = true → fl = false ∨ s.flock = true → exec (.fctlrWr d) s = .next { s with rdata := none }) ∧
  (∀ s : State, s.Unlocked → s.bsy = false →
    exec (.fctlrWr (ctlrView s ||| 0x00000080)) s = .next
      { s with lock := true, flock := true, keySeq := .idle, modeKeySeq := .idle, rdata := none })

/-- R145 `FLOCKSET`: a write of bit 15 = 1 while `FLOCK = 0` that is no `LOCKSET`, no other action and no mode change,
sets `FLOCK` and resets the mode sequencer, nothing else; its faults; the example; and the mode pair alone then returns
to `Unlocked`. -/
def Obligations.FastLockBitLocksFastModeOnly : Prop :=
  (∀ (d : Word) (s : State) (lk : Bool), CtlrData d false lk true s.pagePg s.pageEr false false →
    lk = false ∨ s.lock = true → s.flock = false → s.bsy = false →
    exec (.fctlrWr d) s = .next { s with flock := true, modeKeySeq := .idle, rdata := none }) ∧
  (∀ (d : Word) (s : State) (st lk pg er bl br : Bool), CtlrData d st lk true pg er bl br →
    lk = false ∨ s.lock = true → s.flock = false →
    let t := Txn.make true 0b10 (BitVec.ofNat 32 (s.cfg.fctlBase + 0x10)) d
    (s.bsy = true → exec (.fctlrWr d) s = .next (faulted s .busy t)) ∧
    (s.bsy = false → st = true ∨ bl = true ∨ br = true ∨ pg ≠ s.pagePg ∨ er ≠ s.pageEr →
      exec (.fctlrWr d) s = .next (faulted s .multiAction t))) ∧
  (∀ s : State, s.Unlocked → s.bsy = false →
    exec (.fctlrWr (ctlrView s ||| 0x00008000)) s = .next
      { s with flock := true, modeKeySeq := .idle, rdata := none }) ∧
  (∀ s : State, s.MainUnlocked → s.pagePg = false → s.pageEr = false →
    exec .fctlrRd s = .next { s with rdata := some 0x00008000 }) ∧
  (∀ s : State, s.MainUnlocked → s.bsy = false → s.barred = false → s.modeKeySeq = .idle →
    ∃ t, exec (.fmodekeyrWr s.cfg.mkey1) s = .next t ∧
      exec (.fmodekeyrWr s.cfg.mkey2) t = .next { s with flock := false, rdata := none })

/-- R146: a 0 written to `CTLR` bit 7 leaves `LOCK`, and with bit 15 also 0 `FLOCK`, as it was; a write that asks for
nothing else raises no fault; a lock bit is cleared only by the second key of its pair. -/
def Obligations.WritingZeroNeverUnlocks : Prop :=
  (∀ (d : Word) (s t : State), exec (.fctlrWr d) s = .next t → d.getLsbD 7 = false →
    t.lock = s.lock ∧ (d.getLsbD 15 = false → t.flock = s.flock)) ∧
  (∀ (d : Word) (s : State), CtlrData d false false false s.pagePg s.pageEr false false →
    exec (.fctlrWr d) s = .next { s with rdata := none }) ∧
  (∀ (i : Instr) (s t : State), exec i s = .next t →
    (s.lock = true → t.lock = false → i = .fkeyrWr s.cfg.key2 ∧ s.keySeq = .key1Seen) ∧
    (s.flock = true → t.flock = false → i = .fmodekeyrWr s.cfg.mkey2 ∧ s.modeKeySeq = .key1Seen))

/-- 41_flash_lock.md R147, 60_exceptions.md R270: outside `Unlocked` no transaction starts an operation, changes a mode,
or touches the page buffer, the latch or the flash array. -/
def Obligations.OnlyUnlockedAcceptsFlashOperations : Prop :=
  ∀ (w : Txn) (s t : State), transact w s = .next t → ¬ s.Unlocked →
    t.bsy = s.bsy ∧ t.pending = s.pending ∧ t.pagePg = s.pagePg ∧ t.pageEr = s.pageEr ∧ t.buf = s.buf ∧
    t.loaded = s.loaded ∧ t.bufState = s.bufState ∧ t.bufPage = s.bufPage ∧ t.latch = s.latch ∧ t.flash = s.flash

/-! ## The sequencer (42_flash_erase_program.md) -/

/-- R160 `FCTLR_RD`: its word, what it returns, and the examples. -/
def Obligations.ControlReadShowsModesAndLocks : Prop :=
  (∀ c : Config, c.Wf → OnBus (c.fctlBase + 0x10) 4 → ∀ d : Word,
    decode c (Txn.make false 0b10 (BitVec.ofNat 32 (c.fctlBase + 0x10)) d) = .op .fctlrRd) ∧
  (∀ s : State, exec .fctlrRd s = .next
    { s with
      rdata := some ((zext s.pageEr <<< 17) ||| (zext s.pagePg <<< 16) ||| (zext s.flock <<< 15) |||
        (zext s.lock <<< 7)) }) ∧
  exec .fctlrRd State.reset = .next { State.reset with rdata := some 0x00008080 } ∧
  (∀ s : State, s.Unlocked → s.pageEr = true → s.pagePg = false →
    exec .fctlrRd s = .next { s with rdata := some 0x00020000 })

/-- R161, 60_exceptions.md R275: the checks of a `CTLR` write that come before the action's own, in order, each
recording its fault and nothing else. -/
def Obligations.ControlWriteChecksInOrder : Prop :=
  ∀ (d : Word) (s : State),
    let t := Txn.make true 0b10 (BitVec.ofNat 32 (s.cfg.fctlBase + 0x10)) d
    let lockAction := (d.getLsbD 7 && !s.lock) || (d.getLsbD 15 && !s.flock)
    let modeChange := d.getLsbD 16 != s.pagePg || d.getLsbD 17 != s.pageEr
    let n := (d.getLsbD 6).toNat + (d.getLsbD 18).toNat + (d.getLsbD 19).toNat + lockAction.toNat
    (d &&& 0xFFF07F3F ≠ 0 → exec (.fctlrWr d) s = .next (faulted s .reservedBit t)) ∧
    (d &&& 0xFFF07F3F = 0 → modeChange = false → n = 0 → exec (.fctlrWr d) s = .next { s with rdata := none }) ∧
    (d &&& 0xFFF07F3F = 0 → modeChange = true ∨ 0 < n → s.bsy = true →
      exec (.fctlrWr d) s = .next (faulted s .busy t)) ∧
    (d &&& 0xFFF07F3F = 0 → s.bsy = false → 1 < n ∨ (lockAction = true ∧ modeChange = true) →
      exec (.fctlrWr d) s = .next (faulted s .multiAction t)) ∧
    (d &&& 0xFFF07F3F = 0 → s.bsy = false → n ≤ 1 → lockAction = false → modeChange = true ∨ 0 < n →
      s.lock = true ∨ s.flock = true → exec (.fctlrWr d) s = .next (faulted s .locked t))

/-- R162: in `Unlocked` and idle, a `CTLR` write of mode bits alone sets them; leaving page-program mode invalidates the
buffer and drops the latch; nothing else changes. Locked or busy, no `CTLR` write changes a mode bit, and a write that
locks keeps them. -/
def Obligations.ControlWriteSetsModes : Prop :=
  (∀ (d : Word) (s : State) (pg er : Bool), CtlrData d false false false pg er false false →
    s.Unlocked → s.bsy = false →
    exec (.fctlrWr d) s = .next
      { s with
        pagePg := pg, pageEr := er, rdata := none,
        bufState := if s.pagePg && !pg then .invalid else s.bufState,
        latch := if s.pagePg && !pg then none else s.latch }) ∧
  (∀ (d : Word) (s t : State), exec (.fctlrWr d) s = .next t →
    (s.bsy = true ∨ ¬ s.Unlocked) ∨ t.lock ≠ s.lock ∨ t.flock ≠ s.flock →
    t.pagePg = s.pagePg ∧ t.pageEr = s.pageEr)

/-- R163: `STRT` starts the erase in page-erase mode, the commit in page-program mode, and is a `ModeError` with neither
or both, the modes being those of the same write. -/
def Obligations.StartFollowsTheModesOfTheWrite : Prop :=
  ∀ (d : Word) (s : State) (pg er : Bool), CtlrData d true false false pg er false false →
    s.Unlocked → s.bsy = false →
    (pg = er → exec (.fctlrWr d) s =
      .next (faulted s .modeError (Txn.make true 0b10 (BitVec.ofNat 32 (s.cfg.fctlBase + 0x10)) d))) ∧
    (∀ t, exec (.fctlrWr d) s = .next t → t.faults = s.faults → t.bsy = true ∧
      (er = true → pg = false → t.pending = .erase s.addr) ∧
      (er = false → pg = true → t.pending = .program s.addr s.buf))

/-- R164: `STRT` in page-erase mode: the whole next state, or `AddressRange`, its record holding `ADDR` (60_exceptions.md
R261, log 7: DEDUCED). The mode change of the same write, if it leaves page-program mode, has the effect of R162. -/
def Obligations.EraseStartsOnAPageAddress : Prop :=
  ∀ (d : Word) (s : State), CtlrData d true false false false true false false →
    s.Unlocked → s.bsy = false →
    ((s.cfg.InFlash s.addr.toNat ∧ s.addr.toNat % s.cfg.pageSize = 0) →
      exec (.fctlrWr d) s = .next
        { s with
          pagePg := false, pageEr := true, rdata := none, bsy := true, pending := .erase s.addr,
          bufState := if s.pagePg then .invalid else s.bufState,
          latch := if s.pagePg then none else s.latch }) ∧
    (¬ (s.cfg.InFlash s.addr.toNat ∧ s.addr.toNat % s.cfg.pageSize = 0) →
      exec (.fctlrWr d) s = .next
        (faulted s .addressRange (Txn.make true 0b10 (BitVec.ofNat 32 (s.cfg.fctlBase + 0x10)) d) (some s.addr)))

/-- R165: `STRT` in page-program mode: its three faults in order, else the whole next state with the snapshot of the
buffer; from a state of the invariant, the word of the pending program for a slot not loaded since `BUFRST` is
0xFFFFFFFF. That the records hold `ADDR` and `bufPage` is 60_exceptions.md R261 and log 7 (DEDUCED). -/
def Obligations.CommitTakesASnapshotOfTheBuffer : Prop :=
  (∀ (d : Word) (s : State), CtlrData d true false false true false false false →
    s.Unlocked → s.bsy = false →
    let t := Txn.make true 0b10 (BitVec.ofNat 32 (s.cfg.fctlBase + 0x10)) d
    let page := s.cfg.InFlash s.addr.toNat ∧ s.addr.toNat % s.cfg.pageSize = 0
    let bufferOk := s.bufState = .ready ∧ s.latch = none
    let samePage := s.bufPage = none ∨ s.bufPage = some s.addr
    (¬ page → exec (.fctlrWr d) s = .next (faulted s .addressRange t (some s.addr))) ∧
    (page → ¬ bufferOk → exec (.fctlrWr d) s = .next (faulted s .bufferState t)) ∧
    (page → bufferOk → ¬ samePage → exec (.fctlrWr d) s = .next (faulted s .pageMismatch t s.bufPage)) ∧
    (page → bufferOk → samePage →
      exec (.fctlrWr d) s = .next
        { s with
          pagePg := true, pageEr := false, rdata := none, bsy := true,
          pending := .program s.addr s.buf, bufState := .invalid })) ∧
  (∀ (d : Word) (s t : State) (p : Word) (w : List Word), Inv s → CtlrData d true false false true false false false →
    s.Unlocked → s.bsy = false → exec (.fctlrWr d) s = .next t → t.pending = .program p w →
    ∀ k, k < s.cfg.wordsPerPage → s.loaded.getD k false = false → w.getD k 0 = 0xFFFFFFFF)

/-- R166 `BUFRST`: in page-program mode every slot becomes 0xFFFFFFFF and unloaded, the page and the latch are dropped,
the buffer is ready, and `BSY` is not set; else `ModeError`. -/
def Obligations.BufferResetReadiesTheBuffer : Prop :=
  ∀ (d : Word) (s : State) (pg er : Bool), CtlrData d false false false pg er false true →
    s.Unlocked → s.bsy = false →
    (pg = true → er = false →
      exec (.fctlrWr d) s = .next
        { s with
          pagePg := true, pageEr := false, rdata := none,
          buf := List.replicate (s.cfg.pageSize / 4) 0xFFFFFFFF,
          loaded := List.replicate (s.cfg.pageSize / 4) false,
          bufPage := none, latch := none, bufState := .ready }) ∧
    (¬ (pg = true ∧ er = false) →
      exec (.fctlrWr d) s =
        .next (faulted s .modeError (Txn.make true 0b10 (BitVec.ofNat 32 (s.cfg.fctlBase + 0x10)) d)))

/-- R167 `BUFLOAD`: its faults in order, else the latched word in its slot, the page fixed, `BSY` set and a load
pending; no flash byte changes. That the record of `PageMismatch` holds `bufPage` is 60_exceptions.md R261 and log 7
(DEDUCED). -/
def Obligations.BufferLoadMovesTheLatchedWord : Prop :=
  ∀ (d : Word) (s : State) (pg er : Bool), CtlrData d false false false pg er true false →
    s.Unlocked → s.bsy = false →
    let t := Txn.make true 0b10 (BitVec.ofNat 32 (s.cfg.fctlBase + 0x10)) d
    (¬ (pg = true ∧ er = false) → exec (.fctlrWr d) s = .next (faulted s .modeError t)) ∧
    (pg = true → er = false → s.bufState ≠ .ready ∨ s.latch = none →
      exec (.fctlrWr d) s = .next (faulted s .bufferState t)) ∧
    (∀ a v, pg = true → er = false → s.bufState = .ready → s.latch = some (a, v) →
      let page : Word := BitVec.ofNat 32 (a.toNat - a.toNat % s.cfg.pageSize)
      let slot := a.toNat % s.cfg.pageSize / 4
      (s.bufPage ≠ none → s.bufPage ≠ some page →
        exec (.fctlrWr d) s = .next (faulted s .pageMismatch t s.bufPage)) ∧
      (s.bufPage = none ∨ s.bufPage = some page → s.loaded.getD slot false = true →
        exec (.fctlrWr d) s = .next (faulted s .bufferState t)) ∧
      (s.bufPage = none ∨ s.bufPage = some page → s.loaded.getD slot false = false →
        exec (.fctlrWr d) s = .next
          { s with
            pagePg := true, pageEr := false, rdata := none,
            buf := s.buf.set slot v, loaded := s.loaded.set slot true, bufPage := some page, latch := none,
            bsy := true, pending := .load }))

/-- R170 `FADDR_WR`, R171 `FADDR_RD`: their words and effects; any value is stored, in every lock state; a write while
busy is a fault; a read after a write returns what was written. -/
def Obligations.AddressRegisterHoldsWhatIsWritten : Prop :=
  (∀ c : Config, c.Wf → OnBus (c.fctlBase + 0x14) 4 → ∀ d : Word,
    decode c (Txn.make true 0b10 (BitVec.ofNat 32 (c.fctlBase + 0x14)) d) = .op (.faddrWr d) ∧
    decode c (Txn.make false 0b10 (BitVec.ofNat 32 (c.fctlBase + 0x14)) d) = .op .faddrRd) ∧
  (∀ (d : Word) (s : State),
    (s.bsy = true → exec (.faddrWr d) s =
      .next (faulted s .busy (Txn.make true 0b10 (BitVec.ofNat 32 (s.cfg.fctlBase + 0x14)) d))) ∧
    (s.bsy = false → exec (.faddrWr d) s = .next { s with addr := d, rdata := none } ∧
      exec .faddrRd { s with addr := d, rdata := none } = .next { s with addr := d, rdata := some d })) ∧
  (∀ s : State, exec .faddrRd s = .next { s with rdata := some s.addr }) ∧
  exec .faddrRd State.reset = .next { State.reset with rdata := some 0 }

/-- R172 `FSTATR_RD`: its word; it returns 1 while an operation is pending and 0 when idle, and changes nothing. -/
def Obligations.StatusReadShowsBusy : Prop :=
  (∀ c : Config, c.Wf → OnBus (c.fctlBase + 0x0C) 4 → ∀ d : Word,
    decode c (Txn.make false 0b10 (BitVec.ofNat 32 (c.fctlBase + 0x0C)) d) = .op .fstatrRd) ∧
  (∀ s : State, exec .fstatrRd s = .next { s with rdata := some (if s.bsy then 1 else 0) }) ∧
  (∀ s t : State, exec .fstatrRd s = .next t → t.rdata = some 0 → s.bsy = false) ∧
  (∀ s : State, exec .fstatrRd (complete s) = .next { complete s with rdata := some 0 })

/-- 70_reset_and_hazards.md R300 (a), 20_memory.md R71: while `BSY = 1` a transaction changes nothing of the controller
or the flash array; `BSY` goes to 0 only at the completion step or at reset. -/
def Obligations.BusyInterlockHoldsUntilCompletion : Prop :=
  (∀ (w : Txn) (s t : State), transact w s = .next t → s.bsy = true →
    t = { s with crc := t.crc, faults := t.faults, rdata := t.rdata, draws := t.draws }) ∧
  (∀ s t : State, step s = .next t → s.bsy = true → t.bsy = false →
    ∃ rest, s.bus = .complete :: rest ∨ s.bus = .reset :: rest)

/-! ## The flash array (43_flash_array.md) -/

/-- R200 `FLASH_RD8`: its word; away from a pending erase or program of its page it returns the byte, under one some
byte, a free value; nothing else changes, in every lock state and mode, but the count of free values `draws`, which is
the model's choice (log 4). -/
def Obligations.FlashByteReads : Prop :=
  (∀ c : Config, c.Wf → ∀ a d : Word, c.InFlash a.toNat →
    decode c (Txn.make false 0b00 a d) = .op (.flashRd8 a)) ∧
  (∀ (a : Word) (s : State),
    (¬ InBusyPage s a.toNat →
      exec (.flashRd8 a) s = .next { s with rdata := some ((s.flash.read a.toNat).setWidth 32) }) ∧
    (InBusyPage s a.toNat → ∃ b : Byte,
      exec (.flashRd8 a) s = .next { s with rdata := some (b.setWidth 32), draws := s.draws + 1 }))

/-- R201 `FLASH_RD16`, R202 `FLASH_RD32`: their words; away from a pending erase or program they return the bytes
assembled little-endian, under one free bytes, which advance the count `draws`, the model's choice (log 4); a
misaligned address is an access violation. -/
def Obligations.FlashHalfwordAndWordReads : Prop :=
  (∀ c : Config, c.Wf → ∀ a d : Word, c.InFlash a.toNat →
    decode c (Txn.make false 0b01 a d) = (if a.toNat % 2 = 0 then .op (.flashRd16 a) else .accessViolation) ∧
    decode c (Txn.make false 0b10 a d) = (if a.toNat % 4 = 0 then .op (.flashRd32 a) else .accessViolation)) ∧
  (∀ (a : Word) (s : State), s.cfg.Wf → a.toNat % 2 = 0 →
    (¬ InBusyPage s a.toNat →
      exec (.flashRd16 a) s = .next
        { s with rdata := some ((s.flash.read (a.toNat + 1) ++ s.flash.read a.toNat).setWidth 32) }) ∧
    (InBusyPage s a.toNat → ∃ b₀ b₁ : Byte,
      exec (.flashRd16 a) s = .next { s with rdata := some ((b₁ ++ b₀).setWidth 32), draws := s.draws + 2 })) ∧
  (∀ (a : Word) (s : State), s.cfg.Wf → a.toNat % 4 = 0 →
    (¬ InBusyPage s a.toNat →
      exec (.flashRd32 a) s = .next
        { s with
          rdata := some (s.flash.read (a.toNat + 3) ++ s.flash.read (a.toNat + 2) ++
            s.flash.read (a.toNat + 1) ++ s.flash.read a.toNat) }) ∧
    (InBusyPage s a.toNat → ∃ v : Word,
      exec (.flashRd32 a) s = .next { s with rdata := some v, draws := s.draws + 4 }))

/-- R205 `FLASH_WR32`: its word; its four faults in order; else the word is latched and nothing else changes. -/
def Obligations.FlashDataWritesAreLatched : Prop :=
  (∀ c : Config, c.Wf → ∀ a d : Word, c.InFlash a.toNat →
    decode c (Txn.make true 0b10 a d) = (if a.toNat % 4 = 0 then .op (.flashWr32 a d) else .accessViolation) ∧
    decode c (Txn.make true 0b00 a d) = .accessViolation ∧ decode c (Txn.make true 0b01 a d) = .accessViolation) ∧
  (∀ (a d : Word) (s : State),
    let t := Txn.make true 0b10 a d
    (s.bsy = true → exec (.flashWr32 a d) s = .next (faulted s .busy t)) ∧
    (s.bsy = false → ¬ s.Unlocked → exec (.flashWr32 a d) s = .next (faulted s .locked t)) ∧
    (s.bsy = false → s.Unlocked → ¬ (s.pagePg = true ∧ s.pageEr = false) →
      exec (.flashWr32 a d) s = .next (faulted s .modeError t)) ∧
    (s.bsy = false → s.Unlocked → s.pagePg = true → s.pageEr = false → s.bufState ≠ .ready ∨ s.latch ≠ none →
      exec (.flashWr32 a d) s = .next (faulted s .bufferState t)) ∧
    (s.bsy = false → s.Unlocked → s.pagePg = true → s.pageEr = false → s.bufState = .ready → s.latch = none →
      exec (.flashWr32 a d) s = .next { s with latch := some (a, d), rdata := none }))

/-- 42_flash_erase_program.md R180: the completion step, enabled exactly when `BSY = 1`, clears `BSY` and `pending`,
finishes the pending operation on its page byte by byte, and changes no other SSB state. That the agent's turn changes
nothing while `BSY = 0` is the model's choice (log 2). A page programmed over data
under `PROGRAM_OVER_DATA = Any` holds free values, of which nothing is said. -/
def Obligations.CompletionFinishesThePendingOperation : Prop :=
  (∀ s : State, s.bsy = false → complete s = s) ∧
  (∀ s : State, s.bsy = true → complete s =
    { s with
      bsy := false, pending := .none, flash := (complete s).flash, draws := (complete s).draws,
      flashOps := (complete s).flashOps }) ∧
  (∀ s : State, s.bsy = true → s.flash.Wf → s.pending = .load → (complete s).flash = s.flash) ∧
  (∀ (s : State) (p : Word), s.bsy = true → s.flash.Wf → s.pending = .erase p → ∀ a,
    (complete s).flash.read a =
      if p.toNat ≤ a ∧ a < p.toNat + s.cfg.pageSize then 0xFF else s.flash.read a) ∧
  (∀ (s : State) (p : Word) (w : List Word), s.cfg.Wf → s.bsy = true → s.flash.Wf → s.pending = .program p w →
    w.length = s.cfg.pageSize / 4 →
    let erased := ∀ j, j < s.cfg.pageSize → s.flash.read (p.toNat + j) = 0xFF
    (∀ a, ¬ (p.toNat ≤ a ∧ a < p.toNat + s.cfg.pageSize) → (complete s).flash.read a = s.flash.read a) ∧
    (erased → ∀ k i, k < s.cfg.pageSize / 4 → i < 4 →
      (complete s).flash.read (p.toNat + 4 * k + i) = (w.getD k 0).extractLsb' (8 * i) 8) ∧
    (¬ erased → s.cfg.programOverData = .and → ∀ k i, k < s.cfg.pageSize / 4 → i < 4 →
      (complete s).flash.read (p.toNat + 4 * k + i) =
        s.flash.read (p.toNat + 4 * k + i) &&& (w.getD k 0).extractLsb' (8 * i) 8))

/-- R210: after an erase of page p completes, every byte of p reads 0xFF, every aligned halfword 0xFFFF and every aligned
word 0xFFFFFFFF. -/
def Obligations.ErasedPageReadsAllOnes : Prop :=
  ∀ (s : State) (p : Word), s.cfg.Wf → s.flash.Wf → s.bsy = true → s.pending = .erase p →
    p.toNat % s.cfg.pageSize = 0 → ∀ a : Word, p.toNat ≤ a.toNat → a.toNat < p.toNat + s.cfg.pageSize →
    exec (.flashRd8 a) (complete s) = .next { complete s with rdata := some 0x000000FF } ∧
    (a.toNat % 2 = 0 → exec (.flashRd16 a) (complete s) = .next { complete s with rdata := some 0x0000FFFF }) ∧
    (a.toNat % 4 = 0 → exec (.flashRd32 a) (complete s) = .next { complete s with rdata := some 0xFFFFFFFF })

/-- 42_flash_erase_program.md R183: after a commit of the buffer w onto an erased page p completes, the page holds the
words of w: a word read of slot k returns w[k]. -/
def Obligations.CommittedPageHoldsTheBuffer : Prop :=
  ∀ (s : State) (p : Word) (w : List Word), s.cfg.Wf → s.flash.Wf → s.bsy = true → s.pending = .program p w →
    w.length = s.cfg.wordsPerPage → (∀ j, j < s.cfg.pageSize → s.flash.read (p.toNat + j) = 0xFF) →
    ∀ k, k < s.cfg.wordsPerPage →
      memRead (complete s).flash (p.toNat + 4 * k) 4 = w.getD k 0 ∧
      (∀ a : Word, a.toNat = p.toNat + 4 * k →
        exec (.flashRd32 a) (complete s) = .next { complete s with rdata := some (w.getD k 0) })

/-- R211: no transaction changes a flash byte; a step changes the array only as the completion of an erase or commit, or
as the reset that interrupts one. -/
def Obligations.FlashChangesOnlyAtCompletionOrReset : Prop :=
  (∀ (i : Instr) (s t : State), exec i s = .next t → t.flash = s.flash) ∧
  (∀ s t : State, step s = .next t → t.flash ≠ s.flash →
    (∃ rest, s.bus = .complete :: rest ∨ s.bus = .reset :: rest) ∧
    ∃ p, s.pending = .erase p ∨ ∃ w, s.pending = .program p w)

/-- Every write to the flash array keeps its canonical form, and a read after a write gives the byte written there and
the old byte everywhere else (the model's representation of R37). -/
def Obligations.FlashArrayWritesKeepCanonicalForm : Prop :=
  ∀ (m : Memory) (a : Nat) (bs : List Byte), m.Wf →
    (m.writeBytes a bs).Wf ∧
    ∀ b, (m.writeBytes a bs).read b =
      if a ≤ b ∧ b < a + bs.length then bs.getD (b - a) 0 else m.read b

/-! ## Faults (60_exceptions.md) -/

/-- 10_state.md R39: `faults` is empty at power-on; no step removes an entry, and reset does not clear it. One step adds
at most one entry (R275). -/
def Obligations.FaultsOnlyGrow : Prop :=
  (∀ (c : Config) (f : Memory), (State.powerOn c f).faults = []) ∧
  (∀ s t : State, step s = .next t → ∃ new, t.faults = s.faults ++ new ∧ new.length ≤ 1) ∧
  (∀ (s t : State) (rest : List BusEvent), s.bus = .reset :: rest → step s = .next t → t.faults = s.faults)

/-- R260: a transaction in a window never stops the machine; where it records a violation it appends the one record
with its own word, a read returns 0, and nothing else changes but by `keyError` (R141); and the host cannot observe the
list: with any other list a transaction does and returns the same. -/
def Obligations.FaultingTransactionHasNoOtherEffect : Prop :=
  (∀ (w : Txn) (s : State), w.res = 0 → s.cfg.InWindow w.addr.toNat → ∃ t, transact w s = .next t) ∧
  (∀ (w : Txn) (s t : State), s.cfg.Wf → transact w s = .next t → t.faults ≠ s.faults →
    ∃ code info, t.faults = s.faults ++ [⟨code, w, info⟩] ∧ t.rdata = (if w.isWrite then none else some 0) ∧
      (t = { s with faults := t.faults, rdata := t.rdata } ∨
       (code = .keySequence ∧
        t = { s with
          faults := t.faults, rdata := t.rdata,
          barred := true, lock := true, flock := true, keySeq := .idle, modeKeySeq := .idle }))) ∧
  (∀ (w : Txn) (s t : State) (other : List FaultRecord), transact w s = .next t →
    ∃ new, transact w { s with faults := other } = .next { t with faults := new })

/-- R263: a 1 written to a reserved bit of `CTLR` or `CRC_CTRL` records `ReservedBit`; the whole write has no effect. -/
def Obligations.ReservedBitsVoidTheWrite : Prop :=
  ∀ (d : Word) (s : State),
    (d &&& 0xFFF07F3F ≠ 0 → exec (.fctlrWr d) s =
      .next (faulted s .reservedBit (Txn.make true 0b10 (BitVec.ofNat 32 (s.cfg.fctlBase + 0x10)) d))) ∧
    (d &&& 0xFFFFFFFE ≠ 0 → exec (.crcCtrlWr d) s =
      .next (faulted s .reservedBit (Txn.make true 0b10 (BitVec.ofNat 32 (s.cfg.crcBase + 0x08)) d)))

/-- 20_memory.md R69: no read has a side effect on SSB state, and the same read again returns the same value but for
free values. -/
def Obligations.ReadsHaveNoSideEffect : Prop :=
  ∀ (i : Instr) (s t : State),
    i = .crcRead16 ∨ i = .crcRead32 ∨ i = .fstatrRd ∨ i = .fctlrRd ∨ i = .faddrRd ∨
      (∃ a, i = .flashRd8 a ∨ i = .flashRd16 a ∨ i = .flashRd32 a) →
    exec i s = .next t →
    t = { s with rdata := t.rdata, draws := t.draws } ∧ (t.draws = s.draws → exec i t = .next t)

/-! ## Reset (70_reset_and_hazards.md) -/

/-- 10_state.md R40: the reset values of every register, at power-on and at a reset; the page buffer is unspecified, so
only its length is stated; a reset keeps `faults`, and the flash array unless it interrupts an erase or a program. That a
reset keeps the parameters, the host, `rdata` and `flashOps` is the model's choice (log 11). The array of State.reset
holds any bytes: free values, of which nothing is said (70_reset_and_hazards.md R294, log 5). -/
def Obligations.ResetValuesAreTheTable : Prop :=
  (∀ (c : Config) (f : Memory),
    State.powerOn c f =
      { State.powerOn c f with
        cfg := c, crc := 0xFFFF, lock := true, flock := true, pageEr := false, pagePg := false, bsy := false,
        addr := 0, keySeq := .idle, modeKeySeq := .idle, barred := false, pending := .none,
        loaded := List.replicate (c.pageSize / 4) false, bufState := .invalid, bufPage := none, latch := none,
        flash := f, faults := [] } ∧
    (State.powerOn c f).buf.length = c.pageSize / 4) ∧
  State.reset = State.powerOn Config.default State.reset.flash ∧
  (∀ a, Config.default.InFlash a → State.reset.flash.read a = Config.freeFlash a) ∧
  (∀ (s : State) (rest : List BusEvent), s.cfg.Wf → s.bus = .reset :: rest →
    ∃ t, step s = .next t ∧
      t = { s with
        crc := 0xFFFF, lock := true, flock := true, pageEr := false, pagePg := false, bsy := false,
        addr := 0, keySeq := .idle, modeKeySeq := .idle, barred := false, pending := .none,
        buf := t.buf, loaded := List.replicate (s.cfg.pageSize / 4) false, bufState := .invalid,
        bufPage := none, latch := none, flash := t.flash, draws := t.draws, bus := rest } ∧
      t.buf.length = s.cfg.pageSize / 4 ∧
      ((∀ p, s.pending ≠ .erase p) → (∀ p w, s.pending ≠ .program p w) → t.flash = s.flash))

/-- R292: a reset during an erase or a program changes no byte outside its page; with `TORN_ON_RESET = false` the array
is as before or as the completion step would have left it (for some free values), which of the two is free; with
`TORN_ON_RESET = true` nothing is said of the page. During a load no flash byte changes. -/
def Obligations.InterruptedPageIsOldOrNew : Prop :=
  (∀ (s : State) (p : Word), s.cfg.Wf → s.flash.Wf →
    (s.pending = .erase p ∨ ∃ w, s.pending = .program p w ∧ w.length = s.cfg.wordsPerPage) →
    (∀ a, ¬ (p.toNat ≤ a ∧ a < p.toNat + s.cfg.pageSize) → (resetBlock s).flash.read a = s.flash.read a) ∧
    (s.cfg.tornOnReset = false →
      (resetBlock s).flash = s.flash ∨
      ∃ d, (resetBlock s).flash = (complete { s with bsy := true, draws := d }).flash)) ∧
  (∀ s : State, s.pending = .load → (resetBlock s).flash = s.flash)

/-! ## The invariant -/

/-- The invariant (Safety.lean) holds at first power-on with any parameters R7 admits and any flash contents, and so in
State.reset. -/
def Obligations.InvariantHoldsAtPowerOn : Prop :=
  (∀ (c : Config) (f : Memory), c.Wf → f.Wf → f.Within c.flashBase c.flashEnd → Inv (State.powerOn c f)) ∧
  Inv State.reset

/-- Every step keeps the invariant: from every state that meets it, reached or not, whatever the event (R34, R141, R147,
R161-R167, R205). -/
def Obligations.EveryStepKeepsTheInvariant : Prop :=
  ∀ s t : State, Inv s → step s = .next t → Inv t

/-! ## The host and its driver (30_encoding.md, 44_driver_sequences.md) -/

/-- R100, R101: the host's statements: where each takes the host's position and registers, the transaction it issues and
what it reads back, everything else being as that transaction leaves it. That one host event performs one statement, that
a halted host's turn changes nothing, and that a missing label or statement is refused, is the model's choice (log 13),
and so is what a `halt` records, and when, of the fault of 44_driver_sequences.md R242 (c) (log 22);
`exprValue` and `evaluated` are what HostExpressionsEvaluate says. -/
def Obligations.HostStatementsTakeEffect : Prop :=
  (∀ (s : State) (rest : List BusEvent), s.cfg.Wf → s.bus = .host :: rest →
    let s₀ : State := { s with bus := rest }
    let after (e : HostExpr) : State := evaluated e s₀
    let moved (t : State) (n : Nat) : State := { t with host := { t.host with pc := n } }
    let reads (t : State) (r : HostReg) (v : Word) : State :=
      { t with host := { t.host with pc := t.host.pc + 1, regs := t.host.regs.set r v } }
    let target (l n : Nat) : Prop :=
      s.host.prog[n]? = some (HostStmt.label l) ∧ ∀ m, m < n → s.host.prog[m]? ≠ some (HostStmt.label l)
    (s.host.halted = true → step s = .next s₀) ∧
    (s.host.halted = false → s.host.prog[s.host.pc]? = none → step s = .refused .hostNoStatement) ∧
    (∀ st : HostStmt, s.host.halted = false → s.host.prog[s.host.pc]? = some st →
      (∀ l, st = .label l → step s = .next (moved s₀ (s.host.pc + 1))) ∧
      (st = .halt → step s = .next
        { s₀ with
          faults := if s.Locked then s.faults else s.faults ++ [⟨.notRelocked, none, none⟩],
          host := { s.host with halted := true } }) ∧
      (∀ r e, st = .assign r e → step s = .next (reads (after e) r (exprValue e s₀))) ∧
      (∀ l n, st = .goto l → target l n → step s = .next (moved s₀ (n + 1))) ∧
      (∀ l, (st = .goto l ∨ ∃ e, st = .ifGoto e l ∧ exprValue e s₀ ≠ 0) →
        (∀ n : Nat, s.host.prog[n]? ≠ some (HostStmt.label l)) → step s = .refused (.hostNoLabel l)) ∧
      (∀ e l n, st = .ifGoto e l → exprValue e s₀ ≠ 0 → target l n → step s = .next (moved (after e) (n + 1))) ∧
      (∀ e l, st = .ifGoto e l → exprValue e s₀ = 0 → step s = .next (moved (after e) (s.host.pc + 1))) ∧
      (∀ k e t, st = .writeReg k e → transact (k.word s.cfg (exprValue e s₀)) (after e) = .next t →
        step s = .next (moved t (t.host.pc + 1))) ∧
      (∀ k r t v, st = .readReg k r → transact (k.word s.cfg) s₀ = .next t → t.rdata = some v →
        step s = .next (reads t r v)) ∧
      (∀ sz e r t v, st = .readAt sz e r →
        transact (Txn.make false sz.code (exprValue e s₀) 0) (after e) = .next t → t.rdata = some v →
        step s = .next (reads t r v)) ∧
      (∀ sz e e' t, st = .writeAt sz e e' →
        transact (Txn.make true sz.code (exprValue e s₀) (exprValue e' (after e))) (evaluated e' (after e)) = .next t →
        step s = .next (moved t (t.host.pc + 1))))) ∧
  (∀ (c : Config) (d : Word),
    WriteReg.fkeyr.word c d = encode c (.fkeyrWr d) ∧ WriteReg.fmodekeyr.word c d = encode c (.fmodekeyrWr d) ∧
    WriteReg.fctlr.word c d = encode c (.fctlrWr d) ∧ WriteReg.faddr.word c d = encode c (.faddrWr d) ∧
    WriteReg.crcCtrl.word c d = encode c (.crcCtrlWr d) ∧
    WriteReg.crcFeed.word c d = Txn.make true 0b00 (BitVec.ofNat 32 (c.crcBase + 0x00)) d ∧
    ReadReg.fstatr.word c = encode c .fstatrRd ∧ ReadReg.fctlr.word c = encode c .fctlrRd ∧
    ReadReg.faddr.word c = encode c .faddrRd ∧ ReadReg.crcRead16.word c = encode c .crcRead16 ∧
    ReadReg.crcRead32.word c = encode c .crcRead32) ∧
  AccessSize.code .b8 = 0b00 ∧ AccessSize.code .b16 = 0b01 ∧ AccessSize.code .b32 = 0b10

/-- 44_driver_sequences.md R230, R231, R232: the region of a block is the smallest run of whole pages that holds it, ends
at the top of the flash and starts inside it; a length for which there is none is refused; and the examples. That a
length with `length + PAGE_SIZE` = 2^32 exactly is no overflow of `align_up` is the model's choice (log 23). -/
def Obligations.RegionIsTheSmallestRunOfPages : Prop :=
  (∀ (c : Config) (length : Nat) (r : Region), c.Wf → region c length = some r →
    r.alignedSize % c.pageSize = 0 ∧ length ≤ r.alignedSize ∧ r.alignedSize < length + c.pageSize ∧
    r.numPages * c.pageSize = r.alignedSize ∧ r.base + r.alignedSize = c.flashEnd ∧ c.flashBase ≤ r.base) ∧
  (∀ (c : Config) (length : Nat), c.Wf →
    ((∃ r, region c length = some r) ↔
      length + c.pageSize - 1 < 2 ^ 32 ∧
      (length + c.pageSize - 1) / c.pageSize * c.pageSize ≤ c.flashEnd - c.flashBase)) ∧
  region Config.default 70 = some ⟨128, 2, 0x08003F80⟩ ∧
  region Config.default 0 = some ⟨0, 0, 0x08004000⟩ ∧
  region Config.default 64 = some ⟨64, 1, 0x08003FC0⟩ ∧
  region Config.default 65 = some ⟨128, 2, 0x08003F80⟩ ∧
  region Config.default 16384 = some ⟨16384, 256, 0x08000000⟩ ∧
  region Config.default 16385 = none

/-- 44_driver_sequences.md R233, R235: CRC use is off when asked for or when L < 2; with it on the stored block is the
payload followed by its CRC, low byte first, else the block itself; a block is valid when CRC is off, and when it is on
exactly when the CRC of its first L - 2 bytes is the field; so what the driver stores is valid when read back. -/
def Obligations.StoredBlocksReadBackValid : Prop :=
  (∀ block : List Byte, storedBlock false block = block) ∧
  (∀ block : List Byte, block.length < 2 → storedBlock true block = block) ∧
  (∀ block : List Byte, 2 ≤ block.length →
    let payload := block.take (block.length - 2)
    (storedBlock true block).length = block.length ∧
    (storedBlock true block).take (block.length - 2) = payload ∧
    (storedBlock true block)[block.length - 2]? = some ((crc16 payload).extractLsb' 0 8) ∧
    (storedBlock true block)[block.length - 1]? = some ((crc16 payload).extractLsb' 8 8)) ∧
  (∀ (useCrc : Bool) (block : List Byte),
    blockValid useCrc block = true ↔
      useCrc = false ∨ block.length < 2 ∨
      crc16 (block.take (block.length - 2)) =
        ((block.getD (block.length - 2) 0).setWidth 16 ||| ((block.getD (block.length - 1) 0).setWidth 16 <<< 8))) ∧
  (∀ (useCrc : Bool) (block : List Byte), blockValid useCrc (storedBlock useCrc block) = true)

/-- 44_driver_sequences.md R234: byte i of `word(k, s)` is byte `k*PAGE_SIZE + 4*s + i` of the block, 0xFF past its end;
a word wholly past the data is 0xFFFFFFFF. -/
def Obligations.BlockWordsHoldTheBlocksBytes : Prop :=
  ∀ (c : Config) (block : List Byte) (k s : Nat),
    (∀ i, i < 4 →
      (blockWord c block k s).extractLsb' (8 * i) 8 = block.getD (k * c.pageSize + 4 * s + i) 0xFF) ∧
    (block.length ≤ k * c.pageSize + 4 * s → blockWord c block k s = 0xFFFFFFFF)

/-! ## Runs and host expressions -/

/-- R101, D49, R264: in a run the host's program ends at most once; the step that performs `halt` changes nothing but the
host's mark and `faults` (and takes its event off the bus), so the end state is the SSB state at `halt`; a program that
halts with `faults` non-empty or with `BSY = 1` has no good end, whatever comes later. 44_driver_sequences.md R242 (c),
D48: one that halts with the controller not re-locked records a fault and has no good end; that the fault is recorded at
`halt`, with a code of its own and no transaction, is the model's choice (log 22). That a host error is no good end
either is the model's choice too (log 13). -/
def Obligations.AProgramEndsOnceAndNotWellWhileBusy : Prop :=
  ∀ r, Run r →
    (∀ m n, EndsAt r m → EndsAt r n → m = n) ∧
    (∀ n, EndsAt r n →
      r (n + 1) =
        { r n with
          bus := (r (n + 1)).bus, host := { (r n).host with halted := true },
          faults := if (r n).Locked then (r n).faults else (r n).faults ++ [⟨.notRelocked, none, none⟩] }) ∧
    (∀ n, EndsAt r n → ¬ (r n).Locked → ¬ GoodEnd r) ∧
    (∀ n, EndsAt r n → (r (n + 1)).faults ≠ [] ∨ (r (n + 1)).bsy = true ∨ (r (n + 1)).host.error = true →
      ¬ GoodEnd r)

/-- 60_exceptions.md R265: a stuck `BSY` is a hang and no fault. Where neither a completion step nor a reset comes, `BSY`
stays 1; and a host at a `POLL_BSY` then has an infinite run, not one of `BUSY_CLEARS`, in which the poll reads 1 for
ever and nothing of the SSB changes. A run is one on events that keep arriving (log 2). -/
def Obligations.StuckBusyPollsForEver : Prop :=
  (∀ e r, RunOn e r → (∀ x ∈ (r 0).bus, x ≠ .complete ∧ x ≠ .reset) →
    (∀ n, ∀ x ∈ e n, x ≠ .complete ∧ x ≠ .reset) → (r 0).bsy = true → ∀ n, (r n).bsy = true) ∧
  (∀ (s : State) (l : Nat) (before after : List HostStmt), s.cfg.Wf → OnBus (s.cfg.fctlBase + 0x0C) 4 →
    s.bsy = true → s.bus = [] →
    s.host.prog = before ++ pollBsySeq l ++ after → (∀ st ∈ before, st ≠ HostStmt.label l) →
    s.host.pc = before.length → s.host.halted = false →
    ∃ r, r 0 = s ∧ RunOn (fun _ => [.host]) r ∧ ¬ BusyClears r ∧
      ∀ n,
        r n = { s with host := (r n).host, rdata := (r n).rdata, draws := (r n).draws } ∧
        (r n).host.halted = false ∧
        (2 ≤ n → (r n).rdata = some 1 ∧ (r n).host.regs.get .t7 = some 1) ∧
        ∃ m, n ≤ m ∧ (r m).host.prog[(r m).host.pc]? = some (.readReg .fstatr .t7))

/-- R101, R96, R109: the value of a host expression: numbers, the named constants, the registers, and every operator on
32-bit unsigned values, a shift by 0 to 31. A register nothing has written reads as a free value, a longer shift gives
one, and nothing is said of either (logs 13, 21); that such a read is kept as a host error and that an evaluation
advances the count of free values is the model's choice (logs 4, 13). -/
def Obligations.HostExpressionsEvaluate : Prop :=
  (∀ (c : Config) (rs : HostRegs) (n : Nat),
    (∀ w, HostExpr.eval c rs n (.num w) = w) ∧
    (∀ k, HostExpr.eval c rs n (.const k) =
      match k with
      | .key1 => c.key1 | .key2 => c.key2 | .mkey1 => c.mkey1 | .mkey2 => c.mkey2
      | .strt => 0x00000040 | .lock => 0x00000080 | .flock => 0x00008000 | .pagePg => 0x00010000
      | .pageEr => 0x00020000 | .bufLoad => 0x00040000 | .bufRst => 0x00080000) ∧
    (∀ r v, rs.get r = some v → HostExpr.eval c rs n (.reg r) = v) ∧
    (∀ e, HostExpr.eval c rs n (.not e) = ~~~ HostExpr.eval c rs n e) ∧
    (∀ e e',
      let x := HostExpr.eval c rs n e
      let y := HostExpr.eval c rs n e'
      HostExpr.eval c rs n (.bin .or e e') = x ||| y ∧
      HostExpr.eval c rs n (.bin .and e e') = x &&& y ∧
      HostExpr.eval c rs n (.bin .xor e e') = x ^^^ y ∧
      HostExpr.eval c rs n (.bin .add e e') = BitVec.ofNat 32 (x.toNat + y.toNat) ∧
      HostExpr.eval c rs n (.bin .sub e e') = BitVec.ofInt 32 (x.toNat - y.toNat : Int) ∧
      (y.toNat < 32 →
        HostExpr.eval c rs n (.bin .shl e e') = BitVec.ofNat 32 (x.toNat * 2 ^ y.toNat) ∧
        HostExpr.eval c rs n (.bin .shr e e') = BitVec.ofNat 32 (x.toNat / 2 ^ y.toNat)) ∧
      HostExpr.eval c rs n (.bin .eq e e') = (if x = y then 1 else 0) ∧
      HostExpr.eval c rs n (.bin .ne e e') = (if x = y then 0 else 1) ∧
      HostExpr.eval c rs n (.bin .lt e e') = (if x.toNat < y.toNat then 1 else 0))) ∧
  (∀ (rs : HostRegs) (r r' : HostReg) (v : Word),
    (rs.set r v).get r' = (if r' = r then some v else rs.get r') ∧
    (HostExpr.readsUnwritten rs (.reg r) = true ↔ rs.get r = none)) ∧
  (∀ (rs : HostRegs) (e e' : HostExpr) (op : HostOp) (w : Word) (k : HostConst),
    HostExpr.readsUnwritten rs (.num w) = false ∧ HostExpr.readsUnwritten rs (.const k) = false ∧
    HostExpr.readsUnwritten rs (.not e) = HostExpr.readsUnwritten rs e ∧
    HostExpr.readsUnwritten rs (.bin op e e') =
      (HostExpr.readsUnwritten rs e || HostExpr.readsUnwritten rs e')) ∧
  (∀ (e : HostExpr) (s : State),
    exprValue e s = HostExpr.eval s.cfg s.host.regs s.draws e ∧
    evaluated e s =
      { s with
        draws := s.draws + 1,
        host := { s.host with error := s.host.error || HostExpr.readsUnwritten s.host.regs e } })
end

