-- ==== Sys2Proof/Laws/Config.lean ====
section
/-! SUPPORT. What R7's constraints give: page arithmetic, and where the windows lie. -/

namespace Sys2Proof

/-- The check decides the constraints. -/
theorem Config.wf_iff (c : Config) : c.wf = true ↔ c.Wf := by
  unfold Config.wf
  rw [decide_eq_true_eq]
  exact ⟨fun ⟨a, b, d, e, f, g, h, i, j⟩ => ⟨b, a, d, e, f, g, h, i, j⟩,
    fun ⟨a, b, d, e, f, g, h, i, j⟩ => ⟨b, a, d, e, f, g, h, i, j⟩⟩

@[simp] theorem Config.Wf.check {c : Config} (h : c.Wf) : c.wf = true := (Config.wf_iff c).2 h

theorem Config.default_wf : Config.default.Wf := (Config.wf_iff _).1 (by decide)

namespace Config

variable {c : Config}

theorem Wf.pageSize_pos (h : c.Wf) : 0 < c.pageSize := Nat.lt_of_lt_of_le (by decide) h.page_four

theorem Wf.four_dvd_pageSize (h : c.Wf) : 4 ∣ c.pageSize := by
  obtain ⟨k, -, hk⟩ := h.page_pow
  have h4 := h.page_four
  rw [hk] at h4 ⊢
  have : 2 ≤ k := by
    by_contra hlt
    have : k = 0 ∨ k = 1 := by omega
    rcases this with rfl | rfl <;> simp at h4
  exact pow_dvd_pow 2 this

theorem Wf.pageSize_eq (h : c.Wf) : c.pageSize = 4 * c.wordsPerPage := by
  have := h.four_dvd_pageSize
  unfold wordsPerPage
  omega

theorem Wf.pageSize_dvd_base (h : c.Wf) : c.pageSize ∣ c.flashBase := Nat.dvd_of_mod_eq_zero h.base_page

theorem Wf.pageSize_dvd_end (h : c.Wf) : c.pageSize ∣ c.flashEnd := Nat.dvd_of_mod_eq_zero h.end_page

/-- Where the windows lie, with the sizes written out. -/
theorem Wf.windows (h : c.Wf) :
    (c.flashEnd ≤ c.fctlBase ∨ c.fctlBase + 0x400 ≤ c.flashBase) ∧
    (c.flashEnd ≤ c.crcBase ∨ c.crcBase + 0x400 ≤ c.flashBase) ∧
    (c.fctlBase + 0x400 ≤ c.crcBase ∨ c.crcBase + 0x400 ≤ c.fctlBase) := by
  have h1 := h.flash_fctl
  have h2 := h.flash_crc
  have h3 := h.fctl_crc
  have h4 := h.base_lt
  simp only [Apart, windowSize, flashSize] at h1 h2 h3
  omega

end Config

namespace Machine

variable {c : Config}

theorem pageOf_le (c : Config) (a : Nat) : pageOf c a ≤ a := Nat.sub_le _ _

theorem lt_pageOf_add (h : c.Wf) (a : Nat) : a < pageOf c a + c.pageSize := by
  have := Nat.mod_lt a h.pageSize_pos
  unfold pageOf
  omega

theorem pageSize_dvd_pageOf (c : Config) (a : Nat) : c.pageSize ∣ pageOf c a := by
  unfold pageOf
  exact Nat.dvd_sub_mod a

/-- A byte lies in page p exactly when p is its page. -/
theorem pageOf_eq_iff (h : c.Wf) {p : Nat} (hp : c.pageSize ∣ p) (a : Nat) :
    pageOf c a = p ↔ p ≤ a ∧ a < p + c.pageSize := by
  constructor
  · rintro rfl
    exact ⟨pageOf_le c a, lt_pageOf_add h a⟩
  · rintro ⟨h1, h2⟩
    obtain ⟨k, rfl⟩ := hp
    have : a % c.pageSize = a - c.pageSize * k := by
      conv_lhs => rw [show a = (a - c.pageSize * k) + c.pageSize * k by omega]
      rw [Nat.add_mul_mod_self_left]
      exact Nat.mod_eq_of_lt (by omega)
    unfold pageOf
    omega

/-- The whole page of a page address lies in the flash window. -/
theorem IsPage.add_le (h : c.Wf) {p : Nat} (hp : IsPage c p) : p + c.pageSize ≤ c.flashEnd := by
  obtain ⟨⟨-, hlt⟩, hm⟩ := hp
  obtain ⟨a, ha⟩ := Nat.dvd_of_mod_eq_zero hm
  obtain ⟨b, hb⟩ := h.pageSize_dvd_end
  rw [ha, hb] at hlt
  have : a < b := lt_of_mul_lt_mul_left hlt (Nat.zero_le _)
  rw [ha, hb, ← Nat.mul_succ]
  exact Nat.mul_le_mul_left _ this

/-- The page of a flash address is a page address. -/
theorem isPage_pageOf (h : c.Wf) {a : Nat} (ha : c.InFlash a) : IsPage c (pageOf c a) := by
  refine ⟨⟨?_, lt_of_le_of_lt (pageOf_le c a) ha.2⟩, Nat.mod_eq_zero_of_dvd (pageSize_dvd_pageOf c a)⟩
  obtain ⟨k, hk⟩ := h.pageSize_dvd_base
  obtain ⟨j, hj⟩ := pageSize_dvd_pageOf c a
  have hl := lt_pageOf_add h a
  by_contra hc
  rw [hj, hk] at hc
  have : j < k := lt_of_mul_lt_mul_left (not_le.1 hc) (Nat.zero_le _)
  have h2 : c.pageSize * (j + 1) ≤ c.pageSize * k := Nat.mul_le_mul_left _ this
  rw [Nat.mul_succ, ← hj, ← hk] at h2
  have := ha.1
  omega

theorem toNat_pageWord (c : Config) (a : Word) : (pageWord c a).toNat = pageOf c a.toNat := by
  unfold pageWord
  rw [BitVec.toNat_ofNat]
  exact Nat.mod_eq_of_lt (lt_of_le_of_lt (pageOf_le _ _) a.isLt)

/-- A slot of a page is a slot of the buffer. -/
theorem slotOf_lt (h : c.Wf) (a : Nat) : slotOf c a < c.wordsPerPage := by
  have h1 := Nat.mod_lt a h.pageSize_pos
  have h2 := h.pageSize_eq
  unfold slotOf
  omega

end Machine
end Sys2Proof
end

