-- ==== Sys2Proof/Laws/Decode.lean ====
section
/-! SUPPORT. Transaction words: the fields of a made word, a word is made of its fields, and when a word
decodes. -/

namespace Sys2Proof

@[simp] theorem Txn.isWrite_make (w : Bool) (sz : BitVec 2) (a d : Word) : (Txn.make w sz a d).isWrite = w := by
  simp only [Txn.make, Txn.isWrite, BitVec.getLsbD_append]
  cases w <;> rfl

@[simp] theorem Txn.size_make (w : Bool) (sz : BitVec 2) (a d : Word) : (Txn.make w sz a d).size = sz := by
  ext i hi
  simp only [Txn.make, Txn.size, BitVec.getElem_extractLsb', BitVec.getLsbD_append]
  interval_cases i <;> simp

@[simp] theorem Txn.res_make (w : Bool) (sz : BitVec 2) (a d : Word) : (Txn.make w sz a d).res = 0 := by
  ext i hi
  simp only [Txn.make, Txn.res, BitVec.getElem_extractLsb', BitVec.getLsbD_append]
  interval_cases i <;> simp

@[simp] theorem Txn.addr_make (w : Bool) (sz : BitVec 2) (a d : Word) : (Txn.make w sz a d).addr = a := by
  ext i hi
  simp only [Txn.make, Txn.addr, BitVec.getElem_extractLsb', BitVec.getLsbD_append]
  simp [hi]

@[simp] theorem Txn.data_make (w : Bool) (sz : BitVec 2) (a d : Word) : (Txn.make w sz a d).data = d := by
  ext i hi
  simp only [Txn.make, Txn.data, BitVec.getElem_extractLsb', BitVec.getLsbD_append]
  simp [hi]

/-- A word whose RES field is 0 is made of its fields. -/
theorem Txn.make_fields {t : Txn} (h : t.res = 0) : Txn.make t.isWrite t.size t.addr t.data = t := by
  apply BitVec.eq_of_getLsbD_eq
  intro i hi
  simp only [Txn.make, Txn.isWrite, Txn.size, Txn.addr, Txn.data, BitVec.getLsbD_append,
    BitVec.getLsbD_extractLsb']
  by_cases h1 : i < 32
  · simp [h1]
  by_cases h2 : i < 64
  · have h3 : i - 32 < 32 := by omega
    have h4 : 32 + (i - 32) = i := by omega
    simp [h1, h3, h4]
  have h3 : ¬ i - 32 < 32 := by omega
  by_cases h5 : i < 69
  · have h6 : i - 32 - 32 < 5 := by omega
    have hr := congrArg (fun v : BitVec 5 => v.getLsbD (i - 64)) h
    have h7 : i - 64 < 5 := by omega
    have h8 : 64 + (i - 64) = i := by omega
    simp [Txn.res, h7, h8] at hr
    simp [h1, h3, h6, hr]
  have h6 : ¬ i - 32 - 32 < 5 := by omega
  have : i = 69 ∨ i = 70 ∨ i = 71 := by omega
  rcases this with rfl | rfl | rfl <;> simp

/-- An address of the bus as a number (R60). -/
theorem toNat_busAddr {a : Nat} (h : a < 2 ^ 32) : (busAddr a).toNat = a := by
  rw [busAddr, BitVec.toNat_ofNat]
  exact Nat.mod_eq_of_lt h

theorem firstRow_nil : firstRow [] = .accessViolation := rfl

theorem firstRow_cons (hit : Bool) (i : Instr) (rows : List (Bool × Instr)) :
    firstRow ((hit, i) :: rows) = if hit then .op i else firstRow rows := rfl

/-- With no row matching, the first row is `ACCESS_VIOLATION`. -/
theorem firstRow_of_none {rows : List (Bool × Instr)} (h : ∀ r ∈ rows, r.1 = false) :
    firstRow rows = .accessViolation := by
  induction rows with
  | nil => rfl
  | cons r rows ih =>
    obtain ⟨hit, i⟩ := r
    have : hit = false := h (hit, i) (by simp)
    simp [firstRow, this, ih fun r hr => h r (by simp [hr])]

/-- What decodes as an operation is one of the rows that match. -/
theorem mem_of_firstRow {rows : List (Bool × Instr)} {i : Instr} (h : firstRow rows = .op i) : (true, i) ∈ rows := by
  induction rows with
  | nil => cases h
  | cons r rows ih =>
    obtain ⟨hit, j⟩ := r
    cases hit with
    | true =>
      simp only [firstRow, if_true, Decoded.op.injEq] at h
      simp [h]
    | false =>
      simp only [firstRow, Bool.false_eq_true, if_false] at h
      simp [ih h]

/-- A made word inside the windows decodes by its rows; outside them it is refused. -/
theorem decode_make (c : Config) (w : Bool) (sz : BitVec 2) (a d : Word) :
    decode c (Txn.make w sz a d) =
      if c.InWindow a.toNat then firstRow (decodeRows c (Txn.make w sz a d)) else .refused .outsideWindows := by
  simp only [decode, Txn.res_make, Txn.addr_make, if_true]

/-- A word decodes as an operation only with RES = 0, in a window, by one of its rows. -/
theorem decode_op {c : Config} {t : Txn} {i : Instr} (h : decode c t = .op i) :
    t.res = 0 ∧ c.InWindow t.addr.toNat ∧ firstRow (decodeRows c t) = .op i := by
  unfold decode at h
  split at h
  · split at h
    · exact ⟨‹_›, ‹_›, h⟩
    · cases h
  · cases h

/-- What decodes as an operation is well formed (R94, R60, R66). -/
theorem wf_of_decode {c : Config} {t : Txn} {i : Instr} (h : decode c t = .op i) : i.Wf c := by
  have hm := mem_of_firstRow (decode_op h).2.2
  have hlt := t.addr.isLt
  simp only [decodeRows, List.mem_cons, Prod.mk.injEq, List.not_mem_nil, or_false] at hm
  rcases hm with h | h | h | h | h | h | h | h | h | h | h | h | h | h | h <;> obtain ⟨hb, rfl⟩ := h <;>
    simp only [Bool.true_eq, Bool.and_eq_true, beq_iff_eq, decide_eq_true_eq] at hb <;> obtain ⟨-, hA⟩ := hb
  case inl => exact ⟨lt_of_eq_of_lt hA.symm hlt, Nat.mod_one _⟩
  all_goals first | exact hA | exact ⟨lt_of_eq_of_lt hA.1.symm hlt, (congrArg (· % _) hA.1).symm.trans hA.2⟩

end Sys2Proof
end

