-- ==== Sys2Proof/Laws/Memory.lean ====
section
/-! SUPPORT. The flash array: read after write, runs of bytes, byte order, and that every write keeps the canonical
form. -/

namespace Sys2Proof.Machine

/-! ## Read after write -/

@[simp] theorem Memory.read_nil (a : Nat) : Memory.read [] a = Memory.unlisted := rfl

/-- An address below every listed one reads as unlisted. -/
theorem Memory.read_of_lt {m : Memory} {a : Nat} (h : ∀ x ∈ m, a < x.1) : m.read a = Memory.unlisted := by
  induction m with
  | nil => rfl
  | cons x m ih =>
    have h1 : a < x.1 := h x (by simp)
    simp only [Memory.read]
    rw [if_neg (by omega)]
    exact ih fun y hy => h y (by simp [hy])

theorem Memory.read_write {m : Memory} (hm : m.Wf) (a b : Nat) (v : Byte) :
    (m.write a v).read b = if b = a then v else m.read b := by
  induction m with
  | nil =>
    by_cases hv : v = Memory.unlisted
    · simp [Memory.write, hv, Memory.read]
    · simp [Memory.write, hv, Memory.read]
  | cons x m ih =>
    obtain ⟨k, w⟩ := x
    obtain ⟨hp, hu⟩ := hm
    rw [List.pairwise_cons] at hp
    have hm' : Memory.Wf m := ⟨hp.2, fun y hy => hu y (by simp [hy])⟩
    simp only [Memory.write]
    split
    · rename_i hlt
      split
      · rename_i hv
        by_cases hb : b = a
        · subst hb
          rw [if_pos rfl, hv]
          exact Memory.read_of_lt fun y hy => by
            rcases List.mem_cons.1 hy with rfl | hy
            · exact hlt
            · exact lt_trans hlt (hp.1 y hy)
        · rw [if_neg hb]
      · by_cases hb : b = a <;> simp [Memory.read, hb]
    · split
      · rename_i _ hak
        subst hak
        split
        · rename_i hv
          by_cases hb : b = a
          · subst hb
            rw [if_pos rfl, hv]
            exact Memory.read_of_lt fun y hy => hp.1 y hy
          · simp [Memory.read, hb]
        · by_cases hb : b = a <;> simp [Memory.read, hb]
      · rename_i hlt hak
        simp only [Memory.read, ih hm']
        by_cases hbk : b = k
        · subst hbk
          simp [Ne.symm hak]
        · simp [hbk]

/-- The members of a write are the new entry and old entries for other addresses. -/
theorem Memory.mem_write {m : Memory} {a : Nat} {v : Byte} {y : Nat × Byte} (h : y ∈ m.write a v) :
    (y = (a, v) ∧ v ≠ Memory.unlisted) ∨ y ∈ m := by
  induction m with
  | nil =>
    simp only [Memory.write] at h
    split at h
    · simp at h
    · simp_all
  | cons x m ih =>
    obtain ⟨k, w⟩ := x
    simp only [Memory.write] at h
    split at h
    · split at h
      · exact .inr h
      · rcases List.mem_cons.1 h with rfl | h
        · exact .inl ⟨rfl, ‹_›⟩
        · exact .inr h
    · split at h
      · split at h
        · exact .inr (by simp [h])
        · rcases List.mem_cons.1 h with rfl | h
          · exact .inl ⟨rfl, ‹_›⟩
          · exact .inr (by simp [h])
      · rcases List.mem_cons.1 h with rfl | h
        · exact .inr (by simp)
        · rcases ih h with h | h
          · exact .inl h
          · exact .inr (by simp [h])

theorem Memory.wf_write {m : Memory} (hm : m.Wf) (a : Nat) (v : Byte) : (m.write a v).Wf := by
  refine ⟨?_, fun y hy => ?_⟩
  · induction m with
    | nil =>
      simp only [Memory.write]
      split <;> simp
    | cons x m ih =>
      obtain ⟨k, w⟩ := x
      obtain ⟨hp, hu⟩ := hm
      have hp' := List.pairwise_cons.1 hp
      have hm' : Memory.Wf m := ⟨hp'.2, fun y hy => hu y (by simp [hy])⟩
      simp only [Memory.write]
      split
      · rename_i hlt
        split
        · exact hp
        · refine List.pairwise_cons.2 ⟨fun y hy => ?_, hp⟩
          rcases List.mem_cons.1 hy with rfl | hy
          · exact hlt
          · exact lt_trans hlt (hp'.1 y hy)
      · split
        · rename_i _ hak
          subst hak
          split
          · exact hp'.2
          · exact List.pairwise_cons.2 ⟨hp'.1, hp'.2⟩
        · refine List.pairwise_cons.2 ⟨fun y hy => ?_, ih hm'⟩
          rcases Memory.mem_write hy with ⟨rfl, -⟩ | hy
          · simp only; omega
          · exact hp'.1 y hy
  · rcases Memory.mem_write hy with ⟨rfl, hv⟩ | hy
    · exact hv
    · exact hm.2 y hy

theorem Memory.within_write {m : Memory} {lo hi a : Nat} (hm : m.Within lo hi) (ha : lo ≤ a ∧ a < hi) (v : Byte) :
    (m.write a v).Within lo hi := by
  intro y hy
  rcases Memory.mem_write hy with ⟨rfl, -⟩ | hy
  · exact ha
  · exact hm y hy

/-! ## Runs of bytes -/

theorem Memory.wf_writeBytes {m : Memory} (hm : m.Wf) (a : Nat) (bs : List Byte) : (m.writeBytes a bs).Wf := by
  induction bs generalizing m a with
  | nil => exact hm
  | cons b bs ih => exact ih (Memory.wf_write hm a b) (a + 1)

theorem Memory.within_writeBytes {m : Memory} {lo hi : Nat} (hm : m.Within lo hi) (a : Nat) (bs : List Byte)
    (ha : lo ≤ a) (hb : a + bs.length ≤ hi) : (m.writeBytes a bs).Within lo hi := by
  induction bs generalizing m a with
  | nil => exact hm
  | cons b bs ih =>
    simp only [List.length_cons] at hb
    exact ih (Memory.within_write hm ⟨ha, by omega⟩ b) (a + 1) (by omega) (by omega)

/-- Every byte after writing a run: the run's byte inside it, the old byte outside. -/
theorem Memory.read_writeBytes {m : Memory} (hm : m.Wf) (a b : Nat) (bs : List Byte) :
    (m.writeBytes a bs).read b = if a ≤ b then bs.getD (b - a) (m.read b) else m.read b := by
  induction bs generalizing m a with
  | nil => simp [Memory.writeBytes]
  | cons v bs ih =>
    simp only [Memory.writeBytes]
    rw [ih (Memory.wf_write hm a v) (a + 1), Memory.read_write hm]
    by_cases hba : b = a
    · subst hba
      simp
    · by_cases hle : a + 1 ≤ b
      · have h1 : a ≤ b := by omega
        have h2 : b - a = b - (a + 1) + 1 := by omega
        rw [if_pos hle, if_pos h1, if_neg hba, h2]
        simp
      · have h1 : ¬ a ≤ b := by omega
        rw [if_neg hle, if_neg hba, if_neg h1]

theorem Memory.read_writeBytes_outside {m : Memory} (hm : m.Wf) (a b : Nat) (bs : List Byte)
    (h : b < a ∨ a + bs.length ≤ b) : (m.writeBytes a bs).read b = m.read b := by
  rw [Memory.read_writeBytes hm]
  split
  · rw [List.getD_eq_default]
    omega
  · rfl

@[simp] theorem Memory.length_readBytes (m : Memory) (a n : Nat) : (m.readBytes a n).length = n := by
  simp [Memory.readBytes]

theorem Memory.readBytes_congr {m m' : Memory} {a n : Nat} (h : ∀ i, i < n → m.read (a + i) = m'.read (a + i)) :
    m.readBytes a n = m'.readBytes a n := by
  simp only [Memory.readBytes]
  exact List.map_congr_left fun i hi => h i (List.mem_range.1 hi)

/-! ## Any bytes -/

theorem Memory.mem_free {lo n : Nat} {x : Nat × Byte} :
    x ∈ Memory.free lo n ↔ (lo ≤ x.1 ∧ x.1 < lo + n) ∧ x.2 = Config.freeFlash x.1 ∧ x.2 ≠ Memory.unlisted := by
  obtain ⟨a, b⟩ := x
  simp only [Memory.free, List.mem_filter, List.mem_map, List.mem_range'_1, Prod.mk.injEq, decide_eq_true_eq]
  constructor
  · rintro ⟨⟨a, ha, rfl, rfl⟩, hb⟩
    exact ⟨ha, rfl, hb⟩
  · rintro ⟨ha, rfl, hb⟩
    exact ⟨⟨a, ha, rfl, rfl⟩, hb⟩

theorem Memory.wf_free (lo n : Nat) : (Memory.free lo n).Wf := by
  refine ⟨.filter _ ?_, fun x hx => (Memory.mem_free.1 hx).2.2⟩
  rw [List.pairwise_map]
  exact List.pairwise_lt_range'

theorem Memory.within_free (lo n : Nat) : (Memory.free lo n).Within lo (lo + n) := fun _ hx => (Memory.mem_free.1 hx).1

/-- A listed byte is what its address reads as. -/
theorem Memory.read_of_mem {m : Memory} (hm : m.Wf) {a : Nat} {v : Byte} (h : (a, v) ∈ m) : m.read a = v := by
  induction m with
  | nil => simp at h
  | cons x m ih =>
    obtain ⟨k, w⟩ := x
    have hp := List.pairwise_cons.1 hm.1
    simp only [Memory.read]
    rcases List.mem_cons.1 h with h | h
    · cases h
      exact if_pos rfl
    · rw [if_neg (Nat.ne_of_gt (hp.1 _ h))]
      exact ih ⟨hp.2, fun y hy => hm.2 y (by simp [hy])⟩ h

/-- An address that is not listed reads as unlisted. -/
theorem Memory.read_of_not_mem {m : Memory} {a : Nat} (h : ∀ x ∈ m, x.1 ≠ a) : m.read a = Memory.unlisted := by
  induction m with
  | nil => rfl
  | cons x m ih =>
    simp only [Memory.read]
    rw [if_neg (Ne.symm (h x (by simp)))]
    exact ih fun y hy => h y (by simp [hy])

/-- An array of any bytes reads as the free bytes inside its range. -/
theorem Memory.read_free {lo n a : Nat} (h : lo ≤ a ∧ a < lo + n) : (Memory.free lo n).read a = Config.freeFlash a := by
  by_cases hu : Config.freeFlash a = Memory.unlisted
  · rw [hu]
    refine Memory.read_of_not_mem ?_
    rintro x hx rfl
    exact (Memory.mem_free.1 hx).2.2 ((Memory.mem_free.1 hx).2.1.trans hu)
  · exact Memory.read_of_mem (Memory.wf_free lo n) (Memory.mem_free.2 ⟨h, rfl, hu⟩)

/-- The flash array of `State.reset` has the canonical form and lies in the flash window. -/
theorem reset_flash_wf :
    State.reset.flash.Wf ∧ State.reset.flash.Within Config.default.flashBase Config.default.flashEnd :=
  ⟨Memory.wf_free _ _, Memory.within_free _ _⟩

/-! ## Words and bytes -/

@[simp] theorem length_wordBytes (w : Word) : (wordBytes w).length = 4 := rfl

@[simp] theorem wordsBytes_nil : wordsBytes [] = [] := rfl

@[simp] theorem wordsBytes_cons (w : Word) (ws : List Word) : wordsBytes (w :: ws) = wordBytes w ++ wordsBytes ws := by
  simp [wordsBytes]

@[simp] theorem length_wordsBytes (ws : List Word) : (wordsBytes ws).length = 4 * ws.length := by
  induction ws with
  | nil => rfl
  | cons w ws ih => simp [ih]; omega

/-- A word is its four bytes assembled little-endian. -/
theorem leWord_wordBytes (w : Word) : leWord (wordBytes w) = w := by
  simp only [wordBytes, leWord]
  ext i hi
  simp only [BitVec.getElem_or, BitVec.getElem_shiftLeft, BitVec.getElem_setWidth, BitVec.getLsbD_extractLsb']
  have : i < 8 ∨ (8 ≤ i ∧ i < 16) ∨ (16 ≤ i ∧ i < 24) ∨ (24 ≤ i ∧ i < 32) := by omega
  rcases this with h | ⟨h, h'⟩ | ⟨h, h'⟩ | ⟨h, h'⟩ <;> interval_cases i <;> simp

/-- Byte i of word s among the bytes of consecutive words. -/
theorem wordsBytes_getD (ws : List Word) (s i : Nat) (hi : i < 4) (d : Byte) (hs : s < ws.length) :
    (wordsBytes ws).getD (4 * s + i) d = (wordBytes (ws.getD s 0)).getD i d := by
  induction ws generalizing s with
  | nil => simp at hs
  | cons w ws ih =>
    rw [wordsBytes_cons]
    cases s with
    | zero =>
      rw [List.getD_append _ _ _ _ (by simpa using hi)]
      simp
    | succ s =>
      rw [List.getD_append_right _ _ _ _ (by simp; omega)]
      have h1 : 4 * (s + 1) + i - (wordBytes w).length = 4 * s + i := by simp; omega
      rw [h1, ih s (by simpa using hs)]
      simp

end Sys2Proof.Machine
end

