-- ==== Sys2Proof/Laws/State.lean ====
section
/-! SUPPORT. One lemma per field per named update of the state, so that no later proof unfolds a record update. -/

namespace Sys2Proof.Machine

/-! ## returnData -/

@[simp] theorem returnData_cfg (v : Word) (s : State) : (returnData v s).cfg = s.cfg := rfl
@[simp] theorem returnData_crc (v : Word) (s : State) : (returnData v s).crc = s.crc := rfl
@[simp] theorem returnData_lock (v : Word) (s : State) : (returnData v s).lock = s.lock := rfl
@[simp] theorem returnData_flock (v : Word) (s : State) : (returnData v s).flock = s.flock := rfl
@[simp] theorem returnData_pageEr (v : Word) (s : State) : (returnData v s).pageEr = s.pageEr := rfl
@[simp] theorem returnData_pagePg (v : Word) (s : State) : (returnData v s).pagePg = s.pagePg := rfl
@[simp] theorem returnData_bsy (v : Word) (s : State) : (returnData v s).bsy = s.bsy := rfl
@[simp] theorem returnData_addr (v : Word) (s : State) : (returnData v s).addr = s.addr := rfl
@[simp] theorem returnData_keySeq (v : Word) (s : State) : (returnData v s).keySeq = s.keySeq := rfl
@[simp] theorem returnData_modeKeySeq (v : Word) (s : State) : (returnData v s).modeKeySeq = s.modeKeySeq := rfl
@[simp] theorem returnData_barred (v : Word) (s : State) : (returnData v s).barred = s.barred := rfl
@[simp] theorem returnData_pending (v : Word) (s : State) : (returnData v s).pending = s.pending := rfl
@[simp] theorem returnData_buf (v : Word) (s : State) : (returnData v s).buf = s.buf := rfl
@[simp] theorem returnData_loaded (v : Word) (s : State) : (returnData v s).loaded = s.loaded := rfl
@[simp] theorem returnData_bufState (v : Word) (s : State) : (returnData v s).bufState = s.bufState := rfl
@[simp] theorem returnData_bufPage (v : Word) (s : State) : (returnData v s).bufPage = s.bufPage := rfl
@[simp] theorem returnData_latch (v : Word) (s : State) : (returnData v s).latch = s.latch := rfl
@[simp] theorem returnData_flash (v : Word) (s : State) : (returnData v s).flash = s.flash := rfl
@[simp] theorem returnData_faults (v : Word) (s : State) : (returnData v s).faults = s.faults := rfl
@[simp] theorem returnData_host (v : Word) (s : State) : (returnData v s).host = s.host := rfl
@[simp] theorem returnData_rdata (v : Word) (s : State) : (returnData v s).rdata = some v := rfl
@[simp] theorem returnData_draws (v : Word) (s : State) : (returnData v s).draws = s.draws := rfl
@[simp] theorem returnData_flashOps (v : Word) (s : State) : (returnData v s).flashOps = s.flashOps := rfl
@[simp] theorem returnData_bus (v : Word) (s : State) : (returnData v s).bus = s.bus := rfl

/-! ## acknowledge -/

@[simp] theorem acknowledge_cfg (s : State) : (acknowledge s).cfg = s.cfg := rfl
@[simp] theorem acknowledge_crc (s : State) : (acknowledge s).crc = s.crc := rfl
@[simp] theorem acknowledge_lock (s : State) : (acknowledge s).lock = s.lock := rfl
@[simp] theorem acknowledge_flock (s : State) : (acknowledge s).flock = s.flock := rfl
@[simp] theorem acknowledge_pageEr (s : State) : (acknowledge s).pageEr = s.pageEr := rfl
@[simp] theorem acknowledge_pagePg (s : State) : (acknowledge s).pagePg = s.pagePg := rfl
@[simp] theorem acknowledge_bsy (s : State) : (acknowledge s).bsy = s.bsy := rfl
@[simp] theorem acknowledge_addr (s : State) : (acknowledge s).addr = s.addr := rfl
@[simp] theorem acknowledge_keySeq (s : State) : (acknowledge s).keySeq = s.keySeq := rfl
@[simp] theorem acknowledge_modeKeySeq (s : State) : (acknowledge s).modeKeySeq = s.modeKeySeq := rfl
@[simp] theorem acknowledge_barred (s : State) : (acknowledge s).barred = s.barred := rfl
@[simp] theorem acknowledge_pending (s : State) : (acknowledge s).pending = s.pending := rfl
@[simp] theorem acknowledge_buf (s : State) : (acknowledge s).buf = s.buf := rfl
@[simp] theorem acknowledge_loaded (s : State) : (acknowledge s).loaded = s.loaded := rfl
@[simp] theorem acknowledge_bufState (s : State) : (acknowledge s).bufState = s.bufState := rfl
@[simp] theorem acknowledge_bufPage (s : State) : (acknowledge s).bufPage = s.bufPage := rfl
@[simp] theorem acknowledge_latch (s : State) : (acknowledge s).latch = s.latch := rfl
@[simp] theorem acknowledge_flash (s : State) : (acknowledge s).flash = s.flash := rfl
@[simp] theorem acknowledge_faults (s : State) : (acknowledge s).faults = s.faults := rfl
@[simp] theorem acknowledge_host (s : State) : (acknowledge s).host = s.host := rfl
@[simp] theorem acknowledge_rdata (s : State) : (acknowledge s).rdata = none := rfl
@[simp] theorem acknowledge_draws (s : State) : (acknowledge s).draws = s.draws := rfl
@[simp] theorem acknowledge_flashOps (s : State) : (acknowledge s).flashOps = s.flashOps := rfl
@[simp] theorem acknowledge_bus (s : State) : (acknowledge s).bus = s.bus := rfl

/-! ## raise -/

@[simp] theorem raise_cfg (k : FaultCode) (t : Option Txn) (i : Option Word) (s : State) : (raise k t i s).cfg = s.cfg := rfl
@[simp] theorem raise_crc (k : FaultCode) (t : Option Txn) (i : Option Word) (s : State) : (raise k t i s).crc = s.crc := rfl
@[simp] theorem raise_lock (k : FaultCode) (t : Option Txn) (i : Option Word) (s : State) : (raise k t i s).lock = s.lock := rfl
@[simp] theorem raise_flock (k : FaultCode) (t : Option Txn) (i : Option Word) (s : State) : (raise k t i s).flock = s.flock := rfl
@[simp] theorem raise_pageEr (k : FaultCode) (t : Option Txn) (i : Option Word) (s : State) : (raise k t i s).pageEr = s.pageEr := rfl
@[simp] theorem raise_pagePg (k : FaultCode) (t : Option Txn) (i : Option Word) (s : State) : (raise k t i s).pagePg = s.pagePg := rfl
@[simp] theorem raise_bsy (k : FaultCode) (t : Option Txn) (i : Option Word) (s : State) : (raise k t i s).bsy = s.bsy := rfl
@[simp] theorem raise_addr (k : FaultCode) (t : Option Txn) (i : Option Word) (s : State) : (raise k t i s).addr = s.addr := rfl
@[simp] theorem raise_keySeq (k : FaultCode) (t : Option Txn) (i : Option Word) (s : State) : (raise k t i s).keySeq = s.keySeq := rfl
@[simp] theorem raise_modeKeySeq (k : FaultCode) (t : Option Txn) (i : Option Word) (s : State) : (raise k t i s).modeKeySeq = s.modeKeySeq := rfl
@[simp] theorem raise_barred (k : FaultCode) (t : Option Txn) (i : Option Word) (s : State) : (raise k t i s).barred = s.barred := rfl
@[simp] theorem raise_pending (k : FaultCode) (t : Option Txn) (i : Option Word) (s : State) : (raise k t i s).pending = s.pending := rfl
@[simp] theorem raise_buf (k : FaultCode) (t : Option Txn) (i : Option Word) (s : State) : (raise k t i s).buf = s.buf := rfl
@[simp] theorem raise_loaded (k : FaultCode) (t : Option Txn) (i : Option Word) (s : State) : (raise k t i s).loaded = s.loaded := rfl
@[simp] theorem raise_bufState (k : FaultCode) (t : Option Txn) (i : Option Word) (s : State) : (raise k t i s).bufState = s.bufState := rfl
@[simp] theorem raise_bufPage (k : FaultCode) (t : Option Txn) (i : Option Word) (s : State) : (raise k t i s).bufPage = s.bufPage := rfl
@[simp] theorem raise_latch (k : FaultCode) (t : Option Txn) (i : Option Word) (s : State) : (raise k t i s).latch = s.latch := rfl
@[simp] theorem raise_flash (k : FaultCode) (t : Option Txn) (i : Option Word) (s : State) : (raise k t i s).flash = s.flash := rfl
@[simp] theorem raise_faults (k : FaultCode) (t : Option Txn) (i : Option Word) (s : State) : (raise k t i s).faults = s.faults ++ [⟨k, t, i⟩] := rfl
@[simp] theorem raise_host (k : FaultCode) (t : Option Txn) (i : Option Word) (s : State) : (raise k t i s).host = s.host := rfl
@[simp] theorem raise_rdata (k : FaultCode) (t : Option Txn) (i : Option Word) (s : State) : (raise k t i s).rdata = s.rdata := rfl
@[simp] theorem raise_draws (k : FaultCode) (t : Option Txn) (i : Option Word) (s : State) : (raise k t i s).draws = s.draws := rfl
@[simp] theorem raise_flashOps (k : FaultCode) (t : Option Txn) (i : Option Word) (s : State) : (raise k t i s).flashOps = s.flashOps := rfl
@[simp] theorem raise_bus (k : FaultCode) (t : Option Txn) (i : Option Word) (s : State) : (raise k t i s).bus = s.bus := rfl

/-! ## keyError -/

@[simp] theorem keyError_cfg (t : Txn) (s : State) : (keyError t s).cfg = s.cfg := rfl
@[simp] theorem keyError_crc (t : Txn) (s : State) : (keyError t s).crc = s.crc := rfl
@[simp] theorem keyError_lock (t : Txn) (s : State) : (keyError t s).lock = true := rfl
@[simp] theorem keyError_flock (t : Txn) (s : State) : (keyError t s).flock = true := rfl
@[simp] theorem keyError_pageEr (t : Txn) (s : State) : (keyError t s).pageEr = s.pageEr := rfl
@[simp] theorem keyError_pagePg (t : Txn) (s : State) : (keyError t s).pagePg = s.pagePg := rfl
@[simp] theorem keyError_bsy (t : Txn) (s : State) : (keyError t s).bsy = s.bsy := rfl
@[simp] theorem keyError_addr (t : Txn) (s : State) : (keyError t s).addr = s.addr := rfl
@[simp] theorem keyError_keySeq (t : Txn) (s : State) : (keyError t s).keySeq = .idle := rfl
@[simp] theorem keyError_modeKeySeq (t : Txn) (s : State) : (keyError t s).modeKeySeq = .idle := rfl
@[simp] theorem keyError_barred (t : Txn) (s : State) : (keyError t s).barred = true := rfl
@[simp] theorem keyError_pending (t : Txn) (s : State) : (keyError t s).pending = s.pending := rfl
@[simp] theorem keyError_buf (t : Txn) (s : State) : (keyError t s).buf = s.buf := rfl
@[simp] theorem keyError_loaded (t : Txn) (s : State) : (keyError t s).loaded = s.loaded := rfl
@[simp] theorem keyError_bufState (t : Txn) (s : State) : (keyError t s).bufState = s.bufState := rfl
@[simp] theorem keyError_bufPage (t : Txn) (s : State) : (keyError t s).bufPage = s.bufPage := rfl
@[simp] theorem keyError_latch (t : Txn) (s : State) : (keyError t s).latch = s.latch := rfl
@[simp] theorem keyError_flash (t : Txn) (s : State) : (keyError t s).flash = s.flash := rfl
@[simp] theorem keyError_faults (t : Txn) (s : State) : (keyError t s).faults = s.faults ++ [⟨.keySequence, t, none⟩] := rfl
@[simp] theorem keyError_host (t : Txn) (s : State) : (keyError t s).host = s.host := rfl
@[simp] theorem keyError_rdata (t : Txn) (s : State) : (keyError t s).rdata = s.rdata := rfl
@[simp] theorem keyError_draws (t : Txn) (s : State) : (keyError t s).draws = s.draws := rfl
@[simp] theorem keyError_flashOps (t : Txn) (s : State) : (keyError t s).flashOps = s.flashOps := rfl
@[simp] theorem keyError_bus (t : Txn) (s : State) : (keyError t s).bus = s.bus := rfl

/-! ## lockSet -/

@[simp] theorem lockSet_cfg (s : State) : (lockSet s).cfg = s.cfg := rfl
@[simp] theorem lockSet_crc (s : State) : (lockSet s).crc = s.crc := rfl
@[simp] theorem lockSet_lock (s : State) : (lockSet s).lock = true := rfl
@[simp] theorem lockSet_flock (s : State) : (lockSet s).flock = true := rfl
@[simp] theorem lockSet_pageEr (s : State) : (lockSet s).pageEr = s.pageEr := rfl
@[simp] theorem lockSet_pagePg (s : State) : (lockSet s).pagePg = s.pagePg := rfl
@[simp] theorem lockSet_bsy (s : State) : (lockSet s).bsy = s.bsy := rfl
@[simp] theorem lockSet_addr (s : State) : (lockSet s).addr = s.addr := rfl
@[simp] theorem lockSet_keySeq (s : State) : (lockSet s).keySeq = .idle := rfl
@[simp] theorem lockSet_modeKeySeq (s : State) : (lockSet s).modeKeySeq = .idle := rfl
@[simp] theorem lockSet_barred (s : State) : (lockSet s).barred = s.barred := rfl
@[simp] theorem lockSet_pending (s : State) : (lockSet s).pending = s.pending := rfl
@[simp] theorem lockSet_buf (s : State) : (lockSet s).buf = s.buf := rfl
@[simp] theorem lockSet_loaded (s : State) : (lockSet s).loaded = s.loaded := rfl
@[simp] theorem lockSet_bufState (s : State) : (lockSet s).bufState = s.bufState := rfl
@[simp] theorem lockSet_bufPage (s : State) : (lockSet s).bufPage = s.bufPage := rfl
@[simp] theorem lockSet_latch (s : State) : (lockSet s).latch = s.latch := rfl
@[simp] theorem lockSet_flash (s : State) : (lockSet s).flash = s.flash := rfl
@[simp] theorem lockSet_faults (s : State) : (lockSet s).faults = s.faults := rfl
@[simp] theorem lockSet_host (s : State) : (lockSet s).host = s.host := rfl
@[simp] theorem lockSet_rdata (s : State) : (lockSet s).rdata = s.rdata := rfl
@[simp] theorem lockSet_draws (s : State) : (lockSet s).draws = s.draws := rfl
@[simp] theorem lockSet_flashOps (s : State) : (lockSet s).flashOps = s.flashOps := rfl
@[simp] theorem lockSet_bus (s : State) : (lockSet s).bus = s.bus := rfl

/-! ## flockSet -/

@[simp] theorem flockSet_cfg (s : State) : (flockSet s).cfg = s.cfg := rfl
@[simp] theorem flockSet_crc (s : State) : (flockSet s).crc = s.crc := rfl
@[simp] theorem flockSet_lock (s : State) : (flockSet s).lock = s.lock := rfl
@[simp] theorem flockSet_flock (s : State) : (flockSet s).flock = true := rfl
@[simp] theorem flockSet_pageEr (s : State) : (flockSet s).pageEr = s.pageEr := rfl
@[simp] theorem flockSet_pagePg (s : State) : (flockSet s).pagePg = s.pagePg := rfl
@[simp] theorem flockSet_bsy (s : State) : (flockSet s).bsy = s.bsy := rfl
@[simp] theorem flockSet_addr (s : State) : (flockSet s).addr = s.addr := rfl
@[simp] theorem flockSet_keySeq (s : State) : (flockSet s).keySeq = s.keySeq := rfl
@[simp] theorem flockSet_modeKeySeq (s : State) : (flockSet s).modeKeySeq = .idle := rfl
@[simp] theorem flockSet_barred (s : State) : (flockSet s).barred = s.barred := rfl
@[simp] theorem flockSet_pending (s : State) : (flockSet s).pending = s.pending := rfl
@[simp] theorem flockSet_buf (s : State) : (flockSet s).buf = s.buf := rfl
@[simp] theorem flockSet_loaded (s : State) : (flockSet s).loaded = s.loaded := rfl
@[simp] theorem flockSet_bufState (s : State) : (flockSet s).bufState = s.bufState := rfl
@[simp] theorem flockSet_bufPage (s : State) : (flockSet s).bufPage = s.bufPage := rfl
@[simp] theorem flockSet_latch (s : State) : (flockSet s).latch = s.latch := rfl
@[simp] theorem flockSet_flash (s : State) : (flockSet s).flash = s.flash := rfl
@[simp] theorem flockSet_faults (s : State) : (flockSet s).faults = s.faults := rfl
@[simp] theorem flockSet_host (s : State) : (flockSet s).host = s.host := rfl
@[simp] theorem flockSet_rdata (s : State) : (flockSet s).rdata = s.rdata := rfl
@[simp] theorem flockSet_draws (s : State) : (flockSet s).draws = s.draws := rfl
@[simp] theorem flockSet_flashOps (s : State) : (flockSet s).flashOps = s.flashOps := rfl
@[simp] theorem flockSet_bus (s : State) : (flockSet s).bus = s.bus := rfl

/-! ## startErase -/

@[simp] theorem startErase_cfg (s : State) : (startErase s).cfg = s.cfg := rfl
@[simp] theorem startErase_crc (s : State) : (startErase s).crc = s.crc := rfl
@[simp] theorem startErase_lock (s : State) : (startErase s).lock = s.lock := rfl
@[simp] theorem startErase_flock (s : State) : (startErase s).flock = s.flock := rfl
@[simp] theorem startErase_pageEr (s : State) : (startErase s).pageEr = s.pageEr := rfl
@[simp] theorem startErase_pagePg (s : State) : (startErase s).pagePg = s.pagePg := rfl
@[simp] theorem startErase_bsy (s : State) : (startErase s).bsy = true := rfl
@[simp] theorem startErase_addr (s : State) : (startErase s).addr = s.addr := rfl
@[simp] theorem startErase_keySeq (s : State) : (startErase s).keySeq = s.keySeq := rfl
@[simp] theorem startErase_modeKeySeq (s : State) : (startErase s).modeKeySeq = s.modeKeySeq := rfl
@[simp] theorem startErase_barred (s : State) : (startErase s).barred = s.barred := rfl
@[simp] theorem startErase_pending (s : State) : (startErase s).pending = .erase s.addr := rfl
@[simp] theorem startErase_buf (s : State) : (startErase s).buf = s.buf := rfl
@[simp] theorem startErase_loaded (s : State) : (startErase s).loaded = s.loaded := rfl
@[simp] theorem startErase_bufState (s : State) : (startErase s).bufState = s.bufState := rfl
@[simp] theorem startErase_bufPage (s : State) : (startErase s).bufPage = s.bufPage := rfl
@[simp] theorem startErase_latch (s : State) : (startErase s).latch = s.latch := rfl
@[simp] theorem startErase_flash (s : State) : (startErase s).flash = s.flash := rfl
@[simp] theorem startErase_faults (s : State) : (startErase s).faults = s.faults := rfl
@[simp] theorem startErase_host (s : State) : (startErase s).host = s.host := rfl
@[simp] theorem startErase_rdata (s : State) : (startErase s).rdata = s.rdata := rfl
@[simp] theorem startErase_draws (s : State) : (startErase s).draws = s.draws := rfl
@[simp] theorem startErase_flashOps (s : State) : (startErase s).flashOps = s.flashOps := rfl
@[simp] theorem startErase_bus (s : State) : (startErase s).bus = s.bus := rfl

/-! ## startProgram -/

@[simp] theorem startProgram_cfg (s : State) : (startProgram s).cfg = s.cfg := rfl
@[simp] theorem startProgram_crc (s : State) : (startProgram s).crc = s.crc := rfl
@[simp] theorem startProgram_lock (s : State) : (startProgram s).lock = s.lock := rfl
@[simp] theorem startProgram_flock (s : State) : (startProgram s).flock = s.flock := rfl
@[simp] theorem startProgram_pageEr (s : State) : (startProgram s).pageEr = s.pageEr := rfl
@[simp] theorem startProgram_pagePg (s : State) : (startProgram s).pagePg = s.pagePg := rfl
@[simp] theorem startProgram_bsy (s : State) : (startProgram s).bsy = true := rfl
@[simp] theorem startProgram_addr (s : State) : (startProgram s).addr = s.addr := rfl
@[simp] theorem startProgram_keySeq (s : State) : (startProgram s).keySeq = s.keySeq := rfl
@[simp] theorem startProgram_modeKeySeq (s : State) : (startProgram s).modeKeySeq = s.modeKeySeq := rfl
@[simp] theorem startProgram_barred (s : State) : (startProgram s).barred = s.barred := rfl
@[simp] theorem startProgram_pending (s : State) : (startProgram s).pending = .program s.addr s.buf := rfl
@[simp] theorem startProgram_buf (s : State) : (startProgram s).buf = s.buf := rfl
@[simp] theorem startProgram_loaded (s : State) : (startProgram s).loaded = s.loaded := rfl
@[simp] theorem startProgram_bufState (s : State) : (startProgram s).bufState = .invalid := rfl
@[simp] theorem startProgram_bufPage (s : State) : (startProgram s).bufPage = s.bufPage := rfl
@[simp] theorem startProgram_latch (s : State) : (startProgram s).latch = s.latch := rfl
@[simp] theorem startProgram_flash (s : State) : (startProgram s).flash = s.flash := rfl
@[simp] theorem startProgram_faults (s : State) : (startProgram s).faults = s.faults := rfl
@[simp] theorem startProgram_host (s : State) : (startProgram s).host = s.host := rfl
@[simp] theorem startProgram_rdata (s : State) : (startProgram s).rdata = s.rdata := rfl
@[simp] theorem startProgram_draws (s : State) : (startProgram s).draws = s.draws := rfl
@[simp] theorem startProgram_flashOps (s : State) : (startProgram s).flashOps = s.flashOps := rfl
@[simp] theorem startProgram_bus (s : State) : (startProgram s).bus = s.bus := rfl

/-! ## bufReset -/

@[simp] theorem bufReset_cfg (s : State) : (bufReset s).cfg = s.cfg := rfl
@[simp] theorem bufReset_crc (s : State) : (bufReset s).crc = s.crc := rfl
@[simp] theorem bufReset_lock (s : State) : (bufReset s).lock = s.lock := rfl
@[simp] theorem bufReset_flock (s : State) : (bufReset s).flock = s.flock := rfl
@[simp] theorem bufReset_pageEr (s : State) : (bufReset s).pageEr = s.pageEr := rfl
@[simp] theorem bufReset_pagePg (s : State) : (bufReset s).pagePg = s.pagePg := rfl
@[simp] theorem bufReset_bsy (s : State) : (bufReset s).bsy = s.bsy := rfl
@[simp] theorem bufReset_addr (s : State) : (bufReset s).addr = s.addr := rfl
@[simp] theorem bufReset_keySeq (s : State) : (bufReset s).keySeq = s.keySeq := rfl
@[simp] theorem bufReset_modeKeySeq (s : State) : (bufReset s).modeKeySeq = s.modeKeySeq := rfl
@[simp] theorem bufReset_barred (s : State) : (bufReset s).barred = s.barred := rfl
@[simp] theorem bufReset_pending (s : State) : (bufReset s).pending = s.pending := rfl
@[simp] theorem bufReset_buf (s : State) : (bufReset s).buf = List.replicate s.cfg.wordsPerPage 0xFFFFFFFF := rfl
@[simp] theorem bufReset_loaded (s : State) : (bufReset s).loaded = List.replicate s.cfg.wordsPerPage false := rfl
@[simp] theorem bufReset_bufState (s : State) : (bufReset s).bufState = .ready := rfl
@[simp] theorem bufReset_bufPage (s : State) : (bufReset s).bufPage = none := rfl
@[simp] theorem bufReset_latch (s : State) : (bufReset s).latch = none := rfl
@[simp] theorem bufReset_flash (s : State) : (bufReset s).flash = s.flash := rfl
@[simp] theorem bufReset_faults (s : State) : (bufReset s).faults = s.faults := rfl
@[simp] theorem bufReset_host (s : State) : (bufReset s).host = s.host := rfl
@[simp] theorem bufReset_rdata (s : State) : (bufReset s).rdata = s.rdata := rfl
@[simp] theorem bufReset_draws (s : State) : (bufReset s).draws = s.draws := rfl
@[simp] theorem bufReset_flashOps (s : State) : (bufReset s).flashOps = s.flashOps := rfl
@[simp] theorem bufReset_bus (s : State) : (bufReset s).bus = s.bus := rfl

/-! ## bufLoad -/

@[simp] theorem bufLoad_cfg (s : State) : (bufLoad s).cfg = s.cfg := by
  unfold bufLoad; split <;> rfl
@[simp] theorem bufLoad_crc (s : State) : (bufLoad s).crc = s.crc := by
  unfold bufLoad; split <;> rfl
@[simp] theorem bufLoad_lock (s : State) : (bufLoad s).lock = s.lock := by
  unfold bufLoad; split <;> rfl
@[simp] theorem bufLoad_flock (s : State) : (bufLoad s).flock = s.flock := by
  unfold bufLoad; split <;> rfl
@[simp] theorem bufLoad_pageEr (s : State) : (bufLoad s).pageEr = s.pageEr := by
  unfold bufLoad; split <;> rfl
@[simp] theorem bufLoad_pagePg (s : State) : (bufLoad s).pagePg = s.pagePg := by
  unfold bufLoad; split <;> rfl
@[simp] theorem bufLoad_addr (s : State) : (bufLoad s).addr = s.addr := by
  unfold bufLoad; split <;> rfl
@[simp] theorem bufLoad_keySeq (s : State) : (bufLoad s).keySeq = s.keySeq := by
  unfold bufLoad; split <;> rfl
@[simp] theorem bufLoad_modeKeySeq (s : State) : (bufLoad s).modeKeySeq = s.modeKeySeq := by
  unfold bufLoad; split <;> rfl
@[simp] theorem bufLoad_barred (s : State) : (bufLoad s).barred = s.barred := by
  unfold bufLoad; split <;> rfl
@[simp] theorem bufLoad_bufState (s : State) : (bufLoad s).bufState = s.bufState := by
  unfold bufLoad; split <;> rfl
@[simp] theorem bufLoad_flash (s : State) : (bufLoad s).flash = s.flash := by
  unfold bufLoad; split <;> rfl
@[simp] theorem bufLoad_faults (s : State) : (bufLoad s).faults = s.faults := by
  unfold bufLoad; split <;> rfl
@[simp] theorem bufLoad_host (s : State) : (bufLoad s).host = s.host := by
  unfold bufLoad; split <;> rfl
@[simp] theorem bufLoad_rdata (s : State) : (bufLoad s).rdata = s.rdata := by
  unfold bufLoad; split <;> rfl
@[simp] theorem bufLoad_draws (s : State) : (bufLoad s).draws = s.draws := by
  unfold bufLoad; split <;> rfl
@[simp] theorem bufLoad_flashOps (s : State) : (bufLoad s).flashOps = s.flashOps := by
  unfold bufLoad; split <;> rfl
@[simp] theorem bufLoad_bus (s : State) : (bufLoad s).bus = s.bus := by
  unfold bufLoad; split <;> rfl

/-! ## applyMode -/

@[simp] theorem applyMode_cfg (pg er : Bool) (s : State) : (applyMode pg er s).cfg = s.cfg := by
  unfold applyMode; split <;> rfl
@[simp] theorem applyMode_crc (pg er : Bool) (s : State) : (applyMode pg er s).crc = s.crc := by
  unfold applyMode; split <;> rfl
@[simp] theorem applyMode_lock (pg er : Bool) (s : State) : (applyMode pg er s).lock = s.lock := by
  unfold applyMode; split <;> rfl
@[simp] theorem applyMode_flock (pg er : Bool) (s : State) : (applyMode pg er s).flock = s.flock := by
  unfold applyMode; split <;> rfl
@[simp] theorem applyMode_bsy (pg er : Bool) (s : State) : (applyMode pg er s).bsy = s.bsy := by
  unfold applyMode; split <;> rfl
@[simp] theorem applyMode_addr (pg er : Bool) (s : State) : (applyMode pg er s).addr = s.addr := by
  unfold applyMode; split <;> rfl
@[simp] theorem applyMode_keySeq (pg er : Bool) (s : State) : (applyMode pg er s).keySeq = s.keySeq := by
  unfold applyMode; split <;> rfl
@[simp] theorem applyMode_modeKeySeq (pg er : Bool) (s : State) : (applyMode pg er s).modeKeySeq = s.modeKeySeq := by
  unfold applyMode; split <;> rfl
@[simp] theorem applyMode_barred (pg er : Bool) (s : State) : (applyMode pg er s).barred = s.barred := by
  unfold applyMode; split <;> rfl
@[simp] theorem applyMode_pending (pg er : Bool) (s : State) : (applyMode pg er s).pending = s.pending := by
  unfold applyMode; split <;> rfl
@[simp] theorem applyMode_buf (pg er : Bool) (s : State) : (applyMode pg er s).buf = s.buf := by
  unfold applyMode; split <;> rfl
@[simp] theorem applyMode_loaded (pg er : Bool) (s : State) : (applyMode pg er s).loaded = s.loaded := by
  unfold applyMode; split <;> rfl
@[simp] theorem applyMode_bufPage (pg er : Bool) (s : State) : (applyMode pg er s).bufPage = s.bufPage := by
  unfold applyMode; split <;> rfl
@[simp] theorem applyMode_flash (pg er : Bool) (s : State) : (applyMode pg er s).flash = s.flash := by
  unfold applyMode; split <;> rfl
@[simp] theorem applyMode_faults (pg er : Bool) (s : State) : (applyMode pg er s).faults = s.faults := by
  unfold applyMode; split <;> rfl
@[simp] theorem applyMode_host (pg er : Bool) (s : State) : (applyMode pg er s).host = s.host := by
  unfold applyMode; split <;> rfl
@[simp] theorem applyMode_rdata (pg er : Bool) (s : State) : (applyMode pg er s).rdata = s.rdata := by
  unfold applyMode; split <;> rfl
@[simp] theorem applyMode_draws (pg er : Bool) (s : State) : (applyMode pg er s).draws = s.draws := by
  unfold applyMode; split <;> rfl
@[simp] theorem applyMode_flashOps (pg er : Bool) (s : State) : (applyMode pg er s).flashOps = s.flashOps := by
  unfold applyMode; split <;> rfl
@[simp] theorem applyMode_bus (pg er : Bool) (s : State) : (applyMode pg er s).bus = s.bus := by
  unfold applyMode; split <;> rfl

@[simp] theorem applyMode_pagePg (pg er : Bool) (s : State) : (applyMode pg er s).pagePg = pg := by
  unfold applyMode; split <;> rfl
@[simp] theorem applyMode_pageEr (pg er : Bool) (s : State) : (applyMode pg er s).pageEr = er := by
  unfold applyMode; split <;> rfl

/-! ## complete -/

@[simp] theorem complete_cfg (s : State) : (complete s).cfg = s.cfg := by
  unfold complete; split <;> rfl
@[simp] theorem complete_crc (s : State) : (complete s).crc = s.crc := by
  unfold complete; split <;> rfl
@[simp] theorem complete_lock (s : State) : (complete s).lock = s.lock := by
  unfold complete; split <;> rfl
@[simp] theorem complete_flock (s : State) : (complete s).flock = s.flock := by
  unfold complete; split <;> rfl
@[simp] theorem complete_pageEr (s : State) : (complete s).pageEr = s.pageEr := by
  unfold complete; split <;> rfl
@[simp] theorem complete_pagePg (s : State) : (complete s).pagePg = s.pagePg := by
  unfold complete; split <;> rfl
@[simp] theorem complete_addr (s : State) : (complete s).addr = s.addr := by
  unfold complete; split <;> rfl
@[simp] theorem complete_keySeq (s : State) : (complete s).keySeq = s.keySeq := by
  unfold complete; split <;> rfl
@[simp] theorem complete_modeKeySeq (s : State) : (complete s).modeKeySeq = s.modeKeySeq := by
  unfold complete; split <;> rfl
@[simp] theorem complete_barred (s : State) : (complete s).barred = s.barred := by
  unfold complete; split <;> rfl
@[simp] theorem complete_buf (s : State) : (complete s).buf = s.buf := by
  unfold complete; split <;> rfl
@[simp] theorem complete_loaded (s : State) : (complete s).loaded = s.loaded := by
  unfold complete; split <;> rfl
@[simp] theorem complete_bufState (s : State) : (complete s).bufState = s.bufState := by
  unfold complete; split <;> rfl
@[simp] theorem complete_bufPage (s : State) : (complete s).bufPage = s.bufPage := by
  unfold complete; split <;> rfl
@[simp] theorem complete_latch (s : State) : (complete s).latch = s.latch := by
  unfold complete; split <;> rfl
@[simp] theorem complete_faults (s : State) : (complete s).faults = s.faults := by
  unfold complete; split <;> rfl
@[simp] theorem complete_host (s : State) : (complete s).host = s.host := by
  unfold complete; split <;> rfl
@[simp] theorem complete_rdata (s : State) : (complete s).rdata = s.rdata := by
  unfold complete; split <;> rfl
@[simp] theorem complete_bus (s : State) : (complete s).bus = s.bus := by
  unfold complete; split <;> rfl

@[simp] theorem complete_bsy (s : State) : (complete s).bsy = false := by
  unfold complete; split <;> simp_all

/-! ## resetBlock -/

@[simp] theorem resetBlock_cfg (s : State) : (resetBlock s).cfg = s.cfg := rfl
@[simp] theorem resetBlock_crc (s : State) : (resetBlock s).crc = 0xFFFF := rfl
@[simp] theorem resetBlock_lock (s : State) : (resetBlock s).lock = true := rfl
@[simp] theorem resetBlock_flock (s : State) : (resetBlock s).flock = true := rfl
@[simp] theorem resetBlock_pageEr (s : State) : (resetBlock s).pageEr = false := rfl
@[simp] theorem resetBlock_pagePg (s : State) : (resetBlock s).pagePg = false := rfl
@[simp] theorem resetBlock_bsy (s : State) : (resetBlock s).bsy = false := rfl
@[simp] theorem resetBlock_addr (s : State) : (resetBlock s).addr = 0 := rfl
@[simp] theorem resetBlock_keySeq (s : State) : (resetBlock s).keySeq = .idle := rfl
@[simp] theorem resetBlock_modeKeySeq (s : State) : (resetBlock s).modeKeySeq = .idle := rfl
@[simp] theorem resetBlock_barred (s : State) : (resetBlock s).barred = false := rfl
@[simp] theorem resetBlock_pending (s : State) : (resetBlock s).pending = .none := rfl
@[simp] theorem resetBlock_buf (s : State) : (resetBlock s).buf = freeWords (interruptedFlash s).2 s.cfg.wordsPerPage := rfl
@[simp] theorem resetBlock_loaded (s : State) : (resetBlock s).loaded = List.replicate s.cfg.wordsPerPage false := rfl
@[simp] theorem resetBlock_bufState (s : State) : (resetBlock s).bufState = .invalid := rfl
@[simp] theorem resetBlock_bufPage (s : State) : (resetBlock s).bufPage = none := rfl
@[simp] theorem resetBlock_latch (s : State) : (resetBlock s).latch = none := rfl
@[simp] theorem resetBlock_flash (s : State) : (resetBlock s).flash = (interruptedFlash s).1 := rfl
@[simp] theorem resetBlock_faults (s : State) : (resetBlock s).faults = s.faults := rfl
@[simp] theorem resetBlock_host (s : State) : (resetBlock s).host = s.host := rfl
@[simp] theorem resetBlock_rdata (s : State) : (resetBlock s).rdata = s.rdata := rfl
@[simp] theorem resetBlock_draws (s : State) : (resetBlock s).draws = (interruptedFlash s).2 + s.cfg.wordsPerPage := rfl
@[simp] theorem resetBlock_flashOps (s : State) : (resetBlock s).flashOps = s.flashOps := rfl
@[simp] theorem resetBlock_bus (s : State) : (resetBlock s).bus = s.bus := rfl

/-! ## hostNext -/

@[simp] theorem hostNext_cfg (s : State) : (hostNext s).cfg = s.cfg := rfl
@[simp] theorem hostNext_crc (s : State) : (hostNext s).crc = s.crc := rfl
@[simp] theorem hostNext_lock (s : State) : (hostNext s).lock = s.lock := rfl
@[simp] theorem hostNext_flock (s : State) : (hostNext s).flock = s.flock := rfl
@[simp] theorem hostNext_pageEr (s : State) : (hostNext s).pageEr = s.pageEr := rfl
@[simp] theorem hostNext_pagePg (s : State) : (hostNext s).pagePg = s.pagePg := rfl
@[simp] theorem hostNext_bsy (s : State) : (hostNext s).bsy = s.bsy := rfl
@[simp] theorem hostNext_addr (s : State) : (hostNext s).addr = s.addr := rfl
@[simp] theorem hostNext_keySeq (s : State) : (hostNext s).keySeq = s.keySeq := rfl
@[simp] theorem hostNext_modeKeySeq (s : State) : (hostNext s).modeKeySeq = s.modeKeySeq := rfl
@[simp] theorem hostNext_barred (s : State) : (hostNext s).barred = s.barred := rfl
@[simp] theorem hostNext_pending (s : State) : (hostNext s).pending = s.pending := rfl
@[simp] theorem hostNext_buf (s : State) : (hostNext s).buf = s.buf := rfl
@[simp] theorem hostNext_loaded (s : State) : (hostNext s).loaded = s.loaded := rfl
@[simp] theorem hostNext_bufState (s : State) : (hostNext s).bufState = s.bufState := rfl
@[simp] theorem hostNext_bufPage (s : State) : (hostNext s).bufPage = s.bufPage := rfl
@[simp] theorem hostNext_latch (s : State) : (hostNext s).latch = s.latch := rfl
@[simp] theorem hostNext_flash (s : State) : (hostNext s).flash = s.flash := rfl
@[simp] theorem hostNext_faults (s : State) : (hostNext s).faults = s.faults := rfl
@[simp] theorem hostNext_rdata (s : State) : (hostNext s).rdata = s.rdata := rfl
@[simp] theorem hostNext_draws (s : State) : (hostNext s).draws = s.draws := rfl
@[simp] theorem hostNext_flashOps (s : State) : (hostNext s).flashOps = s.flashOps := rfl
@[simp] theorem hostNext_bus (s : State) : (hostNext s).bus = s.bus := rfl

/-! ## hostSet -/

@[simp] theorem hostSet_cfg (r : HostReg) (v : Word) (s : State) : (hostSet r v s).cfg = s.cfg := rfl
@[simp] theorem hostSet_crc (r : HostReg) (v : Word) (s : State) : (hostSet r v s).crc = s.crc := rfl
@[simp] theorem hostSet_lock (r : HostReg) (v : Word) (s : State) : (hostSet r v s).lock = s.lock := rfl
@[simp] theorem hostSet_flock (r : HostReg) (v : Word) (s : State) : (hostSet r v s).flock = s.flock := rfl
@[simp] theorem hostSet_pageEr (r : HostReg) (v : Word) (s : State) : (hostSet r v s).pageEr = s.pageEr := rfl
@[simp] theorem hostSet_pagePg (r : HostReg) (v : Word) (s : State) : (hostSet r v s).pagePg = s.pagePg := rfl
@[simp] theorem hostSet_bsy (r : HostReg) (v : Word) (s : State) : (hostSet r v s).bsy = s.bsy := rfl
@[simp] theorem hostSet_addr (r : HostReg) (v : Word) (s : State) : (hostSet r v s).addr = s.addr := rfl
@[simp] theorem hostSet_keySeq (r : HostReg) (v : Word) (s : State) : (hostSet r v s).keySeq = s.keySeq := rfl
@[simp] theorem hostSet_modeKeySeq (r : HostReg) (v : Word) (s : State) : (hostSet r v s).modeKeySeq = s.modeKeySeq := rfl
@[simp] theorem hostSet_barred (r : HostReg) (v : Word) (s : State) : (hostSet r v s).barred = s.barred := rfl
@[simp] theorem hostSet_pending (r : HostReg) (v : Word) (s : State) : (hostSet r v s).pending = s.pending := rfl
@[simp] theorem hostSet_buf (r : HostReg) (v : Word) (s : State) : (hostSet r v s).buf = s.buf := rfl
@[simp] theorem hostSet_loaded (r : HostReg) (v : Word) (s : State) : (hostSet r v s).loaded = s.loaded := rfl
@[simp] theorem hostSet_bufState (r : HostReg) (v : Word) (s : State) : (hostSet r v s).bufState = s.bufState := rfl
@[simp] theorem hostSet_bufPage (r : HostReg) (v : Word) (s : State) : (hostSet r v s).bufPage = s.bufPage := rfl
@[simp] theorem hostSet_latch (r : HostReg) (v : Word) (s : State) : (hostSet r v s).latch = s.latch := rfl
@[simp] theorem hostSet_flash (r : HostReg) (v : Word) (s : State) : (hostSet r v s).flash = s.flash := rfl
@[simp] theorem hostSet_faults (r : HostReg) (v : Word) (s : State) : (hostSet r v s).faults = s.faults := rfl
@[simp] theorem hostSet_rdata (r : HostReg) (v : Word) (s : State) : (hostSet r v s).rdata = s.rdata := rfl
@[simp] theorem hostSet_draws (r : HostReg) (v : Word) (s : State) : (hostSet r v s).draws = s.draws := rfl
@[simp] theorem hostSet_flashOps (r : HostReg) (v : Word) (s : State) : (hostSet r v s).flashOps = s.flashOps := rfl
@[simp] theorem hostSet_bus (r : HostReg) (v : Word) (s : State) : (hostSet r v s).bus = s.bus := rfl

/-! ## hostHalt -/

@[simp] theorem hostHalt_cfg (s : State) : (hostHalt s).cfg = s.cfg := rfl
@[simp] theorem hostHalt_crc (s : State) : (hostHalt s).crc = s.crc := rfl
@[simp] theorem hostHalt_lock (s : State) : (hostHalt s).lock = s.lock := rfl
@[simp] theorem hostHalt_flock (s : State) : (hostHalt s).flock = s.flock := rfl
@[simp] theorem hostHalt_pageEr (s : State) : (hostHalt s).pageEr = s.pageEr := rfl
@[simp] theorem hostHalt_pagePg (s : State) : (hostHalt s).pagePg = s.pagePg := rfl
@[simp] theorem hostHalt_bsy (s : State) : (hostHalt s).bsy = s.bsy := rfl
@[simp] theorem hostHalt_addr (s : State) : (hostHalt s).addr = s.addr := rfl
@[simp] theorem hostHalt_keySeq (s : State) : (hostHalt s).keySeq = s.keySeq := rfl
@[simp] theorem hostHalt_modeKeySeq (s : State) : (hostHalt s).modeKeySeq = s.modeKeySeq := rfl
@[simp] theorem hostHalt_barred (s : State) : (hostHalt s).barred = s.barred := rfl
@[simp] theorem hostHalt_pending (s : State) : (hostHalt s).pending = s.pending := rfl
@[simp] theorem hostHalt_buf (s : State) : (hostHalt s).buf = s.buf := rfl
@[simp] theorem hostHalt_loaded (s : State) : (hostHalt s).loaded = s.loaded := rfl
@[simp] theorem hostHalt_bufState (s : State) : (hostHalt s).bufState = s.bufState := rfl
@[simp] theorem hostHalt_bufPage (s : State) : (hostHalt s).bufPage = s.bufPage := rfl
@[simp] theorem hostHalt_latch (s : State) : (hostHalt s).latch = s.latch := rfl
@[simp] theorem hostHalt_flash (s : State) : (hostHalt s).flash = s.flash := rfl
@[simp] theorem hostHalt_faults (s : State) :
    (hostHalt s).faults = if s.Locked then s.faults else s.faults ++ [⟨.notRelocked, none, none⟩] := rfl
@[simp] theorem hostHalt_host (s : State) : (hostHalt s).host = { s.host with halted := true } := rfl
@[simp] theorem hostHalt_rdata (s : State) : (hostHalt s).rdata = s.rdata := rfl
@[simp] theorem hostHalt_draws (s : State) : (hostHalt s).draws = s.draws := rfl
@[simp] theorem hostHalt_flashOps (s : State) : (hostHalt s).flashOps = s.flashOps := rfl
@[simp] theorem hostHalt_bus (s : State) : (hostHalt s).bus = s.bus := rfl

end Sys2Proof.Machine
end

