-- ==== Sys2Proof/Laws/Ops.lean ====
section
/-! SUPPORT. What each shared operation can do, said once: the end of a write, flash reads, the checks and effects of a
`CTLR` write, the completion step and reset. -/

namespace Sys2Proof.Machine

/-! ## The end of a write -/

theorem finishWrite_ok {t : Txn} {s s' : State} : finishWrite t s (.ok s') = .next (acknowledge s') := rfl

theorem finishWrite_error {t : Txn} {s : State} {v : Violation} :
    finishWrite t s (.error v) = .next (acknowledge (raise v.code t v.info s)) := rfl

/-- A write's answer is its effect, or one fault record and nothing else. -/
theorem finishWrite_cases {t : Txn} {s s' : State} {r : Except Violation State} (h : finishWrite t s r = .next s') :
    (∃ s₁, r = .ok s₁ ∧ s' = acknowledge s₁) ∨
    (∃ v, r = .error v ∧ s' = acknowledge (raise v.code t v.info s)) := by
  cases r with
  | ok s₁ => exact .inl ⟨s₁, rfl, (Host.Outcome.next.inj h).symm⟩
  | error v => exact .inr ⟨v, rfl, (Host.Outcome.next.inj h).symm⟩

/-! ## Flash reads -/

/-- A flash read changes nothing but the count of free values. -/
theorem readFlashBytes_state (s : State) (a n : Nat) :
    ∃ d, (readFlashBytes s a n).2 = { s with draws := d } ∧ s.draws ≤ d := by
  induction n generalizing s a with
  | zero => exact ⟨s.draws, rfl, le_rfl⟩
  | succ n ih =>
    obtain ⟨d, hd, hle⟩ := ih (readFlashByte s a).2 (a + 1)
    refine ⟨d, ?_⟩
    simp only [readFlashBytes, hd]
    unfold readFlashByte at hle ⊢
    split at hle <;> simp_all
    omega

/-- Away from an operation, a flash read gives the contents and leaves the state as it is. -/
theorem readFlashBytes_idle {s : State} {a n : Nat} (h : ∀ i, i < n → underOperation s (a + i) = false) :
    readFlashBytes s a n = (s.flash.readBytes a n, s) := by
  induction n generalizing a with
  | zero => rfl
  | succ n ih =>
    have h0 := h 0 (by omega)
    have h1 : ∀ i, i < n → underOperation s (a + 1 + i) = false := fun i hi => by
      rw [show a + 1 + i = a + (i + 1) by omega]
      exact h (i + 1) (by omega)
    simp only [Nat.add_zero] at h0
    simp only [readFlashBytes, readFlashByte, h0, Bool.false_eq_true, if_false, ih h1]
    simp only [Memory.readBytes, List.range_succ_eq_map, List.map_cons, List.map_map]
    congr 2
    exact List.map_congr_left fun i _ => by simp [Function.comp]; congr 1; omega

/-! ## `CTLR` writes -/

/-- The states a `CTLR` write of d can lead to when no check of it fails: itself, a lock action, or the new modes and
then an action whose precondition holds (R161). -/
theorem ctlrWrite_ok {d : Word} {s s' : State} (h : ctlrWrite d s = .ok s') :
    s' = s ∨
    (s.bsy = false ∧ s.lock = false ∧ s' = lockSet s) ∨
    (s.bsy = false ∧ s.flock = false ∧ s' = flockSet s) ∨
    (s.bsy = false ∧ s.lock = false ∧ s.flock = false ∧
      (s' = applyMode (dPagePg d) (dPageEr d) s ∨
       ∃ act, act ≠ .lockSet ∧ act ≠ .flockSet ∧ actionCheck (dPagePg d) (dPageEr d) s act = none ∧
        s' = performAction (applyMode (dPagePg d) (dPageEr d) s) act)) := by
  have hmem : ∀ act, act ∈ ctlrActions d s →
      (act = .lockSet → s.lock = false) ∧ (act = .flockSet → s.flock = false) := by
    intro act hact
    refine ⟨?_, ?_⟩ <;> rintro rfl <;> revert hact <;> unfold ctlrActions <;>
      rcases dStrt d <;> rcases dBufLoad d <;> rcases dBufRst d <;> rcases dLock d <;> rcases dFlock d <;>
      rcases s.lock <;> rcases s.flock <;> simp
  have happly : modeChanges d s = false → applyMode (dPagePg d) (dPageEr d) s = s := by
    intro hm
    simp only [modeChanges, Bool.or_eq_false_iff, bne_eq_false_iff_eq] at hm
    unfold applyMode
    rw [hm.1, hm.2]
    cases hp : s.pagePg <;> simp <;> cases s <;> simp_all
  unfold ctlrWrite at h
  split at h
  · cases h
  split at h
  · exact .inl (Except.ok.inj h).symm
  split at h
  · cases h
  rename_i hb
  have hb : s.bsy = false := by simpa using hb
  split at h
  · cases h
  rename_i hlen
  split at h
  · rename_i hl
    split at h
    · cases h
    · exact .inr (.inl ⟨hb, (hmem .lockSet (by simp [hl])).1 rfl, (Except.ok.inj h).symm⟩)
  split at h
  · rename_i hl
    split at h
    · cases h
    · exact .inr (.inr (.inl ⟨hb, (hmem .flockSet (by simp [hl])).2 rfl, (Except.ok.inj h).symm⟩))
  rename_i hnl hnf
  split at h
  · cases h
  rename_i hu
  have hu : s.lock = false ∧ s.flock = false := by simpa using hu
  refine .inr (.inr (.inr ⟨hb, hu.1, hu.2, ?_⟩))
  have hmode : (if modeChanges d s then applyMode (dPagePg d) (dPageEr d) s else s) =
      applyMode (dPagePg d) (dPageEr d) s := by
    cases hm : modeChanges d s
    · simp [happly hm]
    · simp
  unfold modesThenAction at h
  cases hacts : ctlrActions d s with
  | nil =>
    rw [hacts] at h
    simp only [List.head?_nil, Option.bind_none, Option.elim_none, hmode] at h
    exact .inl (Except.ok.inj h).symm
  | cons act rest =>
    have hrest : rest = [] := by
      rw [hacts] at hlen
      cases rest with
      | nil => rfl
      | cons => simp at hlen
    subst hrest
    rw [hacts] at h hnl hnf
    simp only [List.head?_cons, Option.bind_some, Option.elim_some, hmode] at h
    cases hc : actionCheck (dPagePg d) (dPageEr d) s act with
    | some v => rw [hc] at h; cases h
    | none =>
      rw [hc] at h
      exact .inr ⟨act, by simpa using hnl, by simpa using hnf, hc, (Except.ok.inj h).symm⟩

/-- A `STRT` that its precondition admits is of a page address, in exactly one mode; a commit has a ready buffer, no
word latched and no other page's words (R163-R165). -/
theorem strtCheck_none {pg er : Bool} {s : State} (h : strtCheck pg er s = none) :
    IsPage s.cfg s.addr.toNat ∧
    ((er = true ∧ pg = false) ∨
     (er = false ∧ pg = true ∧ s.bufState = .ready ∧ s.latch = none ∧
       (s.bufPage = none ∨ s.bufPage = some s.addr))) := by
  unfold strtCheck at h
  cases er <;> cases pg <;> simp only at h
  · cases h
  · split at h
    · cases h
    rename_i hp
    split at h
    · cases h
    rename_i hb
    split at h
    · cases h
    rename_i hq
    refine ⟨not_not.1 hp, .inr ⟨rfl, rfl, ?_, ?_, ?_⟩⟩
    · exact not_not.1 fun hn => hb (.inl hn)
    · exact not_not.1 fun hn => hb (.inr hn)
    · by_cases h1 : s.bufPage = none
      · exact .inl h1
      · exact .inr (not_not.1 fun hn => hq ⟨h1, hn⟩)
  · split at h
    · cases h
    · exact ⟨not_not.1 ‹_›, .inl ⟨rfl, rfl⟩⟩
  · cases h

/-- A `BUFLOAD` that its precondition admits has a ready buffer and a latched word for an unloaded slot of the buffer's
page, in page-program mode (R167). -/
theorem bufLoadCheck_none {pg er : Bool} {s : State} (h : bufLoadCheck pg er s = none) :
    pg = true ∧ er = false ∧ s.bufState = .ready ∧
    ∃ a d, s.latch = some (a, d) ∧ (s.bufPage = none ∨ s.bufPage = some (pageWord s.cfg a)) ∧
      s.loaded.getD (slotOf s.cfg a.toNat) false = false := by
  unfold bufLoadCheck at h
  split at h
  · cases h
  rename_i hm
  split at h
  · cases h
  rename_i hb
  split at h
  · cases h
  rename_i a d hl
  split at h
  · cases h
  rename_i hp
  split at h
  · cases h
  rename_i hs
  refine ⟨(not_not.1 hm).1, (not_not.1 hm).2, not_not.1 hb, a, d, hl, ?_, by simpa using hs⟩
  by_cases h1 : s.bufPage = none
  · exact .inl h1
  · exact .inr (not_not.1 fun hn => hp ⟨h1, hn⟩)

theorem bufRstCheck_none {pg er : Bool} (h : bufRstCheck pg er = none) : pg = true ∧ er = false := by
  unfold bufRstCheck at h
  split at h
  · cases h
  · exact not_not.1 ‹_›

/-! ## The completion step and reset -/

/-- The finished flash array keeps the canonical form, and every byte outside the page of the pending operation
(R180). -/
theorem finishedFlash_wf {s : State} (h : s.flash.Wf) : (finishedFlash s).1.Wf := by
  unfold finishedFlash
  split
  · exact h
  · exact h
  · exact Memory.wf_writeBytes h _ _
  · split
    · exact Memory.wf_writeBytes h _ _
    · split <;> exact Memory.wf_writeBytes h _ _

@[simp] theorem length_freeBytes (k n : Nat) : (freeBytes k n).length = n := by simp [freeBytes]

@[simp] theorem length_freeWords (k n : Nat) : (freeWords k n).length = n := by simp [freeWords]

theorem interruptedFlash_wf {s : State} (h : s.flash.Wf) : (interruptedFlash s).1.Wf := by
  unfold interruptedFlash
  split
  · exact h
  · exact h
  all_goals
    split
    · exact Memory.wf_writeBytes h _ _
    · split
      · exact finishedFlash_wf h
      · exact h

end Sys2Proof.Machine
end

