-- ==== Sys2Proof/Laws/Exec.lean ====
section
/-! SUPPORT. What a transaction, a host statement and a step can do, said once (inversion lemmas), and the `CTLR` writes
of one action. The lemmas about every transaction or step cite these and unfold no meaning. -/

namespace Sys2Proof.Machine

/-! ## One transaction -/

/-- What a transaction that answers next can do: return data, update the CRC register, record one fault, or, while the
controller is idle, one of the accepted controller writes. A write that does nothing is the second case. -/
theorem exec_cases {i : Instr} {s t : State} (h : exec i s = .next t) :
    (∃ v d, s.draws ≤ d ∧ (encode s.cfg i).isWrite = false ∧ t = { s with rdata := some v, draws := d }) ∨
    (∃ c, (encode s.cfg i).isWrite = true ∧ t = { s with crc := c, rdata := none }) ∨
    (∃ v : Violation, (encode s.cfg i).isWrite = true ∧ t = acknowledge (raise v.code (encode s.cfg i) v.info s)) ∨
    (s.bsy = false ∧
      ((∃ d, i = .fkeyrWr d ∧ s.barred = false ∧ t = acknowledge (mainKey (encode s.cfg i) d s)) ∨
       (∃ d, i = .fmodekeyrWr d ∧ s.barred = false ∧ s.lock = false ∧
         t = acknowledge (modeKey (encode s.cfg i) d s)) ∨
       (∃ d, i = .faddrWr d ∧ t = acknowledge { s with addr := d }) ∨
       (∃ d, i = .fctlrWr d ∧ ∃ s', ctlrWrite d s = .ok s' ∧ t = acknowledge s') ∨
       (∃ a d, i = .flashWr32 a d ∧ s.Unlocked ∧ s.pagePg = true ∧ s.pageEr = false ∧ s.bufState = .ready ∧
         s.latch = none ∧ t = acknowledge { s with latch := some (a, d) }))) := by
  have read : ∀ n a, flashRead n a s = .next t → ∃ v d, s.draws ≤ d ∧ t = { s with rdata := some v, draws := d } := by
    intro n a hr
    obtain ⟨d, hd, hle⟩ := readFlashBytes_state s a.toNat n
    simp only [flashRead, hd] at hr
    exact ⟨_, d, hle, (Host.Outcome.next.inj hr).symm⟩
  cases i with
  | crcFeed b => exact .inr (.inl ⟨_, by simp [encode], (Host.Outcome.next.inj h).symm⟩)
  | crcRead16 => exact .inl ⟨_, s.draws, le_rfl, by simp [encode], (Host.Outcome.next.inj h).symm⟩
  | crcRead32 => exact .inl ⟨_, s.draws, le_rfl, by simp [encode], (Host.Outcome.next.inj h).symm⟩
  | crcCtrlWr d =>
    rcases finishWrite_cases h with ⟨s', h', rfl⟩ | ⟨v, -, rfl⟩
    · refine .inr (.inl ?_)
      unfold crcCtrlWrite at h'
      split at h'
      · cases h'
      · split at h' <;> cases h'
        · exact ⟨0xFFFF, by simp [encode], rfl⟩
        · exact ⟨s.crc, by simp [encode], rfl⟩
    · exact .inr (.inr (.inl ⟨v, by simp [encode], rfl⟩))
  | fkeyrWr d =>
    rcases finishWrite_cases h with ⟨s', h', rfl⟩ | ⟨v, -, rfl⟩
    · unfold keyrWrite at h'
      split at h'
      · cases h'
      · split at h' <;> cases h'
        exact .inr (.inr (.inr ⟨by simpa using ‹¬ s.bsy = true›, .inl ⟨d, rfl, by simpa using ‹¬ s.barred = true›, rfl⟩⟩))
    · exact .inr (.inr (.inl ⟨v, by simp [encode], rfl⟩))
  | fstatrRd => exact .inl ⟨_, s.draws, le_rfl, by simp [encode], (Host.Outcome.next.inj h).symm⟩
  | fctlrRd => exact .inl ⟨_, s.draws, le_rfl, by simp [encode], (Host.Outcome.next.inj h).symm⟩
  | fctlrWr d =>
    rcases finishWrite_cases h with ⟨s', h', rfl⟩ | ⟨v, -, rfl⟩
    · rcases ctlrWrite_ok h' with rfl | ⟨hb, -⟩ | ⟨hb, -⟩ | ⟨hb, -⟩
      · exact .inr (.inl ⟨s'.crc, by simp [encode], rfl⟩)
      all_goals exact .inr (.inr (.inr ⟨hb, .inr (.inr (.inr (.inl ⟨d, rfl, s', h', rfl⟩)))⟩))
    · exact .inr (.inr (.inl ⟨v, by simp [encode], rfl⟩))
  | faddrRd => exact .inl ⟨_, s.draws, le_rfl, by simp [encode], (Host.Outcome.next.inj h).symm⟩
  | faddrWr d =>
    rcases finishWrite_cases h with ⟨s', h', rfl⟩ | ⟨v, -, rfl⟩
    · unfold addrWrite at h'
      split at h' <;> cases h'
      exact .inr (.inr (.inr ⟨by simpa using ‹¬ s.bsy = true›, .inr (.inr (.inl ⟨d, rfl, rfl⟩))⟩))
    · exact .inr (.inr (.inl ⟨v, by simp [encode], rfl⟩))
  | fmodekeyrWr d =>
    rcases finishWrite_cases h with ⟨s', h', rfl⟩ | ⟨v, -, rfl⟩
    · unfold modeKeyrWrite at h'
      split at h'
      · cases h'
      · split at h'
        · cases h'
        · split at h' <;> cases h'
          exact .inr (.inr (.inr ⟨by simpa using ‹¬ s.bsy = true›,
            .inr (.inl ⟨d, rfl, by simpa using ‹¬ s.barred = true›, by simpa using ‹¬ s.lock = true›, rfl⟩)⟩))
    · exact .inr (.inr (.inl ⟨v, by simp [encode], rfl⟩))
  | flashRd8 a =>
    obtain ⟨v, d, hd, ht⟩ := read 1 a h
    exact .inl ⟨v, d, hd, by simp [encode], ht⟩
  | flashRd16 a =>
    obtain ⟨v, d, hd, ht⟩ := read 2 a h
    exact .inl ⟨v, d, hd, by simp [encode], ht⟩
  | flashRd32 a =>
    obtain ⟨v, d, hd, ht⟩ := read 4 a h
    exact .inl ⟨v, d, hd, by simp [encode], ht⟩
  | flashWr32 a d =>
    rcases finishWrite_cases h with ⟨s', h', rfl⟩ | ⟨v, -, rfl⟩
    · unfold flashDataWrite at h'
      split at h'
      · cases h'
      rename_i hb
      split at h'
      · cases h'
      rename_i hu
      split at h'
      · cases h'
      rename_i hm
      split at h' <;> cases h'
      rename_i hr
      rw [not_or, not_not, not_not] at hr
      exact .inr (.inr (.inr ⟨by simpa using hb, .inr (.inr (.inr (.inr
        ⟨a, d, rfl, by simpa using hu, (not_not.1 hm).1, (not_not.1 hm).2, hr.1, hr.2, rfl⟩)))⟩))
    · exact .inr (.inr (.inl ⟨v, by simp [encode], rfl⟩))

/-- No transaction stops the machine: every instruction answers a next state, in every state. -/
theorem exec_next (i : Instr) (s : State) : ∃ t, exec i s = .next t := by
  have write : ∀ (t : Txn) (r : Except Violation State), ∃ s', finishWrite t s r = .next s' := by
    intro t r
    cases r <;> exact ⟨_, rfl⟩
  cases i <;> first | exact ⟨_, rfl⟩ | exact write _ _

/-- A main key advances the sequence, completes it, or is an error (R140). -/
theorem mainKey_cases (t : Txn) (d : Word) (s : State) :
    (s.keySeq = .idle ∧ d = s.cfg.key1 ∧ mainKey t d s = { s with keySeq := .key1Seen }) ∨
    (s.keySeq = .key1Seen ∧ d = s.cfg.key2 ∧ mainKey t d s = { s with lock := false, keySeq := .idle }) ∨
    mainKey t d s = keyError t s := by
  unfold mainKey
  split <;> split <;> simp_all

/-- A mode key advances the sequence, completes it, or is an error (R142). -/
theorem modeKey_cases (t : Txn) (d : Word) (s : State) :
    (s.modeKeySeq = .idle ∧ d = s.cfg.mkey1 ∧ modeKey t d s = { s with modeKeySeq := .key1Seen }) ∨
    (s.modeKeySeq = .key1Seen ∧ d = s.cfg.mkey2 ∧
      modeKey t d s = { s with flock := false, modeKeySeq := .idle }) ∨
    modeKey t d s = keyError t s := by
  unfold modeKey
  split <;> split <;> simp_all

/-- No transaction touches the flash array, the parameters, the events to come or the host. -/
theorem exec_frame {i : Instr} {s t : State} (h : exec i s = .next t) :
    t.flash = s.flash ∧ t.cfg = s.cfg ∧ t.bus = s.bus ∧ t.host = s.host := by
  rcases exec_cases h with ⟨v, d, -, -, rfl⟩ | ⟨c, -, rfl⟩ | ⟨v, -, rfl⟩ | ⟨-, h⟩
  · simp
  · simp
  · simp
  rcases h with ⟨d, -, -, rfl⟩ | ⟨d, -, -, -, rfl⟩ | ⟨d, -, rfl⟩ | ⟨d, -, s', hs, rfl⟩ | ⟨a, d, -, -, -, -, -, -, rfl⟩
  · rcases mainKey_cases (encode s.cfg i) d s with ⟨-, -, h⟩ | ⟨-, -, h⟩ | h <;> simp [h]
  · rcases modeKey_cases (encode s.cfg i) d s with ⟨-, -, h⟩ | ⟨-, -, h⟩ | h <;> simp [h]
  · simp
  · rcases ctlrWrite_ok hs with rfl | ⟨-, -, rfl⟩ | ⟨-, -, rfl⟩ | ⟨-, -, -, rfl | ⟨act, -, -, -, rfl⟩⟩
    · simp
    · simp
    · simp
    · simp
    · cases act <;> simp [performAction, start]
      split <;> simp
  · simp

/-! ## A transaction word -/

/-- A word at the SSB that answers next is a decoded transaction or an access violation. -/
theorem transact_cases {w : Txn} {s t : State} (h : transact w s = .next t) :
    (∃ i, decode s.cfg w = .op i ∧ exec i s = .next t) ∨
    (decode s.cfg w = .accessViolation ∧
      t = { s with
        faults := s.faults ++ [⟨.accessViolation, w, none⟩], rdata := if w.isWrite then none else some 0 }) := by
  unfold transact at h
  split at h
  · exact .inl ⟨_, by assumption, h⟩
  · refine .inr ⟨by assumption, ?_⟩
    unfold accessViolation at h
    cases hw : w.isWrite <;> simp only [hw, if_true, if_false, Bool.false_eq_true] at h ⊢ <;> cases h <;> rfl
  · cases h

/-- No transaction word touches the flash array, the parameters, the events to come or the host. -/
theorem transact_frame {w : Txn} {s t : State} (h : transact w s = .next t) :
    t.flash = s.flash ∧ t.cfg = s.cfg ∧ t.bus = s.bus ∧ t.host = s.host := by
  rcases transact_cases h with ⟨i, -, he⟩ | ⟨-, rfl⟩
  · exact exec_frame he
  · simp

/-! ## The host and the step -/

/-- What a host turn from s to t is: its expressions draw free values and may mark a host error (hc), it issues at most
one transaction, and then it changes the host alone; or it is the `halt`. -/
def HostTurned (s t : State) : Prop :=
  (∃ d hc, s.draws ≤ d ∧
    ∃ s', (s' = { s with draws := d, host := hc } ∨ ∃ w, transact w { s with draws := d, host := hc } = .next s') ∧
      ∃ hc', t = { s' with host := hc' } ∧ hc'.halted = s.host.halted) ∨
  t = hostHalt s

theorem hostTurn_cases {s t : State} (h : hostTurn s = .next t) : HostTurned s t := by
  have hwrite : ∀ w d hc, s.draws ≤ d → hc.halted = s.host.halted →
      hostWrite w { s with draws := d, host := hc } = .next t → HostTurned s t := by
    intro w d hc hd hh hw
    unfold hostWrite at hw
    split at hw <;> cases hw
    rename_i s' hs'
    refine .inl ⟨d, hc, hd, s', .inr ⟨w, hs'⟩, _, rfl, ?_⟩
    rw [(transact_frame hs').2.2.2]
    exact hh
  have hread : ∀ w r d hc, s.draws ≤ d → hc.halted = s.host.halted →
      hostRead w r { s with draws := d, host := hc } = .next t → HostTurned s t := by
    intro w r d hc hd hh hw
    unfold hostRead at hw
    split at hw <;> cases hw
    rename_i s' hs'
    have hf := (transact_frame hs').2.2.2
    refine .inl ⟨d, hc, hd, s', .inr ⟨w, hs'⟩, ?_⟩
    rcases Option.eq_none_or_eq_some s'.rdata with hr | ⟨v, hr⟩
    · refine ⟨(hostNext s').host, by simp [hr, hostNext], ?_⟩
      simpa only [hostNext, hf] using hh
    · refine ⟨(hostNext (hostSet r v s')).host, by simp [hr, hostNext, hostSet], ?_⟩
      simpa only [hostNext, hostSet, hf] using hh
  have hjump : ∀ l d hc, s.draws ≤ d → hc.halted = s.host.halted →
      hostJump l { s with draws := d, host := hc } = .next t → HostTurned s t := by
    intro l d hc hd hh hl
    unfold hostJump at hl
    split at hl <;> cases hl
    exact .inl ⟨d, hc, hd, _, .inl rfl, _, rfl, hh⟩
  unfold hostTurn at h
  split at h
  · cases h
    exact .inl ⟨s.draws, s.host, le_rfl, s, .inl rfl, _, rfl, rfl⟩
  split at h
  · rename_i st _
    cases st <;> simp only [hostStmt] at h
    · rename_i _ e _
      exact hwrite _ _ (evaluated e s).host (Nat.le_succ _) rfl h
    · exact hread _ _ s.draws s.host le_rfl rfl h
    · rename_i _ e _ _
      exact hread _ _ _ (evaluated e s).host (Nat.le_succ _) rfl h
    · rename_i _ e e' _
      exact hwrite _ _ (evaluated e' (evaluated e s)).host (Nat.le_add_right _ 2) rfl h
    · cases h
      exact .inl ⟨s.draws, s.host, le_rfl, s, .inl rfl, _, rfl, rfl⟩
    · cases h
      exact .inl ⟨_, _, Nat.le_succ _, _, .inl rfl, _, rfl, rfl⟩
    · exact hjump _ s.draws s.host le_rfl rfl h
    · rename_i e _ _
      split at h
      · exact hjump _ _ (evaluated e s).host (Nat.le_succ _) rfl h
      · cases h
        exact .inl ⟨_, _, Nat.le_succ _, _, .inl rfl, _, rfl, rfl⟩
    · cases h
      exact .inr rfl
  · cases h

/-- What a step that answers next can do, beside taking its event off the bus: nothing, one transaction word, the
completion step, reset, or a host turn. -/
theorem step_cases {s t : State} (h : step s = .next t) :
    s.cfg.Wf ∧
    ((s.bus = [] ∧ t = s) ∨
     ∃ rest,
      (∃ w, s.bus = .txn w :: rest ∧ transact w { s with bus := rest } = .next t) ∨
      (s.bus = .complete :: rest ∧ t = complete { s with bus := rest }) ∨
      (s.bus = .reset :: rest ∧ t = resetBlock { s with bus := rest }) ∨
      (s.bus = .host :: rest ∧ hostTurn { s with bus := rest } = .next t)) := by
  unfold step nextEvent at h
  split at h
  · rename_i hc
    refine ⟨(Config.wf_iff _).1 hc, ?_⟩
    split at h
    · cases h
      exact .inl ⟨by assumption, rfl⟩
    · rename_i e rest _
      refine .inr ⟨rest, ?_⟩
      cases e with
      | txn w => exact .inl ⟨w, by assumption, h⟩
      | complete => exact .inr (.inl ⟨by assumption, (Host.Outcome.next.inj h).symm⟩)
      | reset => exact .inr (.inr (.inl ⟨by assumption, (Host.Outcome.next.inj h).symm⟩))
      | host => exact .inr (.inr (.inr ⟨by assumption, h⟩))
  · cases h

/-- A step never takes the halted mark from the host, and gives it only as its `halt`. -/
theorem step_halted {s t : State} (h : step s = .next t) :
    t.host.halted = s.host.halted ∨
    ∃ rest, s.bus = .host :: rest ∧ t = hostHalt { s with bus := rest } := by
  rcases (step_cases h).2 with ⟨-, rfl⟩ | ⟨rest, ⟨w, -, hw⟩ | ⟨-, rfl⟩ | ⟨-, rfl⟩ | ⟨hb, ht⟩⟩
  · exact .inl rfl
  · exact .inl (congrArg HostCpu.halted (transact_frame hw).2.2.2)
  · exact .inl (by simp)
  · exact .inl (by simp)
  · rcases hostTurn_cases ht with ⟨d, hc, -, s', -, hc', rfl, hh⟩ | he
    · exact .inl hh
    · exact .inr ⟨rest, hb, he⟩

/-! ## `CTLR` writes -/

/-- The mode bits' update as one record (R162). -/
theorem applyMode_eq (pg er : Bool) (s : State) :
    applyMode pg er s =
      { s with
        pagePg := pg, pageEr := er,
        bufState := if s.pagePg && !pg then .invalid else s.bufState,
        latch := if s.pagePg && !pg then none else s.latch } := by
  unfold applyMode
  split <;> rfl

/-- A write that changes no mode bit leaves the state as it is under `applyMode`. -/
theorem applyMode_same {d : Word} {s : State} (h : modeChanges d s = false) :
    applyMode (dPagePg d) (dPageEr d) s = s := by
  simp only [modeChanges, Bool.or_eq_false_iff, bne_eq_false_iff_eq] at h
  rw [h.1, h.2]
  unfold applyMode
  split
  · next hc => cases hp : s.pagePg <;> simp [hp] at hc
  · rfl

/-- R161, past the lock check, as one match on the action's precondition. -/
theorem modesThenAction_eq (d : Word) (s : State) (act : Option CtlrAction) :
    modesThenAction d s act =
      match act.bind (actionCheck (dPagePg d) (dPageEr d) s) with
      | some v => .error v
      | none =>
        .ok (act.elim (applyMode (dPagePg d) (dPageEr d) s) (performAction (applyMode (dPagePg d) (dPageEr d) s))) := by
  have hm : (if modeChanges d s then applyMode (dPagePg d) (dPageEr d) s else s) =
      applyMode (dPagePg d) (dPageEr d) s := by
    cases h : modeChanges d s
    · simp [applyMode_same h]
    · simp
  unfold modesThenAction
  cases act.bind (actionCheck (dPagePg d) (dPageEr d) s) <;> simp only [hm]

/-- A `CTLR` write with no action and no fault, unlocked and idle, applies its mode bits. -/
theorem ctlrWrite_no_action {d : Word} {s : State} (hr : d &&& ctlrReserved = 0) (hu : s.Unlocked)
    (hb : s.bsy = false) (ha : ctlrActions d s = []) :
    ctlrWrite d s = .ok (applyMode (dPagePg d) (dPageEr d) s) := by
  unfold ctlrWrite
  rw [if_neg (not_not.2 hr), hb, ha, hu.1, hu.2, modesThenAction_eq]
  by_cases hm : modeChanges d s = false
  · rw [if_pos ⟨hm, rfl⟩, applyMode_same hm]
  · simp [hm]

/-- A `CTLR` write of one action that is no lock action, unlocked and idle, is that action's precondition and then the
modes and the action. -/
theorem ctlrWrite_one_action {d : Word} {s : State} {a : CtlrAction} (hr : d &&& ctlrReserved = 0) (hu : s.Unlocked)
    (hb : s.bsy = false) (ha : ctlrActions d s = [a]) (hl : a ≠ .lockSet) (hf : a ≠ .flockSet) :
    ctlrWrite d s =
      match actionCheck (dPagePg d) (dPageEr d) s a with
      | some v => .error v
      | none => .ok (performAction (applyMode (dPagePg d) (dPageEr d) s) a) := by
  unfold ctlrWrite
  rw [if_neg (not_not.2 hr), if_neg (by simp [ha]), hb, ha, hu.1, hu.2, modesThenAction_eq]
  simp [hl, hf]

end Sys2Proof.Machine
end

