-- ==== Sys2Proof/Laws/PerInstr.lean ====
section
/-! SUPPORT. Families of statements with one lemma per constructor of Instr. -/

namespace Sys2Proof

/-- The direction of a transaction (R94, column W). -/
def Instr.isWrite : Instr → Bool
  | .crcFeed _ | .crcCtrlWr _ | .fkeyrWr _ | .fctlrWr _ | .faddrWr _ | .fmodekeyrWr _ | .flashWr32 _ _ => true
  | .crcRead16 | .crcRead32 | .fstatrRd | .fctlrRd | .faddrRd | .flashRd8 _ | .flashRd16 _ | .flashRd32 _ => false

/-- The access width of a transaction (R94, column SZ). -/
def Instr.size : Instr → BitVec 2
  | .crcFeed _ | .flashRd8 _ => size8
  | .crcRead16 | .flashRd16 _ => size16
  | .crcRead32 | .crcCtrlWr _ | .fkeyrWr _ | .fstatrRd | .fctlrRd | .fctlrWr _ | .faddrRd | .faddrWr _
  | .fmodekeyrWr _ | .flashRd32 _ | .flashWr32 _ _ => size32

/-- The address of a transaction (R94). -/
def Instr.address (c : Config) : Instr → Word
  | .crcFeed _ => busAddr c.regCrcData
  | .crcRead16 | .crcRead32 => busAddr c.regCrcValue
  | .crcCtrlWr _ => busAddr c.regCrcCtrl
  | .fkeyrWr _ => busAddr c.regKeyr
  | .fstatrRd => busAddr c.regStatr
  | .fctlrRd | .fctlrWr _ => busAddr c.regCtlr
  | .faddrRd | .faddrWr _ => busAddr c.regAddr
  | .fmodekeyrWr _ => busAddr c.regModeKeyr
  | .flashRd8 a | .flashRd16 a | .flashRd32 a | .flashWr32 a _ => a

/-- The data of a transaction (R92). -/
def Instr.operandData : Instr → Word
  | .crcFeed b => b.setWidth 32
  | .crcCtrlWr d | .fkeyrWr d | .fctlrWr d | .faddrWr d | .fmodekeyrWr d | .flashWr32 _ d => d
  | .crcRead16 | .crcRead32 | .fstatrRd | .fctlrRd | .faddrRd | .flashRd8 _ | .flashRd16 _ | .flashRd32 _ => 0

namespace Laws.EncodedFields

/-- The five fields of an instruction's word (R90, R94). -/
def Statement (i : Instr) : Prop :=
  ∀ c : Config, encode c i = Txn.make i.isWrite i.size (i.address c) i.operandData

theorem crcFeed (b : Byte) : Statement (.crcFeed b) := fun _ => rfl
theorem crcRead16 : Statement .crcRead16 := fun _ => rfl
theorem crcRead32 : Statement .crcRead32 := fun _ => rfl
theorem crcCtrlWr (d : Word) : Statement (.crcCtrlWr d) := fun _ => rfl
theorem fkeyrWr (d : Word) : Statement (.fkeyrWr d) := fun _ => rfl
theorem fstatrRd : Statement .fstatrRd := fun _ => rfl
theorem fctlrRd : Statement .fctlrRd := fun _ => rfl
theorem fctlrWr (d : Word) : Statement (.fctlrWr d) := fun _ => rfl
theorem faddrRd : Statement .faddrRd := fun _ => rfl
theorem faddrWr (d : Word) : Statement (.faddrWr d) := fun _ => rfl
theorem fmodekeyrWr (d : Word) : Statement (.fmodekeyrWr d) := fun _ => rfl
theorem flashRd8 (a : Word) : Statement (.flashRd8 a) := fun _ => rfl
theorem flashRd16 (a : Word) : Statement (.flashRd16 a) := fun _ => rfl
theorem flashRd32 (a : Word) : Statement (.flashRd32 a) := fun _ => rfl
theorem flashWr32 (a d : Word) : Statement (.flashWr32 a d) := fun _ => rfl

end Laws.EncodedFields
end Sys2Proof
end

