-- ==== Sys2Proof/Tests/Slice0.lean ====
section
/-! SUPPORT. Tests against the words and values of spec/ (30_encoding.md R90-R103, 95_test_vectors.md V1-V24), the smoke
tests of the well-formedness checks, and, per statement, a witness that its hypotheses can be met. -/

open Sys2Proof Sys2Proof.Machine

namespace Sys2Proof.Tests

/-! ## Small states -/

/-- The page of V17 to V20. -/
abbrev page : Word := 0x08003FC0

/-- The premise of a blank array at first power-on (R294), as V16 to V24 take it. -/
abbrev blank : State := State.powerOn Config.default []

/-- `Unlocked` (95_test_vectors.md). -/
abbrev unlocked : State := { blank with lock := false, flock := false }

/-- `MainUnlocked`. -/
abbrev mainUnlocked : State := { blank with lock := false }

/-- Barred after a key error. -/
abbrev barred : State := { blank with barred := true }

/-- `Unlocked` in page-erase mode, aimed at the page. -/
abbrev erasing : State := { unlocked with pageEr := true, addr := page }

/-- The erase of the page pending. -/
abbrev eraseBusy : State := { erasing with bsy := true, pending := .erase page }

/-- `Unlocked` in page-program mode, no `BUFRST` yet. -/
abbrev programming : State := { unlocked with pagePg := true, addr := page }

/-- The same after `BUFRST`. -/
abbrev ready : State :=
  { programming with bufState := .ready, buf := List.replicate 16 0xFFFFFFFF, loaded := List.replicate 16 false }

/-- A word latched for slot 1. -/
abbrev latched : State := { ready with latch := some (page + 4, 0xFFFF0605) }

/-- Slot 0 of the page loaded with 1. -/
abbrev loadedOne : State :=
  { ready with
    buf := 1 :: List.replicate 15 0xFFFFFFFF, loaded := true :: List.replicate 15 false, bufPage := some page }

/-- The commit of that buffer pending. -/
abbrev commitBusy : State :=
  { loadedOne with bsy := true, bufState := .invalid, pending := .program page loadedOne.buf }

/-- A load pending. -/
abbrev loadBusy : State := { loadedOne with bsy := true, pending := .load }

/-- The flash as P3 leaves it (V20). -/
abbrev stored : Memory :=
  [(0x08003FC0, 0x01), (0x08003FC1, 0x02), (0x08003FC2, 0x03), (0x08003FC3, 0x04), (0x08003FC4, 0xC3),
   (0x08003FC5, 0x89)]

/-- Whether the transaction answers next with p true of the new state. -/
def gives (i : Instr) (s : State) (p : State → Bool) : Bool :=
  match exec i s with
  | .next t => p t
  | .fault _ => false
  | .refused _ => false

/-- Whether the word on the bus answers next with p true of the new state. -/
def onBus (w : Txn) (s : State) (p : State → Bool) : Bool :=
  match step { s with bus := [.txn w] } with
  | .next t => p t
  | .fault _ => false
  | .refused _ => false

/-- The codes recorded. -/
def codes (s : State) : List Nat := s.faults.map fun f => f.code.number

/-- Whether a word is an access violation under the default parameters. -/
def violates (w : Txn) : Bool :=
  match decode Config.default w with
  | .accessViolation => true
  | .op _ => false
  | .refused _ => false

theorem violates_op {w : Txn} {i : Instr} (h : decode Config.default w = .op i) : ¬ violates w = true := by
  simp [violates, h]

/-! ## Decoding: every constructor, its word written from R90 and R94 as W SZ RES A D -/

theorem test_decode_crcFeed :
    decode Config.default
      0b1_00_00000_01000000000000100011000000000000_11111111111111111111111100110001 = .op (.crcFeed 0x31) := by decide
theorem test_decode_crcRead16 : decode Config.default 0x20_40023004_00000000 = .op .crcRead16 := by decide
theorem test_decode_crcRead32 : decode Config.default 0x40_40023004_00000000 = .op .crcRead32 := by decide
theorem test_decode_crcCtrlWr : decode Config.default 0xC0_40023008_00000003 = .op (.crcCtrlWr 3) := by decide
theorem test_decode_fkeyrWr :
    decode Config.default
      0b1_10_00000_01000000000000100010000000000100_01000101011001110000000100100011 =
        .op (.fkeyrWr 0x45670123) := by decide
theorem test_decode_fstatrRd : decode Config.default 0x40_4002200C_00000000 = .op .fstatrRd := by decide
theorem test_decode_fctlrRd : decode Config.default 0x40_40022010_00000000 = .op .fctlrRd := by decide
theorem test_decode_fctlrWr : decode Config.default 0xC0_40022010_00020040 = .op (.fctlrWr 0x00020040) := by decide
theorem test_decode_faddrRd : decode Config.default 0x40_40022014_00000000 = .op .faddrRd := by decide
theorem test_decode_faddrWr : decode Config.default 0xC0_40022014_08003FC0 = .op (.faddrWr 0x08003FC0) := by decide
theorem test_decode_fmodekeyrWr :
    decode Config.default 0xC0_40022024_CDEF89AB = .op (.fmodekeyrWr 0xCDEF89AB) := by decide
theorem test_decode_flashRd8 :
    decode Config.default
      0b0_00_00000_00001000000000000011111111111111_00000000000000000000000000000000 =
        .op (.flashRd8 0x08003FFF) := by decide
theorem test_decode_flashRd16 : decode Config.default 0x20_08003FC4_00000000 = .op (.flashRd16 0x08003FC4) := by decide
theorem test_decode_flashRd32 : decode Config.default 0x40_08003FC8_00000000 = .op (.flashRd32 0x08003FC8) := by decide
theorem test_decode_flashWr32 : decode Config.default 0xC0_08000000_00000000 = .op (.flashWr32 0x08000000 0) := by decide

/-- V8: words in the CRC window that no row matches. -/
theorem test_decode_crc_violations :
    ([0xC0_40023000_00000031, 0xA0_40023000_00000031, 0x00_40023000_00000000, 0x00_40023004_00000000,
        0xC0_40023004_00000000, 0x40_4002300C_00000000].all
        violates) = true := by decide

/-- V21, V22: words in the controller window that no row matches. -/
theorem test_decode_controller_violations :
    ([0x40_40022004_00000000, 0x40_40022000_00000000, 0x40_40022008_00000000, 0xA0_40022010_00000000,
        0xE0_40022010_00000000, 0xC0_4002200C_00000001, 0x40_400223FC_00000000].all
        violates) = true := by decide

/-- V18, V20: words in the flash window that no row matches. -/
theorem test_decode_flash_violations :
    ([0x20_08003FC1_00000000, 0x40_08003FC2_00000000, 0x60_08003FC0_00000000, 0x80_08003FC0_00000001,
        0xC0_08003FC2_00000001].all
        violates) = true := by decide

/-- V22: the words a decoder refuses. -/
theorem test_decode_refusals :
    decode Config.default 0xC1_40022010_00000000 = .refused .reservedField ∧
    decode Config.default 0x40_20000000_00000000 = .refused .outsideWindows ∧
    decode Config.default 0x40_40022400_00000000 = .refused .outsideWindows ∧
    decode Config.default 0x00_08004000_00000000 = .refused .outsideWindows := by decide

theorem test_decodeTableWord :
    decodeTableWord 72 0xC04002200445670123 = some (.fkeyrWr 0x45670123) ∧
    decodeTableWord 72 0x404002240000000000 = none := by decide

/-! ## Well-formedness: an ill-formed term for each check -/

theorem test_wf_flashRd8_outside :
    ¬ (Instr.flashRd8 0x08004000).Wf Config.default ∧ ¬ (Instr.flashRd8 0x07FFFFFF).Wf Config.default := by decide
theorem test_wf_flashRd16 :
    ¬ (Instr.flashRd16 0x08003FC1).Wf Config.default ∧ ¬ (Instr.flashRd16 0x08004000).Wf Config.default := by decide
theorem test_wf_flashRd32 :
    ¬ (Instr.flashRd32 0x08003FC2).Wf Config.default ∧ ¬ (Instr.flashRd32 0x08004000).Wf Config.default := by decide
theorem test_wf_flashWr32 :
    ¬ (Instr.flashWr32 0x08003FC1 0).Wf Config.default ∧ ¬ (Instr.flashWr32 0x08004000 0).Wf Config.default := by decide

/-- R7: one broken constraint each, in the order of `Config.Wf`. -/
theorem test_config_refused :
    ({ pageSize := 48, flashBase := 0x08000010, flashEnd := 0x08000040 } : Config).wf = false ∧
    ({ pageSize := 2 } : Config).wf = false ∧
    ({ flashBase := 0x08000020 } : Config).wf = false ∧
    ({ flashEnd := 0x08003FE0 } : Config).wf = false ∧
    ({ flashBase := 0x08004000 } : Config).wf = false ∧
    ({ flashBase := 0xFFFFF000, flashEnd := 0x100000040 } : Config).wf = false ∧
    ({ fctlBase := 0x08003C04 } : Config).wf = false ∧
    ({ crcBase := 0x08000000 } : Config).wf = false ∧
    ({ crcBase := 0x400223FC } : Config).wf = false := by decide

/-- A configuration at the edges of R7 is admitted. -/
theorem test_config_admitted :
    ({ pageSize := 4, flashBase := 0xFFFFFFFC, flashEnd := 0x100000000, fctlBase := 0xFFFFFBFC, crcBase := 0 } :
      Config).wf = true ∧
    ({ fctlBase := 0xFFFFFFF0, crcBase := 0x40023002 } : Config).wf = true := by decide

/-- R66, R24 (log 10): with a register base that is not word aligned, the accesses that are aligned are taken and the
others are violations. -/
theorem test_decode_misaligned_base :
    decode { crcBase := 0x40023002 } 0x80_40023002_00000031 = .op (.crcFeed 0x31) ∧
    decode { crcBase := 0x40023002 } 0x20_40023006_00000000 = .op .crcRead16 ∧
    (match decode { crcBase := 0x40023002 } 0x40_40023006_00000000 with
      | .accessViolation => true
      | .op _ => false
      | .refused _ => false) = true ∧
    ¬ Instr.crcRead32.Wf { crcBase := 0x40023002 } ∧ ¬ (Instr.crcCtrlWr 1).Wf { crcBase := 0x40023002 } := by decide

/-- R60 (log 10): a register past the top of the address space has no address; its offset does not wrap to address 0,
where `CTLR` would lie. -/
theorem test_decode_window_at_the_top :
    decode { fctlBase := 0xFFFFFFF0 } 0xC0_FFFFFFF4_00000001 = .op (.fkeyrWr 1) ∧
    decode { fctlBase := 0xFFFFFFF0 } 0x40_00000000_00000000 = .refused .outsideWindows ∧
    ¬ Instr.fctlrRd.Wf { fctlBase := 0xFFFFFFF0 } := by decide
theorem test_wf_registers :
    ¬ (Instr.crcFeed 1).Wf { crcBase := 0x100000000 } ∧ ¬ Instr.crcRead16.Wf { crcBase := 0x40023001 } ∧
    ¬ (Instr.fkeyrWr 1).Wf { fctlBase := 0x40022002 } ∧ ¬ Instr.fstatrRd.Wf { fctlBase := 0x40022001 } ∧
    ¬ (Instr.fctlrWr 1).Wf { fctlBase := 0xFFFFFFF0 } ∧ ¬ Instr.faddrRd.Wf { fctlBase := 0xFFFFFFF0 } ∧
    ¬ (Instr.faddrWr 1).Wf { fctlBase := 0x40022003 } ∧ ¬ (Instr.fmodekeyrWr 1).Wf { fctlBase := 0xFFFFFFDC } := by
  decide

/-! ## One step each -/

theorem test_crcFeed : gives (.crcFeed 0x31) State.reset (·.crc == 0xC782) = true := by decide
theorem test_crcFeed_busy_locked :
    gives (.crcFeed 0x56) { State.reset with crc := 0x1234, bsy := true } (·.crc == 0x3C40) = true := by decide
theorem test_crcRead16 : gives .crcRead16 State.reset (·.rdata == some 0x0000FFFF) = true := by decide
theorem test_crcRead32 :
    gives .crcRead32 { State.reset with crc := 0x29B1 } (·.rdata == some 0x000029B1) = true := by decide
theorem test_crcCtrlWr_init : gives (.crcCtrlWr 1) { State.reset with crc := 0x29B1 } (·.crc == 0xFFFF) = true := by
  decide
theorem test_crcCtrlWr_reserved :
    gives (.crcCtrlWr 3) { State.reset with crc := 0x29B1 } (fun t => t.crc == 0x29B1 && codes t == [2]) = true := by
  decide
theorem test_fkeyrWr_second_key :
    gives (.fkeyrWr 0xCDEF89AB) { State.reset with keySeq := .key1Seen } (fun t => !t.lock && t.flock) = true := by
  decide
theorem test_fkeyrWr_wrong_order :
    gives (.fkeyrWr 0xCDEF89AB) State.reset (fun t => t.barred && codes t == [5]) = true := by decide
theorem test_fmodekeyrWr_locked :
    gives (.fmodekeyrWr 0x45670123) State.reset (fun t => !t.barred && codes t == [5]) = true := by decide
theorem test_fmodekeyrWr_second_key :
    gives (.fmodekeyrWr 0xCDEF89AB) { mainUnlocked with modeKeySeq := .key1Seen } (fun t => !t.flock) = true := by
  decide
theorem test_fctlrRd : gives .fctlrRd State.reset (·.rdata == some 0x00008080) = true := by decide
theorem test_fctlrRd_erasing : gives .fctlrRd erasing (·.rdata == some 0x00020000) = true := by decide
theorem test_fctlrWr_start_with_mode :
    gives (.fctlrWr 0x00020040) { unlocked with addr := page }
      (fun t => t.bsy && t.pageEr && t.pending == .erase page) = true := by decide
theorem test_fctlrWr_both_modes_start :
    gives (.fctlrWr 0x00030040) unlocked (fun t => !t.pagePg && !t.pageEr && codes t == [7]) = true := by decide
theorem test_faddrRd : gives .faddrRd erasing (·.rdata == some 0x08003FC0) = true := by decide
theorem test_faddrWr_locked : gives (.faddrWr 0xDEADBEEF) State.reset (·.addr == 0xDEADBEEF) = true := by decide
theorem test_fstatrRd : gives .fstatrRd eraseBusy (·.rdata == some 1) = true := by decide
theorem test_flashRd8 :
    gives (.flashRd8 0x08003FC5) { State.reset with flash := stored } (·.rdata == some 0x89) = true := by decide
theorem test_flashRd16 :
    gives (.flashRd16 0x08003FC4) { State.reset with flash := stored } (·.rdata == some 0x89C3) = true := by decide
theorem test_flashRd32 :
    gives (.flashRd32 0x08003FC4) { State.reset with flash := stored } (·.rdata == some 0xFFFF89C3) = true := by decide
theorem test_flashRd_load_pending :
    gives (.flashRd32 page) { loadBusy with flash := stored } (·.rdata == some 0x04030201) = true := by decide
theorem test_flashWr32_latches :
    gives (.flashWr32 (page + 4) 0xFFFF0605) ready
      (fun t => t.latch == some (page + 4, 0xFFFF0605) && t.flash == []) = true := by decide
theorem test_flashWr32_second :
    gives (.flashWr32 (page + 8) 7) latched
      (fun t => t.latch == some (page + 4, 0xFFFF0605) && codes t == [9]) = true := by decide

/-- V16, V17: `CTLR` writes and the fault each records. -/
theorem test_fctlrWr_faults :
    ∀ x ∈ ([(State.reset, 0x00000001, [2]), (State.reset, 0x00020000, [4]), (State.reset, 0x00000040, [4]),
        (mainUnlocked, 0x00020000, [4]), (unlocked, 0x00020080, [6]), (unlocked, 0x000C0000, [6]),
        (programming, 0x00090040, [6]), (unlocked, 0x00000040, [7]), (unlocked, 0x00080000, [7]),
        (eraseBusy, 0x00020000, []), (eraseBusy, 0x00020040, [3]), (eraseBusy, 0x00000000, [3]),
        (State.reset, 0x00008080, []), ({ erasing with addr := 0 }, 0x00020040, [8]),
        ({ erasing with addr := page + 4 }, 0x00020040, [8]), ({ erasing with addr := 0x08004000 }, 0x00020040, [8])] :
          List (State × Word × List Nat)),
      gives (.fctlrWr x.2.1) x.1 (fun t => codes t == x.2.2) = true := by decide

/-- V18, V19, V23: the buffer's faults and their order. -/
theorem test_buffer_faults :
    ∀ x ∈ ([(programming, 0x00050000, [9]), (ready, 0x00050000, [9]),
        ({ loadedOne with latch := some (page, 1) }, 0x00050000, [9]),
        ({ loadedOne with latch := some (page - 64, 1) }, 0x00050000, [10]),
        ({ programming with addr := 0 }, 0x00010040, [8]), (programming, 0x00010040, [9]),
        ({ ready with latch := some (page, 1) }, 0x00010040, [9]),
        ({ loadedOne with addr := page - 64 }, 0x00010040, [10]), ({ loadedOne with addr := page + 4 }, 0x00010040, [8])] :
          List (State × Word × List Nat)),
      gives (.fctlrWr x.2.1) x.1 (fun t => codes t == x.2.2) = true := by decide

/-- V18: `BUFLOAD` of slot 1. -/
theorem test_bufload :
    gives (.fctlrWr 0x00050000) latched
      (fun t => t.buf.getD 1 0 == 0xFFFF0605 && t.loaded.getD 1 false && t.bufPage == some page && t.latch == none &&
        t.bsy && t.pending == .load) = true := by decide

/-- V16: `BUFRST` on entry to page-program mode, and what leaving the mode discards. -/
theorem test_bufrst_and_leave :
    gives (.fctlrWr 0x00090000) unlocked (fun t => t.pagePg && t.bufState == .ready && !t.bsy) = true ∧
    gives (.fctlrWr 0x00000000) latched
      (fun t => !t.pagePg && t.bufState == .invalid && t.latch == none) = true := by decide

/-- V23: `Busy` before `KeySequence`. -/
theorem test_busy_before_barred :
    gives (.fkeyrWr 0x45670123) { eraseBusy with barred := true } (fun t => codes t == [3]) = true := by decide

/-- V19, V17: the completion step of a commit and of an erase. -/
theorem test_complete :
    (complete commitBusy).flash =
      [(0x08003FC0, 0x01), (0x08003FC1, 0x00), (0x08003FC2, 0x00), (0x08003FC3, 0x00)] ∧
    (complete { eraseBusy with flash := stored ++ [(0x08004000, 0)] }).flash = [(0x08004000, 0)] ∧
    (complete eraseBusy).pageEr = true := by decide

/-- V19: `PROGRAM_OVER_DATA = And`: 0xF0 and 0x3C is 0x30. -/
theorem test_complete_over_data :
    (complete
      { commitBusy with
        cfg := { programOverData := .and }, flash := [(0x08003FC0, 0xF0)],
        pending := .program page (0xFFFFFF3C :: List.replicate 15 0xFFFFFFFF) }).flash.read 0x08003FC0 = 0x30 := by
  decide

/-- V24: reset. -/
theorem test_reset :
    (resetBlock { programming with crc := 0x29B1, bsy := true, pending := .load, barred := true }).crc = 0xFFFF ∧
    ctlrView (resetBlock programming) = 0x00008080 ∧ (resetBlock barred).barred = false := by decide

/-- V8, V22: an access violation returns 0 and is recorded; a refused word is no step. -/
theorem test_bus :
    onBus 0x40_4002300C_00000000 State.reset (fun t => t.rdata == some 0 && codes t == [1]) = true ∧
    onBus 0x80_40023000_FFFFFF31 State.reset (fun t => t.crc == 0xC782) = true ∧
    onBus 0xC1_40022010_00000000 State.reset (fun _ => true) = false := by decide

/-- The first word after reset runs as the next step. -/
theorem test_withFetchWord :
    (match step (State.reset.withFetchWord 72 0xC04002201408003FC0) with
      | .next t => t.addr == 0x08003FC0 && t.bus == []
      | .fault _ => false
      | .refused _ => false) = true := by decide

/-- R294: the flash array of State.reset holds any bytes, at both ends of its window, and nothing beyond it. -/
theorem test_reset_flash :
    State.reset.flash.read 0x08000000 = Config.freeFlash 0x08000000 ∧
    State.reset.flash.read 0x08003FFF = Config.freeFlash 0x08003FFF ∧
    ∀ x ∈ State.reset.flash, x.1 < 0x08004000 :=
  ⟨Memory.read_free (by decide), Memory.read_free (by decide), fun x hx => (reset_flash_wf.2 x hx).2⟩

/-- Whether the host's first statement answers next with p true of the new state. -/
def hostDoes (st : HostStmt) (p : State → Bool) : Bool :=
  match step (({ State.reset with bus := [.host] }).withProgram [st]) with
  | .next t => p t
  | .fault _ => false
  | .refused _ => false

/-- R102: a host statement issues its transaction. -/
theorem test_host_write :
    hostDoes (.writeReg .crcFeed (.num 0x31)) (fun t => t.crc == 0xC782 && t.host.pc == 1 && !t.host.error) = true := by
  decide

/-- R101: subtraction wraps, and `<` is unsigned. -/
theorem test_host_expressions :
    hostDoes (.assign .t0 (.bin .sub (.num 0) (.num 1))) (·.host.regs.get .t0 == some 0xFFFFFFFF) = true ∧
    hostDoes (.assign .t0 (.bin .lt (.num 1) (.num 0xFFFFFFFF))) (·.host.regs.get .t0 == some 1) = true ∧
    hostDoes (.assign .t0 (.bin .shl (.num 3) (.num 31))) (·.host.regs.get .t0 == some 0x80000000) = true := by decide

/-- R109, R101: reading an unwritten register is a host error, and a shift by 32 is none; the host goes on. -/
theorem test_host_goes_on :
    hostDoes (.assign .t0 (.reg .t3)) (fun t => t.host.error && t.host.pc == 1 && t.faults == []) = true ∧
    hostDoes (.assign .t0 (.bin .shr (.num 1) (.num 32)))
      (fun t => !t.host.error && t.host.pc == 1 && (t.host.regs.get .t0).isSome) = true := by decide

/-- R101, R242 (c): `halt` in `Locked` records nothing; with the controller not re-locked, wholly or half, it is a
fault. -/
theorem test_host_halt :
    hostDoes .halt (fun t => t.host.halted && codes t == []) = true ∧
    codes (hostHalt unlocked) = [11] ∧ codes (hostHalt mainUnlocked) = [11] := by decide

/-! ## The CRC and the driver's data -/

/-- V5. -/
theorem test_crcStep :
    crcStep 0xFFFF 0x80 = 0x7078 ∧ crcStep 0x0000 0x01 = 0x1021 ∧ crcStep 0x8000 0x00 = 0x9188 ∧
    crcStep 0x1234 0x56 = 0x3C40 ∧ crcStep 0x29B1 0x29 = 0xB100 ∧ crcStep 0xC782 0x32 = 0x3DBA := by decide

set_option maxRecDepth 20000 in
/-- V1. -/
theorem test_crc16_check : crc16 [0x31, 0x32, 0x33, 0x34, 0x35, 0x36, 0x37, 0x38, 0x39] = 0x29B1 := by decide

/-- V10, V12. -/
theorem test_region_and_words :
    region Config.default 129 = some ⟨192, 3, 0x08003F40⟩ ∧ region Config.default 16385 = none ∧
    blockWord Config.default [0x01, 0x02, 0x03, 0x04, 0xC3, 0x89] 0 1 = 0xFFFF89C3 ∧
    blockWord Config.default [0x11, 0x22, 0x33] 0 0 = 0xFF332211 := by decide

set_option maxRecDepth 20000 in
/-- V13, V9. -/
theorem test_stored_block :
    storedBlock true [0x01, 0x02, 0x03, 0x04, 0x00, 0x00] = [0x01, 0x02, 0x03, 0x04, 0xC3, 0x89] ∧
    blockValid true [0x01, 0x03, 0x03, 0x04, 0xC3, 0x89] = false ∧ blockValid true [0xFF, 0xFF] = true := by decide

/-! ## Witnesses: the hypotheses of each statement are met, each clause at a boundary value -/

abbrev wordOnBus (w : Txn) : State := { unlocked with bus := [.txn w, .complete] }

theorem witness_EncodedTransactionsDecodeBack :
    Config.default.Wf ∧ (Instr.flashWr32 0x08003FFC 1).Wf Config.default ∧ (Instr.flashRd16 0x08000000).Wf Config.default :=
  ⟨Config.default_wf, by decide, by decide⟩
theorem witness_DecodedWordsEncodeBack :
    Config.default.Wf ∧ decode Config.default 0x8040023000FFFFFF31 = .op (.crcFeed 0x31) :=
  ⟨Config.default_wf, by decide⟩
theorem witness_AdmittedAccessesAreTheTableOfWidths :
    Config.default.Wf ∧
    (Txn.res 0x0008003FFF00000000 = 0 ∧ Config.default.InWindow (Txn.addr 0x0008003FFF00000000).toNat) ∧
    (Txn.res 0x404002200000000000 = 0 ∧ Config.default.InWindow (Txn.addr 0x404002200000000000).toNat) :=
  ⟨Config.default_wf, by decide, by decide⟩
theorem witness_OpcodeTableNamesTheDecodedRow :
    decode Config.default 0x404002200C00000000 = .op .fstatrRd ∧
    (∀ i, decode Config.default 0x404002200800000000 ≠ .op i) := ⟨by decide, fun _ h => absurd (violates_op h) (by decide)⟩
theorem witness_OpcodeTableRowsAreDisjoint :
    ∃ r ∈ opcodeTable, ∃ r' ∈ opcodeTable, ∃ t : Txn, t &&& r.mask = r.value ∧ t &&& r'.mask = r'.value :=
  ⟨⟨"FLASH_RD8", 0xFFFFFFC00000000000, 0x000800000000000000⟩, by decide,
    ⟨"FLASH_RD8", 0xFFFFFFC00000000000, 0x000800000000000000⟩, by decide, 0x0008003FFF00000000, by decide, by decide⟩
theorem witness_WordsThatSpellNoTransactionAreRefused :
    (wordOnBus 0xC14002201000000000).cfg.Wf ∧ Txn.res 0xC14002201000000000 ≠ 0 ∧
    Txn.res 0x404002240000000000 = 0 ∧ ¬ Config.default.InWindow (Txn.addr 0x404002240000000000).toNat :=
  ⟨Config.default_wf, by decide, by decide, by decide⟩
theorem witness_UnmatchedWindowAccessesAreViolations :
    Txn.res 0x40400223FC00000000 = 0 ∧ Config.default.InWindow (Txn.addr 0x40400223FC00000000).toNat ∧
    (∀ row ∈ decodeRows Config.default 0x40400223FC00000000, row.1 = false) ∧
    Txn.res 0x6008003FC000000000 = 0 ∧ Config.default.InWindow (Txn.addr 0x6008003FC000000000).toNat ∧
    Txn.size 0x6008003FC000000000 = 0b11 := by decide
theorem witness_StepRunsTheDecodedTransaction :
    (wordOnBus 0x804002300000000031).cfg.Wf ∧
    (wordOnBus 0x804002300000000031).bus = .txn 0x804002300000000031 :: [.complete] ∧
    decode (wordOnBus 0x804002300000000031).cfg 0x804002300000000031 = .op (.crcFeed 0x31) :=
  ⟨Config.default_wf, rfl, by decide⟩
theorem witness_StepTakesTheOtherEvents :
    State.reset.cfg.Wf ∧ State.reset.bus = [] ∧ { State.reset with bus := [.reset] }.bus = .reset :: [] ∧
    { eraseBusy with bus := [.complete, .host] }.bus = .complete :: [.host] ∧
    { State.reset with bus := [.host] }.bus = .host :: [] ∧
    ¬ ({ State.reset with cfg := { pageSize := 48 } } : State).cfg.Wf :=
  ⟨Config.default_wf, rfl, rfl, rfl, rfl, fun h => by
    have := h.check
    revert this
    decide⟩
theorem witness_NoStepChangesTheConfiguration : ∃ t, step { eraseBusy with bus := [.complete] } = .next t := ⟨_, rfl⟩
/-- The premise on a register's address that the statements about the register transactions make, at the default
parameters and at the ends of its range. -/
theorem witness_OnBus :
    OnBus (Config.default.crcBase + 0x00) 1 ∧ OnBus (Config.default.crcBase + 0x04) 2 ∧
    OnBus (Config.default.crcBase + 0x04) 4 ∧ OnBus (Config.default.crcBase + 0x08) 4 ∧
    OnBus (Config.default.fctlBase + 0x04) 4 ∧ OnBus (Config.default.fctlBase + 0x0C) 4 ∧
    OnBus (Config.default.fctlBase + 0x10) 4 ∧ OnBus (Config.default.fctlBase + 0x14) 4 ∧
    OnBus (Config.default.fctlBase + 0x24) 4 ∧ OnBus 0 4 ∧ OnBus 0xFFFFFFFC 4 := by decide
theorem witness_CrcFeedFeedsOneByte :
    Config.default.Wf ∧ OnBus (Config.default.crcBase + 0x00) 1 ∧
    ((0b01 : BitVec 2) = 0b01 ∨ (0b01 : BitVec 2) = 0b10) :=
  ⟨Config.default_wf, by decide, .inl rfl⟩
theorem witness_CrcReadsReturnTheRegister :
    ∃ s : State, s.crc = crc16 [0x31, 0x32, 0x33, 0x34, 0x35, 0x36, 0x37, 0x38, 0x39] :=
  ⟨{ State.reset with crc := 0x29B1 }, test_crc16_check.symm⟩
theorem witness_CrcControlWriteInitialises :
    Config.default.Wf ∧ (2 : Word) &&& 0xFFFFFFFE ≠ 0 ∧ (0x80000001 : Word) &&& 0xFFFFFFFE ≠ 0 :=
  ⟨Config.default_wf, by decide, by decide⟩
theorem witness_CrcUnitAndControllerAreIndependent :
    (∃ t, exec (.crcFeed 1) loadBusy = .next t) ∧ (∃ t', exec (.crcFeed 1) barred = .next t') ∧
    barred.crc = loadBusy.crc ∧ ∃ t, exec (.faddrWr 1) State.reset = .next t := ⟨⟨_, rfl⟩, ⟨_, rfl⟩, rfl, ⟨_, rfl⟩⟩
theorem witness_CrcDetectsAChangeOfOneByte : (0x39 : Byte) ≠ 0x38 := by decide
theorem witness_MainKeyWritesAdvanceTheSequence :
    eraseBusy.bsy = true ∧ (barred.bsy = false ∧ barred.barred = true) ∧
    (State.reset.bsy = false ∧ State.reset.barred = false ∧ State.reset.keySeq = .idle) ∧
    (0xCDEF89AB : Word) ≠ State.reset.cfg.key1 ∧
    { State.reset with keySeq := .key1Seen }.keySeq = .key1Seen ∧ (0x45670123 : Word) ≠ State.reset.cfg.key2 := by decide
theorem witness_ModeKeyWritesAdvanceTheSequence :
    eraseBusy.bsy = true ∧ (State.reset.bsy = false ∧ State.reset.lock = true) ∧
    (mainUnlocked.bsy = false ∧ mainUnlocked.barred = false ∧ mainUnlocked.lock = false ∧
      mainUnlocked.modeKeySeq = .idle) ∧
    (0 : Word) ≠ mainUnlocked.cfg.mkey1 ∧ { mainUnlocked with modeKeySeq := .key1Seen }.modeKeySeq = .key1Seen ∧
    (0 : Word) ≠ mainUnlocked.cfg.mkey2 := by decide
theorem witness_KeyErrorBarsUntilReset :
    (∃ t, step { barred with bus := [.txn 0xC04002200445670123] } = .next t) ∧
    barred.barred = true ∧ barred.lock = true ∧ barred.flock = true ∧ barred.cfg.Wf ∧
    { barred with bus := [.reset] }.bus = .reset :: [] :=
  ⟨⟨_, rfl⟩, rfl, rfl, rfl, Config.default_wf, rfl⟩
theorem witness_FourKeyWritesUnlock :
    State.reset.Locked ∧ State.reset.barred = false ∧ State.reset.bsy = false ∧ State.reset.keySeq = .idle ∧
    State.reset.modeKeySeq = .idle := by decide
theorem witness_LockBitLocksTheController :
    (Spec.CtlrData 0x00008080 false true true unlocked.pagePg unlocked.pageEr false false ∧ unlocked.lock = false ∧
      unlocked.bsy = false) ∧
    (Spec.CtlrData 0x00020080 false true false false true false false ∧ unlocked.lock = false ∧
      true ≠ unlocked.pageEr ∧ eraseBusy.lock = false ∧ eraseBusy.bsy = true) ∧
    (Spec.CtlrData 0x00008080 false true true State.reset.pagePg State.reset.pageEr false false ∧
      State.reset.lock = true ∧ State.reset.flock = true) ∧ unlocked.Unlocked := by decide
theorem witness_FastLockBitLocksFastModeOnly :
    (Spec.CtlrData 0x00008000 false false true unlocked.pagePg unlocked.pageEr false false ∧ unlocked.flock = false ∧
      unlocked.bsy = false) ∧
    (Spec.CtlrData 0x00008040 true false true false false false false ∧ eraseBusy.flock = false ∧
      eraseBusy.bsy = true) ∧ unlocked.Unlocked ∧
    (mainUnlocked.MainUnlocked ∧ mainUnlocked.barred = false ∧ mainUnlocked.modeKeySeq = .idle) := by decide
theorem witness_WritingZeroNeverUnlocks :
    (∃ t, exec (.fctlrWr 0x00020040) unlocked = .next t) ∧ BitVec.getLsbD (0x00020040 : Word) 7 = false ∧
    BitVec.getLsbD (0x00020040 : Word) 15 = false ∧
    Spec.CtlrData 0 false false false State.reset.pagePg State.reset.pageEr false false ∧
    (∃ t, exec (.fkeyrWr 0xCDEF89AB) { State.reset with keySeq := .key1Seen } = .next t ∧ t.lock = false) :=
  ⟨⟨_, rfl⟩, by decide, by decide, by decide, ⟨_, rfl, rfl⟩⟩
theorem witness_OnlyUnlockedAcceptsFlashOperations :
    (∃ t, transact 0xC04002201000020000 mainUnlocked = .next t) ∧ ¬ mainUnlocked.Unlocked := ⟨⟨_, rfl⟩, by decide⟩
theorem witness_ControlReadShowsModesAndLocks :
    erasing.Unlocked ∧ erasing.pageEr = true ∧ erasing.pagePg = false := by decide
theorem witness_ControlWriteChecksInOrder :
    (0x00000001 : Word) &&& 0xFFF07F3F ≠ 0 ∧ (0x80000000 : Word) &&& 0xFFF07F3F ≠ 0 ∧
    ((0x00020000 : Word) &&& 0xFFF07F3F = 0 ∧ eraseBusy.pageEr = BitVec.getLsbD (0x00020000 : Word) 17) ∧
    ((0x00020040 : Word) &&& 0xFFF07F3F = 0 ∧ eraseBusy.bsy = true ∧ BitVec.getLsbD (0x00020040 : Word) 6 = true) ∧
    ((0x000C0000 : Word) &&& 0xFFF07F3F = 0 ∧ unlocked.bsy = false ∧ BitVec.getLsbD (0x000C0000 : Word) 18 = true ∧
      BitVec.getLsbD (0x000C0000 : Word) 19 = true) ∧
    (BitVec.getLsbD (0x00020080 : Word) 7 = true ∧ unlocked.lock = false ∧
      BitVec.getLsbD (0x00020080 : Word) 17 ≠ unlocked.pageEr) ∧
    (mainUnlocked.bsy = false ∧ mainUnlocked.flock = true ∧ BitVec.getLsbD (0x00020000 : Word) 7 = false ∧
      BitVec.getLsbD (0x00020000 : Word) 15 = false) := by decide
theorem witness_ControlWriteSetsModes :
    Spec.CtlrData 0x00030000 false false false true true false false ∧ unlocked.Unlocked ∧ unlocked.bsy = false ∧
    (∃ t, exec (.fctlrWr 0x00000080) { erasing with pageEr := false } = .next t ∧ t.lock ≠ false) ∧
    (∃ t, exec (.fctlrWr 0x00020000) eraseBusy = .next t) ∧ eraseBusy.bsy = true :=
  ⟨by decide, by decide, rfl, ⟨_, rfl, by decide⟩, ⟨_, rfl⟩, rfl⟩
theorem witness_StartFollowsTheModesOfTheWrite :
    Spec.CtlrData 0x00030040 true false false true true false false ∧ unlocked.Unlocked ∧ unlocked.bsy = false ∧
    Spec.CtlrData 0x00010040 true false false true false false false ∧
    (∃ t, exec (.fctlrWr 0x00010040) loadedOne = .next t ∧ t.faults = loadedOne.faults) :=
  ⟨by decide, by decide, rfl, by decide, ⟨_, rfl, rfl⟩⟩
theorem witness_EraseStartsOnAPageAddress :
    Spec.CtlrData 0x00020040 true false false false true false false ∧ erasing.Unlocked ∧ erasing.bsy = false ∧
    (erasing.cfg.InFlash erasing.addr.toNat ∧ erasing.addr.toNat % erasing.cfg.pageSize = 0) ∧
    ¬ Config.default.InFlash (0x08004000 : Word).toNat := by decide
theorem witness_CommitTakesASnapshotOfTheBuffer :
    Spec.CtlrData 0x00010040 true false false true false false false ∧ loadedOne.Unlocked ∧ loadedOne.bsy = false ∧
    (Config.default.InFlash page.toNat ∧ page.toNat % 64 = 0 ∧ (page + 4).toNat % 64 ≠ 0) ∧
    (loadedOne.bufState = .ready ∧ loadedOne.latch = none ∧ loadedOne.bufPage = some loadedOne.addr) ∧
    programming.bufState ≠ .ready ∧ { loadedOne with addr := page - 64 }.bufPage ≠ some (page - 64) := by decide

/-- The second clause: a state of the invariant, and the commit it takes. -/
theorem witness_CommitTakesASnapshotOfTheBuffer_invariant :
    Inv loadedOne ∧ (∃ t, exec (.fctlrWr 0x00010040) loadedOne = .next t ∧ t.pending = .program page loadedOne.buf) ∧
    15 < loadedOne.cfg.wordsPerPage ∧ loadedOne.loaded.getD 15 false = false := by
  refine ⟨⟨Config.default_wf, by simp [State.powerOn], by simp, by simp [State.powerOn],
    by simp [State.powerOn], by simp [State.powerOn], by simp [State.powerOn],
    by simp [State.powerOn], by decide, rfl, rfl, by simp, ?_, ?_,
    by simp [State.powerOn], by decide, by simp [State.powerOn]⟩,
    ⟨_, rfl, rfl⟩, by decide, by decide⟩
  · intro _
    have : ∀ k < 16, loadedOne.loaded.getD k false = false → loadedOne.buf.getD k 0 = 0xFFFFFFFF := by decide
    exact this
  · rintro p h
    cases h
    exact by decide
theorem witness_BufferResetReadiesTheBuffer :
    Spec.CtlrData 0x00090000 false false false true false false true ∧
    Spec.CtlrData 0x00080000 false false false false false false true ∧ unlocked.Unlocked ∧ unlocked.bsy = false := by
  decide
theorem witness_BufferLoadMovesTheLatchedWord :
    Spec.CtlrData 0x00050000 false false false true false true false ∧
    Spec.CtlrData 0x00040000 false false false false false true false ∧ latched.Unlocked ∧ latched.bsy = false ∧
    (programming.bufState ≠ .ready ∨ programming.latch = none) ∧
    (latched.bufState = .ready ∧ latched.latch = some (page + 4, 0xFFFF0605) ∧ latched.bufPage = none ∧
      latched.loaded.getD 1 false = false) ∧
    loadedOne.loaded.getD 0 false = true ∧ loadedOne.bufPage ≠ some (page - 64) := by decide
theorem witness_AddressRegisterHoldsWhatIsWritten :
    Config.default.Wf ∧ eraseBusy.bsy = true ∧ State.reset.bsy = false := ⟨Config.default_wf, rfl, rfl⟩
theorem witness_BusyInterlockHoldsUntilCompletion :
    (∃ t, transact 0x804002300000000031 eraseBusy = .next t) ∧ eraseBusy.bsy = true ∧
    (∃ t, step { eraseBusy with bus := [.complete] } = .next t ∧ t.bsy = false) := ⟨⟨_, rfl⟩, rfl, ⟨_, rfl, rfl⟩⟩
/-- Of `FlashByteReads`, `FlashHalfwordAndWordReads` and `StatusReadShowsBusy`. -/
theorem witness_FlashReads :
    Config.default.Wf ∧ Config.default.InFlash (0x08003FFF : Word).toNat ∧ Config.default.InFlash (0x08000000 : Word).toNat ∧
    (∃ s : State, ∃ a : Word, ¬ Spec.InBusyPage s a.toNat) ∧ Spec.InBusyPage eraseBusy page.toNat ∧
    Spec.InBusyPage commitBusy (0x08003FFC : Word).toNat :=
  ⟨Config.default_wf, by decide, by decide, ⟨State.reset, page, fun h => by cases h.1⟩,
    ⟨rfl, page, .inl rfl, by decide⟩, ⟨rfl, page, .inr ⟨_, rfl⟩, by decide⟩⟩
theorem witness_FlashDataWritesAreLatched :
    Config.default.Wf ∧ Config.default.InFlash (0x08003FFC : Word).toNat ∧ loadBusy.bsy = true ∧
    (mainUnlocked.bsy = false ∧ ¬ mainUnlocked.Unlocked) ∧
    (erasing.bsy = false ∧ erasing.Unlocked ∧ ¬ (erasing.pagePg = true ∧ erasing.pageEr = false)) ∧
    (latched.Unlocked ∧ latched.pagePg = true ∧ latched.pageEr = false ∧ latched.latch ≠ none) ∧
    (ready.bsy = false ∧ ready.Unlocked ∧ ready.bufState = .ready ∧ ready.latch = none) :=
  ⟨Config.default_wf, by decide, by decide, by decide, by decide, by decide, by decide⟩
theorem witness_CompletionFinishesThePendingOperation :
    State.reset.bsy = false ∧ (loadBusy.bsy = true ∧ loadBusy.flash.Wf ∧ loadBusy.pending = .load) ∧
    (eraseBusy.bsy = true ∧ eraseBusy.pending = .erase page) ∧
    (commitBusy.cfg.Wf ∧ commitBusy.pending = .program page loadedOne.buf ∧
      loadedOne.buf.length = commitBusy.cfg.pageSize / 4 ∧
      (∀ j, j < commitBusy.cfg.pageSize → commitBusy.flash.read (page.toNat + j) = 0xFF)) ∧
    (¬ (∀ j, j < commitBusy.cfg.pageSize → Memory.read stored (page.toNat + j) = 0xFF) ∧
      ({ programOverData := .and } : Config).programOverData = .and) :=
  ⟨rfl, by decide, by decide, ⟨Config.default_wf, rfl, rfl, fun _ _ => rfl⟩, fun h => absurd (h 0 (by decide)) (by decide),
    rfl⟩
theorem witness_ErasedPageReadsAllOnes :
    eraseBusy.cfg.Wf ∧ eraseBusy.flash.Wf ∧ eraseBusy.bsy = true ∧ eraseBusy.pending = .erase page ∧
    page.toNat % eraseBusy.cfg.pageSize = 0 ∧ page.toNat ≤ (0x08003FFC : Word).toNat ∧
    (0x08003FFC : Word).toNat < page.toNat + eraseBusy.cfg.pageSize ∧ (0x08003FFC : Word).toNat % 4 = 0 :=
  ⟨Config.default_wf, by decide, rfl, rfl, by decide, by decide, by decide, by decide⟩
theorem witness_CommittedPageHoldsTheBuffer :
    commitBusy.cfg.Wf ∧ commitBusy.flash.Wf ∧ commitBusy.bsy = true ∧ commitBusy.pending = .program page loadedOne.buf ∧
    loadedOne.buf.length = commitBusy.cfg.wordsPerPage ∧
    (∀ j, j < commitBusy.cfg.pageSize → commitBusy.flash.read (page.toNat + j) = 0xFF) ∧
    15 < commitBusy.cfg.wordsPerPage ∧ (0x08003FFC : Word).toNat = page.toNat + 4 * 15 :=
  ⟨Config.default_wf, by decide, rfl, rfl, rfl, fun _ _ => rfl, by decide, by decide⟩
theorem witness_FlashChangesOnlyAtCompletionOrReset :
    ∃ t, step { eraseBusy with flash := stored, bus := [.complete] } = .next t ∧ t.flash ≠ stored :=
  ⟨_, rfl, by decide⟩
theorem witness_FlashArrayWritesKeepCanonicalForm : Memory.Wf stored := by decide
theorem witness_FaultsOnlyGrow :
    (∃ t, step { State.reset with bus := [.txn 0xC04002200412345678] } = .next t) ∧
    { barred with bus := [.reset] }.bus = .reset :: [] ∧ ∃ t, step { barred with bus := [.reset] } = .next t :=
  ⟨⟨_, rfl⟩, rfl, ⟨_, rfl⟩⟩
theorem witness_FaultingTransactionHasNoOtherEffect :
    State.reset.cfg.Wf ∧ (Txn.res 0xC04002200412345678 = 0 ∧ Config.default.InWindow (Txn.addr 0xC04002200412345678).toNat) ∧
    (∃ t, transact 0xC04002200412345678 State.reset = .next t ∧ t.faults ≠ State.reset.faults) ∧
    (∃ t, transact 0x404002300C00000000 State.reset = .next t ∧ t.faults ≠ State.reset.faults) :=
  ⟨Config.default_wf, by decide, ⟨_, rfl, by decide⟩, ⟨_, rfl, by decide⟩⟩
theorem witness_ReservedBitsVoidTheWrite :
    (0x00000100 : Word) &&& 0xFFF07F3F ≠ 0 ∧ (0x00000003 : Word) &&& 0xFFFFFFFE ≠ 0 := by decide
theorem witness_ReadsHaveNoSideEffect :
    ∃ t, exec (.flashRd32 page) loadBusy = .next t ∧ t.draws = loadBusy.draws := ⟨_, rfl, rfl⟩
theorem witness_ResetValuesAreTheTable :
    (∃ s : State, ∃ rest, s.cfg.Wf ∧ s.bus = .reset :: rest ∧ (∀ p, s.pending ≠ .erase p) ∧
      (∀ p w, s.pending ≠ .program p w)) :=
  ⟨{ loadBusy with bus := [.reset] }, [], Config.default_wf, rfl, fun _ => by simp, fun _ _ => by simp⟩
theorem witness_InterruptedPageIsOldOrNew :
    commitBusy.cfg.Wf ∧ commitBusy.flash.Wf ∧ commitBusy.pending = .program page loadedOne.buf ∧
    loadedOne.buf.length = commitBusy.cfg.wordsPerPage ∧ commitBusy.cfg.tornOnReset = false ∧
    eraseBusy.pending = .erase page ∧ loadBusy.pending = .load :=
  ⟨Config.default_wf, by decide, rfl, rfl, rfl, rfl, rfl⟩
theorem witness_InvariantHoldsAtPowerOn :
    ({ programOverData := .and } : Config).Wf ∧ Memory.Wf stored ∧ Memory.Within stored 0x08000000 0x08004000 :=
  ⟨(Config.wf_iff _).1 (by decide), by decide, by decide⟩
/-- A state that meets the invariant with a commit pending, and its next step. -/
theorem witness_EveryStepKeepsTheInvariant :
    Inv { commitBusy with bus := [.complete] } ∧ ∃ t, step { commitBusy with bus := [.complete] } = .next t := by
  refine ⟨⟨Config.default_wf, by simp, by simp, by simp, by simp, ?_, by simp, by decide, by decide,
    rfl, rfl, by simp, by simp, ?_, by simp [State.powerOn], by decide, by simp [State.powerOn]⟩,
    ⟨_, rfl⟩⟩
  · rintro p w h
    cases h
    exact ⟨by decide, rfl, rfl, rfl, rfl⟩
  · rintro p h
    cases h
    exact by decide
/-- The host at the first statement of a program, its event on the bus. -/
abbrev hostAt (prog : List HostStmt) : State := ({ eraseBusy with bus := [.host] }).withProgram prog

theorem witness_HostStatementsTakeEffect :
    ((hostAt []).cfg.Wf ∧ (hostAt []).bus = .host :: [] ∧ (hostAt []).host.halted = false ∧
      (hostAt []).host.prog[(hostAt []).host.pc]? = none) ∧
    { hostAt [] with host := { halted := true } }.host.halted = true ∧
    (∀ st : HostStmt, (hostAt [st]).host.prog[(hostAt [st]).host.pc]? = some st) ∧
    ((hostAt [.goto 1, .label 0, .label 1]).host.prog[2]? = some (.label 1) ∧
      ∀ m, m < 2 → (hostAt [.goto 1, .label 0, .label 1]).host.prog[m]? ≠ some (.label 1)) ∧
    exprValue (.num 1) (hostAt []) ≠ 0 ∧ exprValue (.num 0) (hostAt []) = 0 ∧
    (∃ t, transact (WriteReg.crcFeed.word (hostAt []).cfg 1) (evaluated (.num 1) (hostAt [])) = .next t) ∧
    (∃ t, transact (ReadReg.fstatr.word (hostAt []).cfg) (hostAt []) = .next t ∧ t.rdata = some 1) ∧
    (∃ t, transact (Txn.make false (AccessSize.code .b8) page 0) (evaluated (.num page) (hostAt [])) = .next t ∧
      t.rdata.isSome = true) ∧
    (∃ t, transact (Txn.make true (AccessSize.code .b32) page 1)
      (evaluated (.num 1) (evaluated (.num page) (hostAt []))) = .next t) :=
  ⟨⟨Config.default_wf, rfl, rfl, rfl⟩, rfl, fun _ => rfl, by decide, by decide, by decide, ⟨_, rfl⟩, ⟨_, rfl, rfl⟩,
    ⟨_, rfl, rfl⟩, ⟨_, rfl⟩⟩
theorem witness_HostStatementsTakeEffect_no_label (n : Nat) : (hostAt [.goto 1]).host.prog[n]? ≠ some (.label 1) := by
  cases n <;> simp [State.withProgram]
theorem witness_StoredBlocksReadBackValid :
    ([0x01] : List Byte).length < 2 ∧ 2 ≤ ([0x01, 0x02] : List Byte).length := by decide

/-- With nothing on the bus a step stands still. -/
theorem step_still {s : State} (h : s.cfg.wf = true) (hb : s.bus = []) : step s = .next s := by
  simp only [step, nextEvent, h, hb, if_true]

/-- The host at a `halt` while busy: the run that halts at its first step, then completes, then stands still. -/
def haltingRun : Nat → State
  | 0 => hostAt [.halt]
  | 1 => hostHalt { hostAt [.halt] with bus := [] }
  | _ + 2 => complete (hostHalt { hostAt [.halt] with bus := [] })

/-- The completion comes after the halt, so `BSY = 1` in the end state although it is 0 later; and the controller is not
re-locked. -/
theorem witness_AProgramEndsOnceAndNotWellWhileBusy :
    Run haltingRun ∧ EndsAt haltingRun 0 ∧ (haltingRun 1).bsy = true ∧ (haltingRun 2).bsy = false ∧
      ¬ (haltingRun 0).Locked := by
  refine ⟨⟨fun n => match n with | 1 => [.complete] | _ => [], ?_⟩, ⟨rfl, rfl⟩, rfl, rfl, by decide⟩
  rintro (_ | _ | n)
  · rfl
  · rfl
  · show step ((haltingRun 2).arrive []) = .next (haltingRun 2)
    have h' : (haltingRun 2).arrive [] = haltingRun 2 := by simp [State.arrive]
    rw [h']
    exact step_still (by decide) rfl

/-- A program that ends well: `halt` alone, from reset. -/
def endingRun : Nat → State
  | 0 => ({ State.reset with bus := [.host] }).withProgram [.halt]
  | _ + 1 => hostHalt ({ State.reset with bus := [] }.withProgram [.halt])

theorem witness_GoodEnd : Run endingRun ∧ GoodEnd endingRun := by
  refine ⟨⟨fun _ => [], ?_⟩, 0, ⟨rfl, rfl⟩, rfl, rfl, rfl⟩
  rintro (_ | n)
  · rfl
  · exact step_still Config.default_wf.check rfl

/-- A poll with a label before it, and a stretch of a run in which no completion comes. -/
theorem witness_StuckBusyPollsForEver :
    (∀ x ∈ (hostAt []).bus, x ≠ .complete ∧ x ≠ .reset) ∧ (hostAt []).bsy = true ∧
    ({ hostAt ([HostStmt.label 0] ++ pollBsySeq 1 ++ [HostStmt.halt]) with bus := [] }.host.prog = [HostStmt.label 0] ++ pollBsySeq 1 ++ [HostStmt.halt] ∧
      ∀ st ∈ [HostStmt.label 0], st ≠ HostStmt.label 1) := by
  refine ⟨by decide, rfl, rfl, by decide⟩
theorem witness_StuckBusyPollsForEver_run :
    RunOn (fun _ => []) (fun _ => { eraseBusy with bus := [] }) ∧ eraseBusy.bsy = true := ⟨fun _ => step_still Config.default_wf.check rfl, rfl⟩
theorem witness_HostExpressionsEvaluate :
    ((({} : HostRegs).set .t0 1).get .t0 = some 1) ∧ (({} : HostRegs).get .t0 = none) ∧ (31 : Word).toNat < 32 := by decide
theorem witness_RegionIsTheSmallestRunOfPages :
    Config.default.Wf ∧ region Config.default 16384 = some ⟨16384, 256, 0x08000000⟩ := ⟨Config.default_wf, by decide⟩
theorem witness_BlockWordsHoldTheBlocksBytes :
    (3 < 4) ∧ ([0x01, 0x02, 0x03, 0x04] : List Byte).length ≤ 0 * Config.default.pageSize + 4 * 1 := by decide

end Sys2Proof.Tests
end

section
/-! PROOFS. The fault list (10_state.md R39, 60_exceptions.md R275): nothing takes an entry from it, and a transaction, a
host turn and a step each append at most one. -/

namespace Sys2Proof.Machine

/-! ## A list that grows by at most one entry -/

/-- What R39 and R275 let a step do to the fault list: keep it, or append one entry. -/
def GrowsByAtMostOne (old new : List FaultRecord) : Prop :=
  ∃ added, new = old ++ added ∧ added.length ≤ 1

theorem growsByAtMostOne_of_eq {old new : List FaultRecord} (h : new = old) : GrowsByAtMostOne old new :=
  ⟨[], by simp [h], by simp⟩

theorem growsByAtMostOne_of_append_one {old new : List FaultRecord} {r : FaultRecord} (h : new = old ++ [r]) :
    GrowsByAtMostOne old new :=
  ⟨[r], h, by simp⟩

/-! ## The controller's writes -/

@[simp] theorem start_faults (s : State) : (start s).faults = s.faults := by
  unfold start
  split <;> simp

/-- An action records no fault of its own: its precondition was checked before (R161). -/
@[simp] theorem performAction_faults (s : State) (act : CtlrAction) : (performAction s act).faults = s.faults := by
  cases act with
  | strt => exact start_faults s
  | bufLoad => exact bufLoad_faults s
  | bufRst => exact bufReset_faults s
  | lockSet => exact lockSet_faults s
  | flockSet => exact flockSet_faults s

/-- A `CTLR` write whose checks pass leaves the fault list as it is. -/
theorem ctlrWrite_ok_faults {d : Word} {s s' : State} (h : ctlrWrite d s = .ok s') : s'.faults = s.faults := by
  rcases ctlrWrite_ok h with rfl | ⟨-, -, rfl⟩ | ⟨-, -, rfl⟩ | ⟨-, -, -, rfl | ⟨act, -, -, -, rfl⟩⟩
  · rfl
  · exact lockSet_faults s
  · exact flockSet_faults s
  · exact applyMode_faults ..
  · rw [performAction_faults, applyMode_faults]

/-- A key error records its one fault (R141). -/
theorem keyError_grows (t : Txn) (s : State) : GrowsByAtMostOne s.faults (keyError t s).faults :=
  growsByAtMostOne_of_append_one (keyError_faults t s)

theorem mainKey_grows (t : Txn) (d : Word) (s : State) : GrowsByAtMostOne s.faults (mainKey t d s).faults := by
  rcases mainKey_cases t d s with ⟨-, -, h⟩ | ⟨-, -, h⟩ | h <;> rw [h]
  · exact growsByAtMostOne_of_eq rfl
  · exact growsByAtMostOne_of_eq rfl
  · exact keyError_grows t s

theorem modeKey_grows (t : Txn) (d : Word) (s : State) : GrowsByAtMostOne s.faults (modeKey t d s).faults := by
  rcases modeKey_cases t d s with ⟨-, -, h⟩ | ⟨-, -, h⟩ | h <;> rw [h]
  · exact growsByAtMostOne_of_eq rfl
  · exact growsByAtMostOne_of_eq rfl
  · exact keyError_grows t s

/-! ## Transactions, host turns and steps -/

/-- An instruction records at most one fault: its failed check's, or its key error's. -/
theorem exec_faults_grow {i : Instr} {s t : State} (h : exec i s = .next t) : GrowsByAtMostOne s.faults t.faults := by
  rcases exec_cases h with ⟨v, d, -, -, rfl⟩ | ⟨c, -, rfl⟩ | ⟨v, -, rfl⟩ | ⟨-, accepted⟩
  · exact growsByAtMostOne_of_eq rfl
  · exact growsByAtMostOne_of_eq rfl
  · exact growsByAtMostOne_of_append_one rfl
  rcases accepted with ⟨d, -, -, rfl⟩ | ⟨d, -, -, -, rfl⟩ | ⟨d, -, rfl⟩ | ⟨d, -, s', hs, rfl⟩ |
    ⟨a, d, -, -, -, -, -, -, rfl⟩
  · exact mainKey_grows (encode s.cfg i) d s
  · exact modeKey_grows (encode s.cfg i) d s
  · exact growsByAtMostOne_of_eq rfl
  · exact growsByAtMostOne_of_eq ((acknowledge_faults s').trans (ctlrWrite_ok_faults hs))
  · exact growsByAtMostOne_of_eq rfl

theorem transact_faults_grow {w : Txn} {s t : State} (h : transact w s = .next t) :
    GrowsByAtMostOne s.faults t.faults := by
  rcases transact_cases h with ⟨i, -, he⟩ | ⟨-, rfl⟩
  · exact exec_faults_grow he
  · exact growsByAtMostOne_of_append_one rfl

/-- A `halt` records `notRelocked` where the controller is not re-locked, and nothing else (log 22). -/
theorem hostHalt_faults_grow (s : State) : GrowsByAtMostOne s.faults (hostHalt s).faults := by
  rw [hostHalt_faults]
  split
  · exact growsByAtMostOne_of_eq rfl
  · exact growsByAtMostOne_of_append_one rfl

/-- A host turn issues at most one transaction, or is the `halt`. -/
theorem hostTurn_faults_grow {s t : State} (h : hostTurn s = .next t) : GrowsByAtMostOne s.faults t.faults := by
  rcases hostTurn_cases h with ⟨d, hc, -, s', rfl | ⟨w, hw⟩, hc', rfl, -⟩ | rfl
  · exact growsByAtMostOne_of_eq rfl
  · exact (transact_faults_grow hw :)
  · exact hostHalt_faults_grow s

theorem step_faults_grow {s t : State} (h : step s = .next t) : GrowsByAtMostOne s.faults t.faults := by
  rcases (step_cases h).2 with ⟨-, rfl⟩ | ⟨rest, ⟨w, -, hw⟩ | ⟨-, rfl⟩ | ⟨-, rfl⟩ | ⟨-, ht⟩⟩
  · exact growsByAtMostOne_of_eq rfl
  · exact (transact_faults_grow hw :)
  · exact growsByAtMostOne_of_eq (complete_faults _)
  · exact growsByAtMostOne_of_eq (resetBlock_faults _)
  · exact (hostTurn_faults_grow ht :)

/-- A step that takes a reset event is `resetBlock` (R290). -/
theorem step_reset {s t : State} {rest : List BusEvent} (hb : s.bus = .reset :: rest) (h : step s = .next t) :
    t = resetBlock { s with bus := rest } := by
  rcases (step_cases h).2 with ⟨hn, -⟩ | ⟨rest', ⟨w, hn, -⟩ | ⟨hn, -⟩ | ⟨hn, ht⟩ | ⟨hn, -⟩⟩ <;>
    rw [hb] at hn <;> cases hn
  exact ht

/-- Settles O46: a step's fault list grows by at most one entry because each kind of event's does, and reset's update
leaves the list alone. -/
theorem faultsOnlyGrow : Obligations.FaultsOnlyGrow := by
  refine ⟨fun _ _ => rfl, fun _ _ h => step_faults_grow h, fun s t rest hb h => ?_⟩
  rw [step_reset hb h, resetBlock_faults]

end Sys2Proof.Machine
end

section
/-! PROOFS. Which transaction words decode (30_encoding.md R91, R94, R95, R103; 20_memory.md R63) and what one that
does not decode does at the SSB (60_exceptions.md R262). -/

namespace Sys2Proof

/-! ## The decoder, case by case -/

theorem decode_of_res_ne {c : Config} {t : Txn} (h : t.res ≠ 0) : decode c t = .refused .reservedField := if_neg h

theorem decode_of_outside {c : Config} {t : Txn} (h : t.res = 0) (hw : ¬ c.InWindow t.addr.toNat) :
    decode c t = .refused .outsideWindows :=
  (if_pos h).trans (if_neg hw)

theorem decode_of_inWindow {c : Config} {t : Txn} (h : t.res = 0) (hw : c.InWindow t.addr.toNat) :
    decode c t = firstRow (decodeRows c t) :=
  (if_pos h).trans (if_pos hw)

/-- R94: a row matches only an access of its own width. -/
theorem size_of_matching_row {c : Config} {t : Txn} {i : Instr} (h : (true, i) ∈ decodeRows c t) : t.size = i.size := by
  simp only [decodeRows, List.mem_cons, Prod.mk.injEq, List.not_mem_nil, or_false] at h
  rcases h with h | h | h | h | h | h | h | h | h | h | h | h | h | h | h <;> obtain ⟨hit, rfl⟩ := h <;>
    simp only [Bool.true_eq, Bool.and_eq_true, beq_iff_eq] at hit <;> obtain ⟨⟨-, hsize⟩, -⟩ := hit <;> exact hsize

/-- R93: no transaction of the opcode table has the width code 11. -/
theorem Instr.size_ne_11 (i : Instr) : i.size ≠ 0b11 := by
  cases i <;> simp [Instr.size, size8, size16, size32]

/-- R93: the width code 11 matches no row. -/
theorem rows_of_size_11 {c : Config} {t : Txn} (h : t.size = 0b11) : ∀ row ∈ decodeRows c t, row.1 = false := by
  rintro ⟨hit, i⟩ hrow
  cases hit with
  | false => rfl
  | true => exact absurd ((size_of_matching_row hrow).symm.trans h) i.size_ne_11

/-- Settles O6: each example word is evaluated through the decoder. -/
theorem exampleWordsDecodeAsTheSpecSays : Obligations.ExampleWordsDecodeAsTheSpecSays := by
  unfold Obligations.ExampleWordsDecodeAsTheSpecSays
  decide

namespace Machine

/-! ## A word at the SSB that decodes as no transaction -/

theorem transact_of_refused {s : State} {t : Txn} {r : DecodeRefusal} (h : decode s.cfg t = .refused r) :
    transact t s = .refused (refuseWord r) := by
  unfold transact
  rw [h]

/-- R95, R262: the whole next state after an access violation. -/
theorem transact_of_violation {s : State} {t : Txn} (h : decode s.cfg t = .accessViolation) :
    transact t s = .next
      { s with
        faults := s.faults ++ [⟨.accessViolation, t, none⟩], rdata := if t.isWrite then none else some 0 } := by
  unfold transact
  rw [h]
  show accessViolation t s = _
  unfold accessViolation
  cases t.isWrite <;> rfl

/-- A step that takes a transaction word is that word at the SSB, the word off the bus (log 2). -/
theorem step_txn {s : State} {t : Txn} {rest : List BusEvent} (hc : s.cfg.Wf) (hb : s.bus = .txn t :: rest) :
    step s = transact t { s with bus := rest } := by
  unfold step nextEvent
  rw [if_pos hc.check, hb]
  rfl

theorem step_of_refused {s : State} {t : Txn} {rest : List BusEvent} {r : DecodeRefusal} (hc : s.cfg.Wf)
    (hb : s.bus = .txn t :: rest) (h : decode s.cfg t = .refused r) : step s = .refused (refuseWord r) :=
  (step_txn hc hb).trans (transact_of_refused h)

/-- Settles O7: the step hands the word to the decoder, which refuses it by name. -/
theorem wordsThatSpellNoTransactionAreRefused : Obligations.WordsThatSpellNoTransactionAreRefused := by
  intro s t rest hc hb
  exact ⟨fun hr => step_of_refused hc hb (decode_of_res_ne hr),
    fun hr hw => step_of_refused hc hb (decode_of_outside hr hw)⟩

/-- Settles O8: with no matching row the decoder's answer is the access violation, and every row asks for a width
other than 11. -/
theorem unmatchedWindowAccessesAreViolations : Obligations.UnmatchedWindowAccessesAreViolations :=
  fun _ _ hr hw =>
    ⟨fun hno => transact_of_violation ((decode_of_inWindow hr hw).trans (firstRow_of_none hno)), rows_of_size_11⟩

end Machine
end Sys2Proof
end

section
/-! PROOFS. The CRC register's loop (40_crc.md R124): it is linear over exclusive-or, it only shifts while no set bit
reaches the top, and it equals its closed form (R125). -/

namespace Sys2Proof.Machine

/-! ## The loop -/

theorem crcShift_of_top_clear {c : Half} (h : c.getLsbD 15 = false) : crcShift c = c <<< 1 :=
  if_neg (by rw [h]; decide)

theorem crcShift_of_top_set {c : Half} (h : c.getLsbD 15 = true) : crcShift c = (c <<< 1) ^^^ 0x1021 := if_pos h

/-- The polynomial enters a sum exactly when it enters one of the two summands. -/
theorem crcShift_xor (c d : Half) : crcShift (c ^^^ d) = crcShift c ^^^ crcShift d := by
  have hbit : (c ^^^ d).getLsbD 15 = (c.getLsbD 15 ^^ d.getLsbD 15) := BitVec.getLsbD_xor
  have hshift : (c ^^^ d) <<< 1 = (c <<< 1) ^^^ (d <<< 1) := BitVec.shiftLeft_xor_distrib c d 1
  cases hc : c.getLsbD 15 <;> cases hd : d.getLsbD 15 <;> rw [hc, hd] at hbit
  · rw [crcShift_of_top_clear hc, crcShift_of_top_clear hd, crcShift_of_top_clear hbit, hshift]
  · rw [crcShift_of_top_clear hc, crcShift_of_top_set hd, crcShift_of_top_set hbit, hshift, BitVec.xor_assoc]
  · rw [crcShift_of_top_set hc, crcShift_of_top_clear hd, crcShift_of_top_set hbit, hshift]
    ac_rfl
  · rw [crcShift_of_top_set hc, crcShift_of_top_set hd, crcShift_of_top_clear hbit, hshift]
    have hpoly : (0x1021 : Half) ^^^ 0x1021 = 0#16 := BitVec.xor_self
    calc (c <<< 1) ^^^ (d <<< 1)
      _ = (c <<< 1) ^^^ (d <<< 1) ^^^ ((0x1021 : Half) ^^^ 0x1021) := by rw [hpoly, BitVec.xor_zero]
      _ = (c <<< 1 ^^^ 0x1021) ^^^ (d <<< 1 ^^^ 0x1021) := by ac_rfl

theorem crcShifts_xor (n : Nat) (c d : Half) : crcShifts n (c ^^^ d) = crcShifts n c ^^^ crcShifts n d := by
  induction n generalizing c d with
  | zero => rfl
  | succ n ih => simp only [crcShifts, crcShift_xor, ih]

/-- While no set bit reaches the top, the polynomial never enters. -/
theorem crcShifts_of_top_clear {n : Nat} {c : Half} (h : ∀ i, 16 ≤ i + n → c.getLsbD i = false) :
    crcShifts n c = c <<< n := by
  induction n generalizing c with
  | zero => simp [crcShifts]
  | succ n ih =>
    have hnext : ∀ i, 16 ≤ i + n → (c <<< 1).getLsbD i = false := by
      intro i hi
      by_cases hi1 : i < 1
      · simp [BitVec.getLsbD_shiftLeft, hi1]
      · simp [BitVec.getLsbD_shiftLeft, h (i - 1) (by omega)]
    calc crcShifts (n + 1) c
      _ = crcShifts n (c <<< 1) := by rw [crcShifts, crcShift_of_top_clear (h 15 (by omega))]
      _ = c <<< 1 <<< n := ih hnext
      _ = c <<< (n + 1) := by rw [← BitVec.shiftLeft_add, Nat.add_comm]

/-! ## The closed form -/

/-- The register's high byte, which meets the byte fed, and its low byte, which only moves up (R125). -/
theorem crcEntry_eq (c : Half) (b : Byte) :
    c ^^^ (b.setWidth 16 <<< 8) = ((c.extractLsb' 8 8 ^^^ b).setWidth 16 <<< 8) ^^^ (c.setWidth 8).setWidth 16 := by
  ext i hi
  interval_cases i <;> simp

theorem lowByte_shiftLeft_eight (c : Half) : (c.setWidth 8).setWidth 16 <<< 8 = c <<< 8 := by
  ext i hi
  interval_cases i <;> simp

theorem crcShifts_lowByte (c : Half) : crcShifts 8 ((c.setWidth 8).setWidth 16) = c <<< 8 := by
  rw [crcShifts_of_top_clear, lowByte_shiftLeft_eight]
  intro i hi
  have hi8 : ¬ i < 8 := by omega
  simp [hi8]

/-- R125's word for the byte that eight shifts move out of the top: a table of 256 entries, checked one by one. -/
theorem crcShifts_highByte : ∀ x₀ : Byte,
    let x : Byte := x₀ ^^^ (x₀ >>> 4)
    crcShifts 8 (x₀.setWidth 16 <<< 8) = (x.setWidth 16 <<< 12) ^^^ (x.setWidth 16 <<< 5) ^^^ x.setWidth 16 := by
  decide

/-- Settles O12: by linearity the loop works on the two bytes apart. The low byte only moves up; what the high byte
leaves is R125's word for it. -/
theorem crcLoopEqualsClosedForm : Obligations.CrcLoopEqualsClosedForm := by
  intro c b x₀ x
  calc crcStep c b
    _ = crcShifts 8 ((x₀.setWidth 16 <<< 8) ^^^ (c.setWidth 8).setWidth 16) := by rw [crcStep, crcEntry_eq]
    _ = crcShifts 8 (x₀.setWidth 16 <<< 8) ^^^ crcShifts 8 ((c.setWidth 8).setWidth 16) := crcShifts_xor ..
    _ = ((x.setWidth 16 <<< 12) ^^^ (x.setWidth 16 <<< 5) ^^^ x.setWidth 16) ^^^ (c <<< 8) :=
      congrArg₂ (· ^^^ ·) (crcShifts_highByte x₀) (crcShifts_lowByte c)
    _ = (c <<< 8) ^^^ (x.setWidth 16 <<< 12) ^^^ (x.setWidth 16 <<< 5) ^^^ x.setWidth 16 := by ac_rfl

/-! ## Messages -/

theorem crcFold_nil (c : Half) : crcFold c [] = c := rfl

theorem crcFold_cons (c : Half) (b : Byte) (m : List Byte) : crcFold c (b :: m) = crcFold (crcStep c b) m := rfl

/-- The CRC of the bytes "1" to "9" (95_test_vectors.md V1, V7), the register after each byte written out. -/
theorem crc16_checkMessage : crc16 [0x31, 0x32, 0x33, 0x34, 0x35, 0x36, 0x37, 0x38, 0x39] = 0x29B1 := by
  obtain ⟨h1, h2, h3, h4, h5, h6, h7, h8, h9⟩ :
      crcStep 0xFFFF 0x31 = 0xC782 ∧ crcStep 0xC782 0x32 = 0x3DBA ∧ crcStep 0x3DBA 0x33 = 0x5BCE ∧
      crcStep 0x5BCE 0x34 = 0x5349 ∧ crcStep 0x5349 0x35 = 0x4560 ∧ crcStep 0x4560 0x36 = 0x2EF4 ∧
      crcStep 0x2EF4 0x37 = 0x7718 ∧ crcStep 0x7718 0x38 = 0xA12B ∧ crcStep 0xA12B 0x39 = 0x29B1 := by decide
  simp only [crc16, crcFold_cons, crcFold_nil, h1, h2, h3, h4, h5, h6, h7, h8, h9]

end Sys2Proof.Machine
end

section
/-! PROOFS. The CRC unit's four transactions (40_crc.md R120-R123, R128): their words, the equation of each, and that
the unit and the flash controller do not affect each other. -/

namespace Sys2Proof

/-! ## The words of the CRC window (30_encoding.md R94, R95) -/

section Words
variable {c : Config} {a : Word}

/-- R60: an offset below the window's size is an address of the CRC window. -/
theorem inWindow_of_eq_crcBase_add {k : Nat} (ha : a.toNat = c.crcBase + k) (hk : k < Config.windowSize) :
    c.InWindow a.toNat :=
  .inr (.inr (by omega))

theorem decode_crcFeed (ha : a.toNat = c.regCrcData) (d : Word) :
    decode c (Txn.make true size8 a d) = .op (.crcFeed (d.setWidth 8)) := by
  rw [decode_make, if_pos (inWindow_of_eq_crcBase_add ha (by decide))]
  simp [decodeRows, firstRow_cons, ha]

theorem decode_crcRead16 (ha : a.toNat = c.regCrcValue) (h2 : c.regCrcValue % 2 = 0) (d : Word) :
    decode c (Txn.make false size16 a d) = .op .crcRead16 := by
  rw [decode_make, if_pos (inWindow_of_eq_crcBase_add ha (by decide))]
  simp [decodeRows, firstRow_cons, ha, h2]

theorem decode_crcRead32 (ha : a.toNat = c.regCrcValue) (h4 : c.regCrcValue % 4 = 0) (d : Word) :
    decode c (Txn.make false size32 a d) = .op .crcRead32 := by
  rw [decode_make, if_pos (inWindow_of_eq_crcBase_add ha (by decide))]
  simp [decodeRows, firstRow_cons, ha, h4, size16, size32]

theorem decode_crcCtrlWr (ha : a.toNat = c.regCrcCtrl) (h4 : c.regCrcCtrl % 4 = 0) (d : Word) :
    decode c (Txn.make true size32 a d) = .op (.crcCtrlWr d) := by
  rw [decode_make, if_pos (inWindow_of_eq_crcBase_add ha (by decide))]
  simp [decodeRows, firstRow_cons, ha, h4, size8, size32]

/-- R60: no register a write can reach, but `CRC_DATA` itself, has `CRC_DATA`'s address, nor has a flash byte. -/
theorem regCrcData_apart (hc : c.Wf) :
    c.regCrcData ≠ c.regCrcCtrl ∧ c.regCrcData ≠ c.regKeyr ∧ c.regCrcData ≠ c.regCtlr ∧
      c.regCrcData ≠ c.regAddr ∧ c.regCrcData ≠ c.regModeKeyr ∧ ¬ c.InFlash c.regCrcData := by
  obtain ⟨-, hflash, hfctl⟩ := hc.windows
  simp only [Config.regCrcData, Config.regCrcCtrl, Config.regKeyr, Config.regCtlr, Config.regAddr,
    Config.regModeKeyr, Config.InFlash]
  omega

/-- R121: `CRC_DATA` takes a byte only. Every other row of a write has its address elsewhere. -/
theorem decode_crcData_of_size_ne (hc : c.Wf) (ha : a.toNat = c.regCrcData) {sz : BitVec 2} (hsz : sz ≠ size8)
    (d : Word) : decode c (Txn.make true sz a d) = .accessViolation := by
  obtain ⟨hctrl, hkeyr, hctlr, haddr, hmode, hflash⟩ := regCrcData_apart hc
  rw [decode_make, if_pos (inWindow_of_eq_crcBase_add ha (by decide))]
  apply firstRow_of_none
  simp [decodeRows, ha, hsz, hctrl, hkeyr, hctlr, haddr, hmode, hflash]

end Words

namespace Machine

/-! ## What each transaction does -/

theorem exec_crcFeed (b : Byte) (s : State) :
    exec (.crcFeed b) s = .next { s with crc := crcStep s.crc b, rdata := none } := rfl

theorem exec_crcRead16 (s : State) : exec .crcRead16 s = .next { s with rdata := some (s.crc.setWidth 32) } := rfl

theorem exec_crcRead32 (s : State) : exec .crcRead32 s = .next { s with rdata := some (s.crc.setWidth 32) } := rfl

theorem exec_crcCtrlWr (d : Word) (s : State) :
    exec (.crcCtrlWr d) s = finishWrite (encode s.cfg (.crcCtrlWr d)) s (crcCtrlWrite d s) := rfl

/-- R120, R263: a reserved bit is a fault and nothing else. -/
theorem exec_crcCtrlWr_of_reserved {d : Word} (h : d &&& crcCtrlReserved ≠ 0) (s : State) :
    exec (.crcCtrlWr d) s = .next
      { s with faults := s.faults ++ [⟨.reservedBit, encode s.cfg (.crcCtrlWr d), none⟩], rdata := none } := by
  rw [exec_crcCtrlWr, crcCtrlWrite, if_pos h]
  rfl

theorem exec_crcCtrlWr_of_init {d : Word} (h : d &&& crcCtrlReserved = 0) (hi : dInit d = true) (s : State) :
    exec (.crcCtrlWr d) s = .next { s with crc := 0xFFFF, rdata := none } := by
  rw [exec_crcCtrlWr, crcCtrlWrite, if_neg (not_not.2 h), if_pos hi]
  rfl

theorem exec_crcCtrlWr_of_not_init {d : Word} (h : d &&& crcCtrlReserved = 0) (hi : dInit d = false) (s : State) :
    exec (.crcCtrlWr d) s = .next { s with rdata := none } := by
  rw [exec_crcCtrlWr, crcCtrlWrite, if_neg (not_not.2 h), hi]
  rfl

/-- Settles O13: the word's rows, the feed's equation, and the corner cases evaluated. -/
theorem crcFeedFeedsOneByte : Obligations.CrcFeedFeedsOneByte := by
  refine ⟨fun c _ h d => decode_crcFeed (toNat_busAddr h.1) d, exec_crcFeed, fun c hc h sz d hsz => ?_,
    fun b s => ?_, ?_⟩
  · exact decode_crcData_of_size_ne hc (toNat_busAddr h.1) (by rcases hsz with rfl | rfl <;> decide) d
  · exact ⟨_, exec_crcFeed b s, exec_crcRead16 _⟩
  · decide

/-- Settles O14: the words' rows and the two reads' equations, with the CRC of R122's message. -/
theorem crcReadsReturnTheRegister : Obligations.CrcReadsReturnTheRegister := by
  refine ⟨fun c _ d =>
    ⟨fun h => decode_crcRead16 (toNat_busAddr h.1) h.2 d, fun h => decode_crcRead32 (toNat_busAddr h.1) h.2 d⟩,
    fun s => ⟨exec_crcRead16 s, exec_crcRead32 s⟩,
    fun s hs => ?_, exec_crcRead32 _⟩
  rw [exec_crcRead16, hs, crc16_checkMessage]
  rfl

/-- Settles O15: the three outcomes of a `CRC_CTRL` write, none of which asks for the lock state or `BSY`. -/
theorem crcControlWriteInitialises : Obligations.CrcControlWriteInitialises :=
  ⟨fun _ _ h d => decode_crcCtrlWr (toNat_busAddr h.1) h.2 d, fun _ s h => exec_crcCtrlWr_of_reserved h s,
    exec_crcCtrlWr_of_init (by decide) (by decide), exec_crcCtrlWr_of_not_init (by decide) (by decide)⟩

/-! ## The unit and the controller (R128) -/

/-- The transactions of the CRC unit. -/
def IsCrcUnit (i : Instr) : Prop :=
  (∃ b, i = .crcFeed b) ∨ i = .crcRead16 ∨ i = .crcRead32 ∨ ∃ d, i = .crcCtrlWr d

/-- What a transaction of the CRC unit does to the register, and what it returns, is a function of the register alone;
beyond them it touches only the fault list. -/
theorem exec_crcUnit {i : Instr} (hi : IsCrcUnit i) :
    ∃ (register : Half → Half) (answer : Half → Option Word), ∀ s, ∃ fs,
      exec i s = .next { s with crc := register s.crc, rdata := answer s.crc, faults := fs } := by
  rcases hi with ⟨b, rfl⟩ | rfl | rfl | ⟨d, rfl⟩
  · exact ⟨(crcStep · b), fun _ => none, fun s => ⟨s.faults, exec_crcFeed b s⟩⟩
  · exact ⟨id, fun c => some (c.setWidth 32), fun s => ⟨s.faults, exec_crcRead16 s⟩⟩
  · exact ⟨id, fun c => some (c.setWidth 32), fun s => ⟨s.faults, exec_crcRead32 s⟩⟩
  · by_cases hr : d &&& crcCtrlReserved = 0
    · cases hd : dInit d with
      | true => exact ⟨fun _ => 0xFFFF, fun _ => none, fun s => ⟨s.faults, exec_crcCtrlWr_of_init hr hd s⟩⟩
      | false => exact ⟨id, fun _ => none, fun s => ⟨s.faults, exec_crcCtrlWr_of_not_init hr hd s⟩⟩
    · exact ⟨id, fun _ => none, fun s => ⟨_, exec_crcCtrlWr_of_reserved hr s⟩⟩

@[simp] theorem start_crc (s : State) : (start s).crc = s.crc := by
  unfold start
  split <;> simp

@[simp] theorem performAction_crc (s : State) (act : CtlrAction) : (performAction s act).crc = s.crc := by
  cases act with
  | strt => exact start_crc s
  | bufLoad => exact bufLoad_crc s
  | bufRst => exact bufReset_crc s
  | lockSet => exact lockSet_crc s
  | flockSet => exact flockSet_crc s

theorem ctlrWrite_ok_crc {d : Word} {s s' : State} (h : ctlrWrite d s = .ok s') : s'.crc = s.crc := by
  rcases ctlrWrite_ok h with rfl | ⟨-, -, rfl⟩ | ⟨-, -, rfl⟩ | ⟨-, -, -, rfl | ⟨act, -, -, -, rfl⟩⟩
  · rfl
  · exact lockSet_crc s
  · exact flockSet_crc s
  · exact applyMode_crc ..
  · rw [performAction_crc, applyMode_crc]

@[simp] theorem mainKey_crc (t : Txn) (d : Word) (s : State) : (mainKey t d s).crc = s.crc := by
  rcases mainKey_cases t d s with ⟨-, -, h⟩ | ⟨-, -, h⟩ | h <;> rw [h]
  exact keyError_crc t s

@[simp] theorem modeKey_crc (t : Txn) (d : Word) (s : State) : (modeKey t d s).crc = s.crc := by
  rcases modeKey_cases t d s with ⟨-, -, h⟩ | ⟨-, -, h⟩ | h <;> rw [h]
  exact keyError_crc t s

theorem keyrWrite_ok_crc {t : Txn} {d : Word} {s s' : State} (h : keyrWrite t d s = .ok s') : s'.crc = s.crc := by
  unfold keyrWrite at h
  split_ifs at h
  cases h
  exact mainKey_crc t d s

theorem modeKeyrWrite_ok_crc {t : Txn} {d : Word} {s s' : State} (h : modeKeyrWrite t d s = .ok s') :
    s'.crc = s.crc := by
  unfold modeKeyrWrite at h
  split_ifs at h
  cases h
  exact modeKey_crc t d s

theorem addrWrite_ok_crc {d : Word} {s s' : State} (h : addrWrite d s = .ok s') : s'.crc = s.crc := by
  unfold addrWrite at h
  split_ifs at h
  cases h
  rfl

theorem flashDataWrite_ok_crc {a d : Word} {s s' : State} (h : flashDataWrite a d s = .ok s') : s'.crc = s.crc := by
  unfold flashDataWrite at h
  split_ifs at h
  cases h
  rfl

/-- A write whose effect keeps the CRC register keeps it whatever its checks find. -/
theorem finishWrite_crc {t : Txn} {s s' : State} {r : Except Violation State} (h : finishWrite t s r = .next s')
    (hr : ∀ s₁, r = .ok s₁ → s₁.crc = s.crc) : s'.crc = s.crc := by
  rcases finishWrite_cases h with ⟨s₁, hs₁, rfl⟩ | ⟨v, -, rfl⟩
  · exact hr s₁ hs₁
  · rfl

theorem flashRead_crc {n : Nat} {a : Word} {s t : State} (h : flashRead n a s = .next t) : t.crc = s.crc := by
  obtain ⟨d, hd, -⟩ := readFlashBytes_state s a.toNat n
  cases h
  rw [returnData_crc, hd]

/-- R128, the other direction: every transaction of the controller and of the flash window keeps the CRC register. -/
theorem exec_crc_of_not_crcUnit {i : Instr} {s t : State} (hi : ¬ IsCrcUnit i) (h : exec i s = .next t) :
    t.crc = s.crc := by
  cases i with
  | crcFeed b => exact absurd (.inl ⟨b, rfl⟩) hi
  | crcRead16 => exact absurd (.inr (.inl rfl)) hi
  | crcRead32 => exact absurd (.inr (.inr (.inl rfl))) hi
  | crcCtrlWr d => exact absurd (.inr (.inr (.inr ⟨d, rfl⟩))) hi
  | fkeyrWr d => exact finishWrite_crc h fun _ => keyrWrite_ok_crc
  | fctlrWr d => exact finishWrite_crc h fun _ => ctlrWrite_ok_crc
  | faddrWr d => exact finishWrite_crc h fun _ => addrWrite_ok_crc
  | fmodekeyrWr d => exact finishWrite_crc h fun _ => modeKeyrWrite_ok_crc
  | flashWr32 a d => exact finishWrite_crc h fun _ => flashDataWrite_ok_crc
  | fstatrRd => cases h; rfl
  | fctlrRd => cases h; rfl
  | faddrRd => cases h; rfl
  | flashRd8 a => exact flashRead_crc h
  | flashRd16 a => exact flashRead_crc h
  | flashRd32 a => exact flashRead_crc h

/-- Settles O16: a transaction of the CRC unit is a function of its register, and every other keeps it. -/
theorem crcUnitAndControllerAreIndependent : Obligations.CrcUnitAndControllerAreIndependent := by
  refine ⟨fun b b' s => ⟨_, exec_crcFeed b s, rfl, exec_crcFeed b' _, exec_crcRead32 _⟩,
    fun i s t h => ⟨fun hi => ?_, fun hi => exec_crc_of_not_crcUnit hi h⟩, complete_crc⟩
  obtain ⟨register, answer, hexec⟩ := exec_crcUnit hi
  obtain ⟨fs, hs⟩ := hexec s
  cases hs.symm.trans h
  refine ⟨rfl, fun s' t' h' hcrc => ?_⟩
  obtain ⟨fs', hs'⟩ := hexec s'
  cases hs'.symm.trans h'
  exact ⟨congrArg register hcrc, congrArg answer hcrc⟩

end Machine
end Sys2Proof
end

section
/-! PROOFS. The two unlock key registers (41_flash_lock.md R140, R142): their words, what each branch of a key write does,
and the two key pairs in order. -/

namespace Sys2Proof

/-! ## The words of the key registers (30_encoding.md R94) -/

section Words
variable {c : Config} {a : Word}

/-- R60: an offset below the window's size is an address of the flash controller's window. -/
theorem inWindow_of_eq_fctlBase_add {k : Nat} (ha : a.toNat = c.fctlBase + k) (hk : k < Config.windowSize) :
    c.InWindow a.toNat :=
  .inr (.inl (by omega))

/-- R60: the windows are disjoint, so no address of the controller's window is `CRC_CTRL`'s. -/
theorem ne_regCrcCtrl_of_eq_fctlBase_add (hc : c.Wf) {k : Nat} (ha : a.toNat = c.fctlBase + k)
    (hk : k < Config.windowSize) : a.toNat ≠ c.regCrcCtrl := by
  obtain ⟨-, -, hfctl⟩ := hc.windows
  simp only [Config.regCrcCtrl, Config.windowSize] at hk ⊢
  omega

theorem decode_fkeyrWr (hc : c.Wf) (ha : a.toNat = c.regKeyr) (h4 : c.regKeyr % 4 = 0) (d : Word) :
    decode c (Txn.make true size32 a d) = .op (.fkeyrWr d) := by
  have hcrc : c.regKeyr ≠ c.regCrcCtrl := ha ▸ ne_regCrcCtrl_of_eq_fctlBase_add hc ha (by decide)
  rw [decode_make, if_pos (inWindow_of_eq_fctlBase_add ha (by decide))]
  simp [decodeRows, firstRow_cons, ha, h4, hcrc, size8, size32]

theorem decode_fmodekeyrWr (hc : c.Wf) (ha : a.toNat = c.regModeKeyr) (h4 : c.regModeKeyr % 4 = 0) (d : Word) :
    decode c (Txn.make true size32 a d) = .op (.fmodekeyrWr d) := by
  have hcrc : c.regModeKeyr ≠ c.regCrcCtrl := ha ▸ ne_regCrcCtrl_of_eq_fctlBase_add hc ha (by decide)
  have hother : c.regModeKeyr ≠ c.regKeyr ∧ c.regModeKeyr ≠ c.regCtlr ∧ c.regModeKeyr ≠ c.regAddr := by
    simp [Config.regModeKeyr, Config.regKeyr, Config.regCtlr, Config.regAddr]
  rw [decode_make, if_pos (inWindow_of_eq_fctlBase_add ha (by decide))]
  simp [decodeRows, firstRow_cons, ha, h4, hcrc, hother, size8, size32]

end Words

namespace Machine

/-! ## What the two sequencers do with a key -/

section Keys
variable {t : Txn} {d : Word} {s : State}

theorem mainKey_first (hk : s.keySeq = .idle) (hd : d = s.cfg.key1) :
    mainKey t d s = { s with keySeq := .key1Seen } := by
  simp only [mainKey, hk, if_pos hd]

theorem mainKey_first_wrong (hk : s.keySeq = .idle) (hd : d ≠ s.cfg.key1) : mainKey t d s = keyError t s := by
  simp only [mainKey, hk, if_neg hd]

theorem mainKey_second (hk : s.keySeq = .key1Seen) (hd : d = s.cfg.key2) :
    mainKey t d s = { s with lock := false, keySeq := .idle } := by
  simp only [mainKey, hk, if_pos hd]

theorem mainKey_second_wrong (hk : s.keySeq = .key1Seen) (hd : d ≠ s.cfg.key2) : mainKey t d s = keyError t s := by
  simp only [mainKey, hk, if_neg hd]

theorem modeKey_first (hk : s.modeKeySeq = .idle) (hd : d = s.cfg.mkey1) :
    modeKey t d s = { s with modeKeySeq := .key1Seen } := by
  simp only [modeKey, hk, if_pos hd]

theorem modeKey_first_wrong (hk : s.modeKeySeq = .idle) (hd : d ≠ s.cfg.mkey1) : modeKey t d s = keyError t s := by
  simp only [modeKey, hk, if_neg hd]

theorem modeKey_second (hk : s.modeKeySeq = .key1Seen) (hd : d = s.cfg.mkey2) :
    modeKey t d s = { s with flock := false, modeKeySeq := .idle } := by
  simp only [modeKey, hk, if_pos hd]

theorem modeKey_second_wrong (hk : s.modeKeySeq = .key1Seen) (hd : d ≠ s.cfg.mkey2) :
    modeKey t d s = keyError t s := by
  simp only [modeKey, hk, if_neg hd]

end Keys

/-! ## What a key write does -/

section KeyWrites
variable {s : State} (d : Word)

theorem exec_fkeyrWr (s : State) :
    exec (.fkeyrWr d) s = finishWrite (encode s.cfg (.fkeyrWr d)) s (keyrWrite (encode s.cfg (.fkeyrWr d)) d s) := rfl

theorem exec_fkeyrWr_of_busy (hb : s.bsy = true) :
    exec (.fkeyrWr d) s = .next (acknowledge (raise .busy (encode s.cfg (.fkeyrWr d)) none s)) := by
  rw [exec_fkeyrWr, keyrWrite, if_pos hb, finishWrite_error]

theorem exec_fkeyrWr_of_barred (hb : s.bsy = false) (hbar : s.barred = true) :
    exec (.fkeyrWr d) s = .next (acknowledge (raise .keySequence (encode s.cfg (.fkeyrWr d)) none s)) := by
  rw [exec_fkeyrWr, keyrWrite, if_neg (by simp [hb]), if_pos hbar, finishWrite_error]

/-- R140: past its two checks, the write hands its key to the main sequencer. -/
theorem exec_fkeyrWr_of_accepted (hb : s.bsy = false) (hbar : s.barred = false) :
    exec (.fkeyrWr d) s = .next (acknowledge (mainKey (encode s.cfg (.fkeyrWr d)) d s)) := by
  rw [exec_fkeyrWr, keyrWrite, if_neg (by simp [hb]), if_neg (by simp [hbar]), finishWrite_ok]

theorem exec_fmodekeyrWr (s : State) :
    exec (.fmodekeyrWr d) s =
      finishWrite (encode s.cfg (.fmodekeyrWr d)) s (modeKeyrWrite (encode s.cfg (.fmodekeyrWr d)) d s) := rfl

theorem exec_fmodekeyrWr_of_busy (hb : s.bsy = true) :
    exec (.fmodekeyrWr d) s = .next (acknowledge (raise .busy (encode s.cfg (.fmodekeyrWr d)) none s)) := by
  rw [exec_fmodekeyrWr, modeKeyrWrite, if_pos hb, finishWrite_error]

/-- R142: barred, or with the main lock set, a mode key is a fault and changes nothing else. -/
theorem exec_fmodekeyrWr_of_barred_or_locked (hb : s.bsy = false) (h : s.barred = true ∨ s.lock = true) :
    exec (.fmodekeyrWr d) s = .next (acknowledge (raise .keySequence (encode s.cfg (.fmodekeyrWr d)) none s)) := by
  have hw : modeKeyrWrite (encode s.cfg (.fmodekeyrWr d)) d s = .error ⟨.keySequence, none⟩ := by
    rw [modeKeyrWrite, if_neg (by simp [hb])]
    by_cases hbar : s.barred = true
    · rw [if_pos hbar]
    · rw [if_neg hbar, if_pos (h.resolve_left hbar)]
  rw [exec_fmodekeyrWr, hw, finishWrite_error]

/-- R142: past its three checks, the write hands its key to the mode sequencer. -/
theorem exec_fmodekeyrWr_of_accepted (hb : s.bsy = false) (hbar : s.barred = false) (hl : s.lock = false) :
    exec (.fmodekeyrWr d) s = .next (acknowledge (modeKey (encode s.cfg (.fmodekeyrWr d)) d s)) := by
  rw [exec_fmodekeyrWr, modeKeyrWrite, if_neg (by simp [hb]), if_neg (by simp [hbar]),
    if_neg (by simp [hl]), finishWrite_ok]

end KeyWrites

/-! ## The key pairs in order -/

section Pairs
variable {s : State} (hb : s.bsy = false) (hbar : s.barred = false)
include hb hbar

/-- R140: the main pair clears `LOCK` and leaves its sequencer idle, as it was. -/
theorem exec_mainPair (hk : s.keySeq = .idle) :
    ∃ t, exec (.fkeyrWr s.cfg.key1) s = .next t ∧
      exec (.fkeyrWr s.cfg.key2) t = .next { s with lock := false, rdata := none } := by
  let s₁ := acknowledge { s with keySeq := .key1Seen }
  refine ⟨s₁, by rw [exec_fkeyrWr_of_accepted _ hb hbar, mainKey_first hk rfl], ?_⟩
  rw [exec_fkeyrWr_of_accepted (s := s₁) _ hb hbar, mainKey_second (d := s.cfg.key2) (s := s₁) rfl rfl, ← hk]
  rfl

/-- R142: the mode pair clears `FLOCK` and leaves its sequencer idle, as it was. -/
theorem exec_modePair (hl : s.lock = false) (hk : s.modeKeySeq = .idle) :
    ∃ t, exec (.fmodekeyrWr s.cfg.mkey1) s = .next t ∧
      exec (.fmodekeyrWr s.cfg.mkey2) t = .next { s with flock := false, rdata := none } := by
  let s₁ := acknowledge { s with modeKeySeq := .key1Seen }
  refine ⟨s₁, by rw [exec_fmodekeyrWr_of_accepted _ hb hbar hl, modeKey_first hk rfl], ?_⟩
  rw [exec_fmodekeyrWr_of_accepted (s := s₁) _ hb hbar hl, modeKey_second (d := s.cfg.mkey2) (s := s₁) rfl rfl, ← hk]
  rfl

end Pairs

/-- Settles O19: the word's row, the write's two checks, and the sequencer's four answers past them. -/
theorem mainKeyWritesAdvanceTheSequence : Obligations.MainKeyWritesAdvanceTheSequence := by
  refine ⟨fun c hc h d => decode_fkeyrWr hc (toNat_busAddr h.1) h.2 d, fun d s => ?_,
    exec_mainPair (s := State.reset) rfl rfl rfl⟩
  refine ⟨exec_fkeyrWr_of_busy d, exec_fkeyrWr_of_barred d, fun hb hbar hk => ?_, fun hb hbar hk => ?_⟩ <;>
    rw [exec_fkeyrWr_of_accepted d hb hbar]
  · exact ⟨fun hd => by rw [mainKey_first hk hd]; rfl, fun hd => by rw [mainKey_first_wrong hk hd]; rfl⟩
  · exact ⟨fun hd => by rw [mainKey_second hk hd]; rfl, fun hd => by rw [mainKey_second_wrong hk hd]; rfl⟩

/-- Settles O20: the word's row, the write's three checks, and the sequencer's four answers past them. -/
theorem modeKeyWritesAdvanceTheSequence : Obligations.ModeKeyWritesAdvanceTheSequence := by
  refine ⟨fun c hc h d => decode_fmodekeyrWr hc (toNat_busAddr h.1) h.2 d, fun d s => ?_,
    exec_modePair (s := { State.reset with lock := false }) rfl rfl rfl rfl⟩
  refine ⟨exec_fmodekeyrWr_of_busy d, exec_fmodekeyrWr_of_barred_or_locked d, fun hb hbar hl hk => ?_,
    fun hb hbar hl hk => ?_⟩ <;> rw [exec_fmodekeyrWr_of_accepted d hb hbar hl]
  · exact ⟨fun hd => by rw [modeKey_first hk hd]; rfl, fun hd => by rw [modeKey_first_wrong hk hd]; rfl⟩
  · exact ⟨fun hd => by rw [modeKey_second hk hd]; rfl, fun hd => by rw [modeKey_second_wrong hk hd]; rfl⟩

end Machine
end Sys2Proof
end

section
/-! PROOFS. The bar of a key error (41_flash_lock.md R141): nothing but reset opens a barred, locked controller. -/

namespace Sys2Proof.Machine

/-- R141: barred, with both lock bits set. -/
def State.Shut (s : State) : Prop := s.barred = true ∧ s.lock = true ∧ s.flock = true

section Shut
variable {s t : State} (hs : s.Shut)
include hs

/-- Every accepted write of a key needs `barred` = 0, and one of an action or a data word a lock bit at 0. -/
theorem exec_keeps_shut {i : Instr} (h : exec i s = .next t) : t.Shut := by
  obtain ⟨hbar, hl, hf⟩ := hs
  rcases exec_cases h with ⟨v, d, -, -, rfl⟩ | ⟨c, -, rfl⟩ | ⟨v, -, rfl⟩ | ⟨-, accepted⟩
  · exact ⟨hbar, hl, hf⟩
  · exact ⟨hbar, hl, hf⟩
  · exact ⟨hbar, hl, hf⟩
  rcases accepted with ⟨d, -, hopen, -⟩ | ⟨d, -, hopen, -⟩ | ⟨d, -, rfl⟩ | ⟨d, -, s', hs', rfl⟩ |
    ⟨a, d, -, hu, -⟩
  · exact absurd hbar (by simp [hopen])
  · exact absurd hbar (by simp [hopen])
  · exact ⟨hbar, hl, hf⟩
  · rcases ctlrWrite_ok hs' with rfl | ⟨-, hl', -⟩ | ⟨-, hf', -⟩ | ⟨-, hl', -⟩
    · exact ⟨hbar, hl, hf⟩
    · exact absurd hl (by simp [hl'])
    · exact absurd hf (by simp [hf'])
    · exact absurd hl (by simp [hl'])
  · exact absurd hl (by simp [hu.1])

theorem transact_keeps_shut {w : Txn} (h : transact w s = .next t) : t.Shut := by
  rcases transact_cases h with ⟨i, -, he⟩ | ⟨-, rfl⟩
  · exact exec_keeps_shut hs he
  · exact hs

/-- The host's own updates are no SSB state. -/
theorem hostTurn_keeps_shut (h : hostTurn s = .next t) : t.Shut := by
  rcases hostTurn_cases h with ⟨d, hc, -, s', rfl | ⟨w, hw⟩, hc', rfl, -⟩ | rfl
  · exact hs
  · exact (transact_keeps_shut (s := { s with draws := d, host := hc }) hs hw :)
  · exact hs

theorem complete_keeps_shut : (complete s).Shut := by
  simpa only [State.Shut, complete_barred, complete_lock, complete_flock] using hs

theorem step_keeps_shut (hr : ∀ rest, s.bus ≠ .reset :: rest) (h : step s = .next t) : t.Shut := by
  rcases (step_cases h).2 with ⟨-, rfl⟩ | ⟨rest, ⟨w, -, hw⟩ | ⟨-, rfl⟩ | ⟨hb, -⟩ | ⟨-, ht⟩⟩
  · exact hs
  · exact transact_keeps_shut (s := { s with bus := rest }) hs hw
  · exact complete_keeps_shut (s := { s with bus := rest }) hs
  · exact absurd hb (hr rest)
  · exact hostTurn_keeps_shut (s := { s with bus := rest }) hs ht

end Shut

/-- A reset event on the bus is answered, by `resetBlock` (R290). -/
theorem step_of_reset {s : State} {rest : List BusEvent} (hc : s.cfg.Wf) (hb : s.bus = .reset :: rest) :
    step s = .next (resetBlock { s with bus := rest }) := by
  unfold step nextEvent
  rw [if_pos hc.check, hb]
  rfl

/-- Settles O21: a shut controller stays shut over each kind of event but reset, which clears `barred`. -/
theorem keyErrorBarsUntilReset : Obligations.KeyErrorBarsUntilReset :=
  ⟨fun _ _ => rfl, fun _ _ hr h hbar hl hf => step_keeps_shut ⟨hbar, hl, hf⟩ hr h,
    fun _ _ hc hb => ⟨_, step_of_reset hc hb, resetBlock_barred _⟩⟩

end Sys2Proof.Machine
end

section
/-! PROOFS. The lock actions of a `CTLR` write (41_flash_lock.md R144-R146): when a write asks for one, what it does then,
and that nothing but the second key of its pair clears a lock bit. -/

namespace Sys2Proof.Machine
open Sys2Proof.Spec

/-! ## The actions a data word asks for (R161) -/

/-- The actions of d that need `Unlocked`. -/
def operationActions (d : Word) : List CtlrAction :=
  (if dStrt d then [.strt] else []) ++
  (if dBufLoad d then [.bufLoad] else []) ++
  (if dBufRst d then [.bufRst] else [])

/-- The lock action of d, if it asks for one. -/
def lockActions (d : Word) (s : State) : List CtlrAction :=
  if dLock d && !s.lock then [.lockSet] else if dFlock d && !s.flock then [.flockSet] else []

theorem ctlrActions_eq (d : Word) (s : State) : ctlrActions d s = operationActions d ++ lockActions d s := rfl

theorem not_lock_of_mem_operationActions {d : Word} {a : CtlrAction} (h : a ∈ operationActions d) :
    a ≠ .lockSet ∧ a ≠ .flockSet := by
  simp only [operationActions, List.mem_append, List.mem_ite_nil_right, List.mem_singleton] at h
  rcases h with (⟨-, rfl⟩ | ⟨-, rfl⟩) | ⟨-, rfl⟩ <;> simp

theorem mem_lockActions {d : Word} {s : State} {a : CtlrAction} (h : a ∈ lockActions d s) :
    (a = .lockSet ∧ dLock d = true) ∨ (a = .flockSet ∧ dFlock d = true) := by
  unfold lockActions at h
  split_ifs at h with hl hf
  · exact .inl ⟨List.mem_singleton.1 h, (Bool.and_eq_true_iff.1 hl).1⟩
  · exact .inr ⟨List.mem_singleton.1 h, (Bool.and_eq_true_iff.1 hf).1⟩
  · cases h

/-- R144: a `LOCKSET` is asked for by bit 7 only. -/
theorem ne_lockSet_of_mem_ctlrActions {d : Word} {s : State} {a : CtlrAction} (h : a ∈ ctlrActions d s)
    (hd : dLock d = false) : a ≠ .lockSet := by
  rcases List.mem_append.1 h with hop | hlock
  · exact (not_lock_of_mem_operationActions hop).1
  · rcases mem_lockActions hlock with ⟨-, hd'⟩ | ⟨rfl, -⟩
    · exact absurd (hd'.symm.trans hd) (by decide)
    · decide

/-- R145: a `FLOCKSET` is asked for by bit 15 only. -/
theorem ne_flockSet_of_mem_ctlrActions {d : Word} {s : State} {a : CtlrAction} (h : a ∈ ctlrActions d s)
    (hd : dFlock d = false) : a ≠ .flockSet := by
  rcases List.mem_append.1 h with hop | hlock
  · exact (not_lock_of_mem_operationActions hop).2
  · rcases mem_lockActions hlock with ⟨rfl, -⟩ | ⟨-, hd'⟩
    · decide
    · exact absurd (hd'.symm.trans hd) (by decide)

/-! ## A data word by its fields (R25) -/

section Fields
variable {d : Word} {st lk fl pg er bl br : Bool} (h : CtlrData d st lk fl pg er bl br)
include h

theorem operationActions_eq_nil_iff : operationActions d = [] ↔ st = false ∧ bl = false ∧ br = false := by
  obtain ⟨-, hst, -, -, -, -, hbl, hbr⟩ := h
  simp only [operationActions, dStrt, dBufLoad, dBufRst, hst, hbl, hbr]
  cases st <;> cases bl <;> cases br <;> decide

theorem lockActions_eq (s : State) :
    lockActions d s = if lk && !s.lock then [.lockSet] else if fl && !s.flock then [.flockSet] else [] := by
  obtain ⟨-, -, hlk, hfl, -⟩ := h
  simp only [lockActions, dLock, dFlock, hlk, hfl]

theorem modeChanges_eq (s : State) : modeChanges d s = (pg != s.pagePg || er != s.pageEr) := by
  obtain ⟨-, -, -, -, hpg, her, -⟩ := h
  simp only [modeChanges, dPagePg, dPageEr, hpg, her]

/-- Two data words set the bits of either. -/
theorem ctlrData_or {d' : Word} {st' lk' fl' pg' er' bl' br' : Bool} (h' : CtlrData d' st' lk' fl' pg' er' bl' br') :
    CtlrData (d ||| d') (st || st') (lk || lk') (fl || fl') (pg || pg') (er || er') (bl || bl') (br || br') := by
  obtain ⟨hr, rfl, rfl, rfl, rfl, rfl, rfl, rfl⟩ := h
  obtain ⟨hr', rfl, rfl, rfl, rfl, rfl, rfl, rfl⟩ := h'
  refine ⟨?_, BitVec.getLsbD_or, BitVec.getLsbD_or, BitVec.getLsbD_or, BitVec.getLsbD_or, BitVec.getLsbD_or,
    BitVec.getLsbD_or, BitVec.getLsbD_or⟩
  calc (d ||| d') &&& ctlrReserved
    _ = (d &&& ctlrReserved) ||| (d' &&& ctlrReserved) := by
      ext i
      simp only [BitVec.getElem_and, BitVec.getElem_or, Bool.and_or_distrib_right]
    _ = 0 := by rw [hr, hr', BitVec.or_self]

end Fields

/-- R160: what a read of `CTLR` returns, written back, asks for no change. -/
theorem ctlrData_ctlrView (s : State) : CtlrData (ctlrView s) false s.lock s.flock s.pagePg s.pageEr false false := by
  unfold ctlrView
  cases s.lock <;> cases s.flock <;> cases s.pagePg <;> cases s.pageEr <;> decide

/-- R144, R145: the data words of the examples, at `Unlocked`. -/
theorem ctlrData_ctlrView_or_bitLock {s : State} (hu : s.Unlocked) :
    CtlrData (ctlrView s ||| bitLock) false true false s.pagePg s.pageEr false false := by
  have hlock : CtlrData bitLock false true false false false false false := by decide
  simpa only [hu.1, hu.2, Bool.or_false, Bool.or_true] using ctlrData_or (ctlrData_ctlrView s) hlock

theorem ctlrData_ctlrView_or_bitFlock {s : State} (hu : s.Unlocked) :
    CtlrData (ctlrView s ||| bitFlock) false false true s.pagePg s.pageEr false false := by
  have hflock : CtlrData bitFlock false false true false false false false := by decide
  simpa only [hu.1, hu.2, Bool.or_false, Bool.or_true] using ctlrData_or (ctlrData_ctlrView s) hflock

/-! ## What a write does that asks for nothing, or for a lock action -/

section Write
variable {d : Word} {s : State} {a : CtlrAction} {st lk fl pg er bl br : Bool}

theorem exec_fctlrWr (d : Word) (s : State) :
    exec (.fctlrWr d) s = finishWrite (encode s.cfg (.fctlrWr d)) s (ctlrWrite d s) := rfl

/-- R161: a write that changes no mode bit and asks for no action does nothing, busy or locked as it may be. -/
theorem exec_fctlrWr_of_no_request (h : CtlrData d false lk fl s.pagePg s.pageEr false false)
    (hl : lockActions d s = []) : exec (.fctlrWr d) s = .next (acknowledge s) := by
  have hop : operationActions d = [] := (operationActions_eq_nil_iff h).2 ⟨rfl, rfl, rfl⟩
  have hm : modeChanges d s = false := by simp [modeChanges_eq h]
  have hw : ctlrWrite d s = .ok s := by
    rw [ctlrWrite, if_neg (not_not.2 h.1), if_pos ⟨hm, by rw [ctlrActions_eq, hop, hl]; rfl⟩]
  rw [exec_fctlrWr, hw, finishWrite_ok]

/-- R144, R145: busy, a lock action is a fault and changes nothing else. -/
theorem exec_fctlrWr_lockAction_of_busy (h : CtlrData d st lk fl pg er bl br) (hl : lockActions d s = [a])
    (hb : s.bsy = true) :
    exec (.fctlrWr d) s = .next (acknowledge (raise .busy (encode s.cfg (.fctlrWr d)) none s)) := by
  have hask : ¬ (modeChanges d s = false ∧ ctlrActions d s = []) := by simp [ctlrActions_eq, hl]
  have hw : ctlrWrite d s = .error ⟨.busy, none⟩ := by
    rw [ctlrWrite, if_neg (not_not.2 h.1), if_neg hask, if_pos hb]
  rw [exec_fctlrWr, hw, finishWrite_error]

/-- R161: past the checks of the reserved bits and of `BSY`, a write with a lock action either is that action alone or
violates the one-action rule. -/
theorem ctlrWrite_lockAction (hr : d &&& ctlrReserved = 0) (hl : lockActions d s = [a]) (hb : s.bsy = false) :
    ctlrWrite d s =
      if operationActions d = [] then
        if modeChanges d s then .error ⟨.multiAction, none⟩ else .ok (performAction s a)
      else .error ⟨.multiAction, none⟩ := by
  have hask : ¬ (modeChanges d s = false ∧ ctlrActions d s = []) := by simp [ctlrActions_eq, hl]
  rw [ctlrWrite, if_neg (not_not.2 hr), if_neg hask, if_neg (by simp [hb]), ctlrActions_eq, hl]
  cases hop : operationActions d with
  | cons o os => rw [if_pos (by simp), if_neg (by simp)]
  | nil =>
    rcases mem_lockActions (hl ▸ List.mem_singleton_self a) with ⟨rfl, -⟩ | ⟨rfl, -⟩ <;> rfl

/-- R144, R145: a lock action beside another action or a mode change is a fault and changes nothing else. -/
theorem exec_fctlrWr_lockAction_beside (h : CtlrData d st lk fl pg er bl br) (hl : lockActions d s = [a])
    (hb : s.bsy = false) (hbeside : st = true ∨ bl = true ∨ br = true ∨ pg ≠ s.pagePg ∨ er ≠ s.pageEr) :
    exec (.fctlrWr d) s = .next (acknowledge (raise .multiAction (encode s.cfg (.fctlrWr d)) none s)) := by
  rw [exec_fctlrWr, ctlrWrite_lockAction h.1 hl hb]
  split
  · next hop =>
    obtain ⟨rfl, rfl, rfl⟩ := (operationActions_eq_nil_iff h).1 hop
    have hm : modeChanges d s = true := by simpa [modeChanges_eq h] using hbeside
    rw [if_pos hm, finishWrite_error]
  · rw [finishWrite_error]

/-- R144, R145: a lock action on its own, the controller idle, takes effect. -/
theorem exec_fctlrWr_lockAction_alone (h : CtlrData d false lk fl s.pagePg s.pageEr false false)
    (hl : lockActions d s = [a]) (hb : s.bsy = false) :
    exec (.fctlrWr d) s = .next (acknowledge (performAction s a)) := by
  have hop : operationActions d = [] := (operationActions_eq_nil_iff h).2 ⟨rfl, rfl, rfl⟩
  have hm : modeChanges d s = false := by simp [modeChanges_eq h]
  rw [exec_fctlrWr, ctlrWrite_lockAction h.1 hl hb, if_pos hop, if_neg (by simp [hm]), finishWrite_ok]

end Write

/-! ## Which data words ask for which lock action (R144, R145) -/

section Asked
variable {d : Word} {s : State} {st lk fl pg er bl br : Bool}

/-- R144: bit 7 while `LOCK` = 0, whatever bit 15 is. -/
theorem lockActions_of_lockSet (h : CtlrData d st true fl pg er bl br) (hl : s.lock = false) :
    lockActions d s = [.lockSet] := by
  simp [lockActions_eq h, hl]

/-- R145: bit 15 while `FLOCK` = 0, in a write that is no `LOCKSET`. -/
theorem lockActions_of_flockSet (h : CtlrData d st lk true pg er bl br) (hl : lk = false ∨ s.lock = true)
    (hf : s.flock = false) : lockActions d s = [.flockSet] := by
  rcases hl with rfl | hl <;> simp [lockActions_eq h, *]

/-- R144, R145: a bit of 0, or of 1 for a lock that is set, asks for nothing. -/
theorem lockActions_of_none (h : CtlrData d st lk fl pg er bl br) (hl : lk = false ∨ s.lock = true)
    (hf : fl = false ∨ s.flock = true) : lockActions d s = [] := by
  rcases hl with rfl | hl <;> rcases hf with rfl | hf <;> simp [lockActions_eq h, *]

end Asked

/-- Settles O23: a `LOCKSET` is the one lock action its word asks for, so what every lock action does gives its effect
and its faults. -/
theorem lockBitLocksTheController : Obligations.LockBitLocksTheController := by
  refine ⟨fun d s fl h hl hb => exec_fctlrWr_lockAction_alone h (lockActions_of_lockSet h hl) hb,
    fun d s st fl pg er bl br h hl => ⟨?_, ?_⟩,
    fun d s fl h hl hf => exec_fctlrWr_of_no_request h (lockActions_of_none h (.inr hl) hf), fun s hu hb => ?_⟩
  · exact exec_fctlrWr_lockAction_of_busy h (lockActions_of_lockSet h hl)
  · exact exec_fctlrWr_lockAction_beside h (lockActions_of_lockSet h hl)
  · have h := ctlrData_ctlrView_or_bitLock hu
    exact exec_fctlrWr_lockAction_alone h (lockActions_of_lockSet h hu.1) hb

/-- R145: with fast mode locked alone and no mode selected, `CTLR` reads as `FLOCK` alone. -/
theorem ctlrView_of_mainUnlocked {s : State} (hu : s.MainUnlocked) (hpg : s.pagePg = false) (her : s.pageEr = false) :
    ctlrView s = bitFlock := by
  simp only [ctlrView, hu.1, hu.2, hpg, her]
  decide

/-- Settles O24: a `FLOCKSET` is the one lock action its word asks for, and the mode pair is enough to take it back. -/
theorem fastLockBitLocksFastModeOnly : Obligations.FastLockBitLocksFastModeOnly := by
  refine ⟨fun d s lk h hl hf hb => exec_fctlrWr_lockAction_alone h (lockActions_of_flockSet h hl hf) hb,
    fun d s st lk pg er bl br h hl hf => ⟨?_, ?_⟩, fun s hu hb => ?_, fun s hu hpg her => ?_,
    fun s hu hb hbar hk => exec_modePair hb hbar hu.1 hk⟩
  · exact exec_fctlrWr_lockAction_of_busy h (lockActions_of_flockSet h hl hf)
  · exact exec_fctlrWr_lockAction_beside h (lockActions_of_flockSet h hl hf)
  · have h := ctlrData_ctlrView_or_bitFlock hu
    exact exec_fctlrWr_lockAction_alone h (lockActions_of_flockSet h (.inl rfl) hu.2) hb
  · show Host.Outcome.next (returnData (ctlrView s) s) = _
    rw [ctlrView_of_mainUnlocked hu hpg her]
    rfl

/-! ## What a write can do to a lock bit (R146) -/

/-- The states an accepted `CTLR` write of d can lead to: the new modes, and then an action d asks for. -/
theorem ctlrWrite_ok_requested {d : Word} {s s' : State} (h : ctlrWrite d s = .ok s') :
    s' = applyMode (dPagePg d) (dPageEr d) s ∨
    ∃ act ∈ ctlrActions d s, s' = performAction (applyMode (dPagePg d) (dPageEr d) s) act := by
  unfold ctlrWrite at h
  split_ifs at h with hr hno hb hmulti hlock hm hflock hm hu
  · cases h
    exact .inl (applyMode_same hno.1).symm
  · cases h
    refine .inr ⟨.lockSet, by simp [hlock], ?_⟩
    rw [applyMode_same (Bool.eq_false_of_not_eq_true hm)]
    rfl
  · cases h
    refine .inr ⟨.flockSet, by simp [hflock], ?_⟩
    rw [applyMode_same (Bool.eq_false_of_not_eq_true hm)]
    rfl
  · rw [modesThenAction_eq] at h
    cases hact : (ctlrActions d s).head? with
    | none =>
      rw [hact] at h
      exact .inl (Except.ok.inj h).symm
    | some act =>
      rw [hact] at h
      split at h <;> cases h
      exact .inr ⟨act, List.mem_of_head? hact, rfl⟩

@[simp] theorem start_lock (s : State) : (start s).lock = s.lock := by
  unfold start
  split <;> simp

@[simp] theorem start_flock (s : State) : (start s).flock = s.flock := by
  unfold start
  split <;> simp

theorem performAction_lock {act : CtlrAction} (hl : act ≠ .lockSet) (s : State) :
    (performAction s act).lock = s.lock := by
  cases act with
  | strt => exact start_lock s
  | bufLoad => exact bufLoad_lock s
  | bufRst => exact bufReset_lock s
  | lockSet => exact absurd rfl hl
  | flockSet => exact flockSet_lock s

theorem performAction_flock {act : CtlrAction} (hl : act ≠ .lockSet) (hf : act ≠ .flockSet) (s : State) :
    (performAction s act).flock = s.flock := by
  cases act with
  | strt => exact start_flock s
  | bufLoad => exact bufLoad_flock s
  | bufRst => exact bufReset_flock s
  | lockSet => exact absurd rfl hl
  | flockSet => exact absurd rfl hf

/-- Without bit 7 an accepted write asks for no `LOCKSET`, so it leaves `LOCK`. -/
theorem ctlrWrite_ok_lock {d : Word} {s s' : State} (h : ctlrWrite d s = .ok s') (hd : dLock d = false) :
    s'.lock = s.lock := by
  rcases ctlrWrite_ok_requested h with rfl | ⟨act, hact, rfl⟩
  · exact applyMode_lock ..
  · rw [performAction_lock (ne_lockSet_of_mem_ctlrActions hact hd), applyMode_lock]

/-- Without bits 7 and 15 an accepted write asks for no lock action, so it leaves `FLOCK`. -/
theorem ctlrWrite_ok_flock {d : Word} {s s' : State} (h : ctlrWrite d s = .ok s') (hd : dLock d = false)
    (hdf : dFlock d = false) : s'.flock = s.flock := by
  rcases ctlrWrite_ok_requested h with rfl | ⟨act, hact, rfl⟩
  · exact applyMode_flock ..
  · have hl := ne_lockSet_of_mem_ctlrActions hact hd
    have hf := ne_flockSet_of_mem_ctlrActions hact hdf
    rw [performAction_flock hl hf, applyMode_flock]

/-- No lock bit is cleared from s to t. -/
def KeepsLocks (s t : State) : Prop := (s.lock = true → t.lock = true) ∧ (s.flock = true → t.flock = true)

/-- No `CTLR` write clears a lock bit: the lock actions set them, and the others are refused while one is set. -/
theorem ctlrWrite_ok_keepsLocks {d : Word} {s s' : State} (h : ctlrWrite d s = .ok s') : KeepsLocks s s' := by
  rcases ctlrWrite_ok h with rfl | ⟨-, -, rfl⟩ | ⟨-, -, rfl⟩ | ⟨-, hl, hf, -⟩
  · exact ⟨id, id⟩
  · exact ⟨fun _ => rfl, fun _ => rfl⟩
  · exact ⟨id, fun _ => rfl⟩
  · exact ⟨fun hl' => absurd (hl'.symm.trans hl) (by decide), fun hf' => absurd (hf'.symm.trans hf) (by decide)⟩

/-- R146: a transaction keeps the lock bits, or it is the second key of a pair, which clears its own pair's alone. -/
theorem exec_keepsLocks_or_second_key {i : Instr} {s t : State} (h : exec i s = .next t) :
    KeepsLocks s t ∨
    (i = .fkeyrWr s.cfg.key2 ∧ s.keySeq = .key1Seen ∧ t.flock = s.flock) ∨
    (i = .fmodekeyrWr s.cfg.mkey2 ∧ s.modeKeySeq = .key1Seen ∧ t.lock = s.lock) := by
  rcases exec_cases h with ⟨v, d, -, -, rfl⟩ | ⟨c, -, rfl⟩ | ⟨v, -, rfl⟩ | ⟨-, accepted⟩
  · exact .inl ⟨id, id⟩
  · exact .inl ⟨id, id⟩
  · exact .inl ⟨id, id⟩
  rcases accepted with ⟨d, rfl, -, rfl⟩ | ⟨d, rfl, -, -, rfl⟩ | ⟨d, -, rfl⟩ | ⟨d, -, s', hs', rfl⟩ |
    ⟨a, d, -, -, -, -, -, -, rfl⟩
  · rcases mainKey_cases (encode s.cfg (.fkeyrWr d)) d s with ⟨-, -, hm⟩ | ⟨hk, rfl, hm⟩ | hm <;> rw [hm]
    · exact .inl ⟨id, id⟩
    · exact .inr (.inl ⟨rfl, hk, rfl⟩)
    · exact .inl ⟨fun _ => rfl, fun _ => rfl⟩
  · rcases modeKey_cases (encode s.cfg (.fmodekeyrWr d)) d s with ⟨-, -, hm⟩ | ⟨hk, rfl, hm⟩ | hm <;> rw [hm]
    · exact .inl ⟨id, id⟩
    · exact .inr (.inr ⟨rfl, hk, rfl⟩)
    · exact .inl ⟨fun _ => rfl, fun _ => rfl⟩
  · exact .inl ⟨id, id⟩
  · exact .inl (ctlrWrite_ok_keepsLocks hs' :)
  · exact .inl ⟨id, id⟩

/-- Settles O25: a 0 asks for no lock action, a write that asks for nothing does nothing, and of all transactions only a
second key clears a lock bit. -/
theorem writingZeroNeverUnlocks : Obligations.WritingZeroNeverUnlocks := by
  refine ⟨fun d s t h hd => ?_, fun d s h => ?_, fun i s t h => ?_⟩
  · rcases finishWrite_cases h with ⟨s', hs', rfl⟩ | ⟨v, -, rfl⟩
    · exact ⟨(ctlrWrite_ok_lock hs' hd :), fun hdf => (ctlrWrite_ok_flock hs' hd hdf :)⟩
    · exact ⟨rfl, fun _ => rfl⟩
  · exact exec_fctlrWr_of_no_request h (lockActions_of_none h (.inl rfl) (.inl rfl))
  · rcases exec_keepsLocks_or_second_key h with ⟨hl, hf⟩ | ⟨hi, hk, hf⟩ | ⟨hi, hk, hl⟩
    · exact ⟨fun h₁ h₀ => absurd ((hl h₁).symm.trans h₀) (by decide),
        fun h₁ h₀ => absurd ((hf h₁).symm.trans h₀) (by decide)⟩
    · exact ⟨fun _ _ => ⟨hi, hk⟩, fun h₁ h₀ => absurd (h₁.symm.trans (hf.symm.trans h₀)) (by decide)⟩
    · exact ⟨fun h₁ h₀ => absurd (h₁.symm.trans (hl.symm.trans h₀)) (by decide), fun _ _ => ⟨hi, hk⟩⟩

end Sys2Proof.Machine
end

section
/-! PROOFS. The reads of the controller's registers and the writes of `ADDR` (42_flash_erase_program.md R160,
R170-R172): their words and the equation of each. -/

namespace Sys2Proof

/-! ## The words of `STATR`, `CTLR` and `ADDR` (30_encoding.md R94) -/

section Words
variable {c : Config} {a : Word}

/-- R60: the windows are disjoint, so no address of the controller's window is `CRC_VALUE`'s. -/
theorem ne_regCrcValue_of_eq_fctlBase_add (hc : c.Wf) {k : Nat} (ha : a.toNat = c.fctlBase + k)
    (hk : k < Config.windowSize) : a.toNat ≠ c.regCrcValue := by
  obtain ⟨-, -, hfctl⟩ := hc.windows
  simp only [Config.regCrcValue, Config.windowSize] at hk ⊢
  omega

theorem decode_fstatrRd (hc : c.Wf) (ha : a.toNat = c.regStatr) (h4 : c.regStatr % 4 = 0) (d : Word) :
    decode c (Txn.make false size32 a d) = .op .fstatrRd := by
  have hcrc : c.regStatr ≠ c.regCrcValue := ha ▸ ne_regCrcValue_of_eq_fctlBase_add hc ha (by decide)
  rw [decode_make, if_pos (inWindow_of_eq_fctlBase_add ha (by decide))]
  simp [decodeRows, firstRow_cons, ha, h4, hcrc]

theorem decode_fctlrRd (hc : c.Wf) (ha : a.toNat = c.regCtlr) (h4 : c.regCtlr % 4 = 0) (d : Word) :
    decode c (Txn.make false size32 a d) = .op .fctlrRd := by
  have hcrc : c.regCtlr ≠ c.regCrcValue := ha ▸ ne_regCrcValue_of_eq_fctlBase_add hc ha (by decide)
  have hother : c.regCtlr ≠ c.regStatr := by simp [Config.regCtlr, Config.regStatr]
  rw [decode_make, if_pos (inWindow_of_eq_fctlBase_add ha (by decide))]
  simp [decodeRows, firstRow_cons, ha, h4, hcrc, hother]

theorem decode_faddrRd (hc : c.Wf) (ha : a.toNat = c.regAddr) (h4 : c.regAddr % 4 = 0) (d : Word) :
    decode c (Txn.make false size32 a d) = .op .faddrRd := by
  have hcrc : c.regAddr ≠ c.regCrcValue := ha ▸ ne_regCrcValue_of_eq_fctlBase_add hc ha (by decide)
  have hother : c.regAddr ≠ c.regStatr ∧ c.regAddr ≠ c.regCtlr := by
    simp [Config.regAddr, Config.regStatr, Config.regCtlr]
  rw [decode_make, if_pos (inWindow_of_eq_fctlBase_add ha (by decide))]
  simp [decodeRows, firstRow_cons, ha, h4, hcrc, hother]

theorem decode_faddrWr (hc : c.Wf) (ha : a.toNat = c.regAddr) (h4 : c.regAddr % 4 = 0) (d : Word) :
    decode c (Txn.make true size32 a d) = .op (.faddrWr d) := by
  have hcrc : c.regAddr ≠ c.regCrcCtrl := ha ▸ ne_regCrcCtrl_of_eq_fctlBase_add hc ha (by decide)
  have hother : c.regAddr ≠ c.regKeyr ∧ c.regAddr ≠ c.regCtlr := by
    simp [Config.regAddr, Config.regKeyr, Config.regCtlr]
  rw [decode_make, if_pos (inWindow_of_eq_fctlBase_add ha (by decide))]
  simp [decodeRows, firstRow_cons, ha, h4, hcrc, hother, size8, size32]

end Words

namespace Machine

/-! ## What each transaction does -/

theorem exec_fctlrRd (s : State) : exec .fctlrRd s = .next { s with rdata := some (ctlrView s) } := rfl

theorem exec_fstatrRd (s : State) : exec .fstatrRd s = .next { s with rdata := some (statrView s) } := rfl

theorem exec_faddrRd (s : State) : exec .faddrRd s = .next { s with rdata := some s.addr } := rfl

theorem exec_faddrWr (d : Word) (s : State) :
    exec (.faddrWr d) s = finishWrite (encode s.cfg (.faddrWr d)) s (addrWrite d s) := rfl

theorem exec_faddrWr_of_busy {s : State} (d : Word) (hb : s.bsy = true) :
    exec (.faddrWr d) s = .next (acknowledge (raise .busy (encode s.cfg (.faddrWr d)) none s)) := by
  rw [exec_faddrWr, addrWrite, if_pos hb, finishWrite_error]

theorem exec_faddrWr_of_idle {s : State} (d : Word) (hb : s.bsy = false) :
    exec (.faddrWr d) s = .next { s with addr := d, rdata := none } := by
  rw [exec_faddrWr, addrWrite, if_neg (by simp [hb]), finishWrite_ok]
  rfl

theorem ctlrView_reset : ctlrView State.reset = 0x00008080 := by decide

/-- R160: unlocked and in page-erase mode, `CTLR` reads as `PAGE_ER` alone. -/
theorem ctlrView_of_erasing {s : State} (hu : s.Unlocked) (her : s.pageEr = true) (hpg : s.pagePg = false) :
    ctlrView s = 0x00020000 := by
  simp only [ctlrView, hu.1, hu.2, her, hpg]
  decide

theorem statrView_of_busy {s : State} (hb : s.bsy = true) : statrView s = 1 := by
  simp only [statrView, hb]
  decide

theorem statrView_of_idle {s : State} (hb : s.bsy = false) : statrView s = 0 := by
  simp only [statrView, hb]
  decide

theorem statrView_eq (s : State) : statrView s = if s.bsy then 1 else 0 := by
  cases hb : s.bsy with
  | true => exact statrView_of_busy hb
  | false => exact statrView_of_idle hb

/-- Settles O27: the word's row, the read's equation, and `CTLR`'s value in the two examples. -/
theorem controlReadShowsModesAndLocks : Obligations.ControlReadShowsModesAndLocks := by
  refine ⟨fun c hc h d => decode_fctlrRd hc (toNat_busAddr h.1) h.2 d, exec_fctlrRd, ?_, fun s hu her hpg => ?_⟩
  · rw [exec_fctlrRd, ctlrView_reset]
  · rw [exec_fctlrRd, ctlrView_of_erasing hu her hpg]

/-- Settles O35: the two words' rows, the write's one check, and the read's equation. -/
theorem addressRegisterHoldsWhatIsWritten : Obligations.AddressRegisterHoldsWhatIsWritten := by
  refine ⟨fun c hc h d => ?_, fun d s => ⟨exec_faddrWr_of_busy d, fun hb => ?_⟩, exec_faddrRd, exec_faddrRd _⟩
  · exact ⟨decode_faddrWr hc (toNat_busAddr h.1) h.2 d, decode_faddrRd hc (toNat_busAddr h.1) h.2 d⟩
  · exact ⟨exec_faddrWr_of_idle d hb, exec_faddrRd _⟩

/-- Settles O36: the word's row and the read's equation; a completed operation leaves `BSY` at 0. -/
theorem statusReadShowsBusy : Obligations.StatusReadShowsBusy := by
  refine ⟨fun c hc h d => decode_fstatrRd hc (toNat_busAddr h.1) h.2 d, fun s => ?_, fun s t h hr => ?_, fun s => ?_⟩
  · rw [exec_fstatrRd, statrView_eq]
  · cases hb : s.bsy with
    | false => rfl
    | true =>
      rw [exec_fstatrRd, statrView_of_busy hb] at h
      cases h
      cases hr
  · rw [exec_fstatrRd, statrView_of_idle (complete_bsy s)]

end Machine
end Sys2Proof
end

section
/-! PROOFS. The mode bits and the actions of a `CTLR` write, unlocked and idle (42_flash_erase_program.md R161-R163,
R166). -/

namespace Sys2Proof.Machine
open Sys2Proof.Spec

/-! ## A write that asks for no lock action, by its fields -/

section Write
variable {d : Word} {s : State} {a : CtlrAction} {st pg er bl br : Bool}

theorem operationActions_eq {lk fl : Bool} (h : CtlrData d st lk fl pg er bl br) :
    operationActions d =
      (if st then [.strt] else []) ++ (if bl then [.bufLoad] else []) ++ (if br then [.bufRst] else []) := by
  obtain ⟨-, hst, -, -, -, -, hbl, hbr⟩ := h
  simp only [operationActions, dStrt, dBufLoad, dBufRst, hst, hbl, hbr]

/-- R161: without its lock bits, a data word asks for its operation actions alone. -/
theorem ctlrActions_of_no_lockAction (h : CtlrData d st false false pg er bl br) :
    ctlrActions d s = operationActions d := by
  rw [ctlrActions_eq, lockActions_of_none h (.inl rfl) (.inl rfl), List.append_nil]

end Write

/-! ## A write of one operation action (R161) -/

section Operation
variable {d : Word} {s : State} {a : CtlrAction} {st pg er bl br : Bool} (h : CtlrData d st false false pg er bl br)
  (ha : operationActions d = [a]) (hu : s.Unlocked) (hb : s.bsy = false)
include h ha hu hb

/-- The modes an action is checked against are those of the same write. -/
theorem ctlrWrite_operation :
    ctlrWrite d s =
      match actionCheck pg er s a with
      | some v => .error v
      | none => .ok (performAction (applyMode pg er s) a) := by
  obtain ⟨hl, hf⟩ := not_lock_of_mem_operationActions (ha ▸ List.mem_singleton_self a)
  have hw := ctlrWrite_one_action h.1 hu hb ((ctlrActions_of_no_lockAction h).trans ha) hl hf
  obtain ⟨-, -, -, -, rfl, rfl, -⟩ := h
  exact hw

/-- A failed check of the action is the write's one fault. -/
theorem exec_fctlrWr_operation_fails {v : Violation} (hc : actionCheck pg er s a = some v) :
    exec (.fctlrWr d) s = .next (acknowledge (raise v.code (encode s.cfg (.fctlrWr d)) v.info s)) := by
  rw [exec_fctlrWr, ctlrWrite_operation h ha hu hb, hc]
  rfl

/-- Past its check the action runs under the new modes. -/
theorem exec_fctlrWr_operation_runs (hc : actionCheck pg er s a = none) :
    exec (.fctlrWr d) s = .next (acknowledge (performAction (applyMode pg er s) a)) := by
  rw [exec_fctlrWr, ctlrWrite_operation h ha hu hb, hc]
  rfl

end Operation

/-! ## The mode bits (R162) -/

/-- R162: a write of the modes alone applies them. -/
theorem exec_fctlrWr_modes {d : Word} {s : State} {pg er : Bool} (h : CtlrData d false false false pg er false false)
    (hu : s.Unlocked) (hb : s.bsy = false) : exec (.fctlrWr d) s = .next (acknowledge (applyMode pg er s)) := by
  have hop : operationActions d = [] := (operationActions_eq_nil_iff h).2 ⟨rfl, rfl, rfl⟩
  rw [exec_fctlrWr, ctlrWrite_no_action h.1 hu hb ((ctlrActions_of_no_lockAction h).trans hop)]
  obtain ⟨-, -, -, -, rfl, rfl, -⟩ := h
  rfl

/-- R162: an accepted write leaves the modes, as each lock action does, or is one at `Unlocked` and idle that leaves the
locks. -/
theorem ctlrWrite_ok_modes_or_locks {d : Word} {s s' : State} (h : ctlrWrite d s = .ok s') :
    (s'.pagePg = s.pagePg ∧ s'.pageEr = s.pageEr) ∨
    (s.bsy = false ∧ s.Unlocked ∧ s'.lock = s.lock ∧ s'.flock = s.flock) := by
  rcases ctlrWrite_ok h with rfl | ⟨-, -, rfl⟩ | ⟨-, -, rfl⟩ | ⟨hb, hl, hf, rfl | ⟨act, hnl, hnf, -, rfl⟩⟩
  · exact .inl ⟨rfl, rfl⟩
  · exact .inl ⟨rfl, rfl⟩
  · exact .inl ⟨rfl, rfl⟩
  · exact .inr ⟨hb, ⟨hl, hf⟩, applyMode_lock .., applyMode_flock ..⟩
  · exact .inr ⟨hb, ⟨hl, hf⟩, (performAction_lock hnl _).trans (applyMode_lock ..),
      (performAction_flock hnl hnf _).trans (applyMode_flock ..)⟩

/-- Settles O29: the modes' update written as one record, and what an accepted write leaves. -/
theorem controlWriteSetsModes : Obligations.ControlWriteSetsModes := by
  refine ⟨fun d s pg er h hu hb => ?_, fun d s t h hwhen => ?_⟩
  · rw [exec_fctlrWr_modes h hu hb, applyMode_eq]
    rfl
  · rcases finishWrite_cases h with ⟨s', hs', rfl⟩ | ⟨v, -, rfl⟩
    · rcases ctlrWrite_ok_modes_or_locks hs' with hmodes | ⟨hb, hu, hl, hf⟩
      · exact hmodes
      · rcases hwhen with (hb' | hu') | hl' | hf'
        · exact absurd hb (by simp [hb'])
        · exact absurd hu hu'
        · exact absurd hl hl'
        · exact absurd hf hf'
    · exact ⟨rfl, rfl⟩

/-! ## `STRT` (R163) -/

/-- R163: neither mode bit set, or both set, selects no operation. -/
theorem strtCheck_same (m : Bool) (s : State) : strtCheck m m s = some ⟨.modeError, none⟩ := by
  cases m <;> rfl

theorem start_of_pageEr {s : State} (h : s.pageEr = true) : start s = startErase s := if_pos h

theorem start_of_not_pageEr {s : State} (h : s.pageEr = false) : start s = startProgram s := if_neg (by simp [h])

@[simp] theorem start_bsy (s : State) : (start s).bsy = true := by
  unfold start
  split <;> rfl

/-- Settles O30: `STRT` is checked and started under the modes of its own write; a failed check is a fault more. -/
theorem startFollowsTheModesOfTheWrite : Obligations.StartFollowsTheModesOfTheWrite := by
  intro d s pg er h hu hb
  have ha : operationActions d = [.strt] := operationActions_eq h
  refine ⟨?_, fun t ht hfaults => ?_⟩
  · rintro rfl
    exact exec_fctlrWr_operation_fails h ha hu hb (strtCheck_same pg s)
  · cases hc : actionCheck pg er s .strt with
    | some v =>
      cases (exec_fctlrWr_operation_fails h ha hu hb hc).symm.trans ht
      simp at hfaults
    | none =>
      cases (exec_fctlrWr_operation_runs h ha hu hb hc).symm.trans ht
      refine ⟨start_bsy _, fun her _ => ?_, fun her _ => ?_⟩
      · simp [performAction, start_of_pageEr, her]
      · simp [performAction, start_of_not_pageEr, her]

/-! ## `BUFRST` (R166) -/

theorem bufRstCheck_programMode : bufRstCheck true false = none := rfl

theorem bufRstCheck_otherMode {pg er : Bool} (h : ¬ (pg = true ∧ er = false)) :
    bufRstCheck pg er = some ⟨.modeError, none⟩ := if_pos h

/-- Settles O33: `BUFRST` is checked under the modes of its own write, and what it resets hides what the modes' update
does to the buffer. -/
theorem bufferResetReadiesTheBuffer : Obligations.BufferResetReadiesTheBuffer := by
  intro d s pg er h hu hb
  have ha : operationActions d = [.bufRst] := operationActions_eq h
  refine ⟨?_, fun hm => exec_fctlrWr_operation_fails h ha hu hb (bufRstCheck_otherMode hm)⟩
  rintro rfl rfl
  rw [exec_fctlrWr_operation_runs h ha hu hb bufRstCheck_programMode, applyMode_eq]
  rfl

end Sys2Proof.Machine
end

section
/-! PROOFS. A commit onto an erased page (42_flash_erase_program.md R180, R183): the array the completion step leaves,
and the word each slot then reads as. -/

namespace Sys2Proof.Machine

/-! ## Words in the array -/

@[simp] theorem Memory.getElem_readBytes (m : Memory) (a n : Nat) {i : Nat} (hi : i < (m.readBytes a n).length) :
    (m.readBytes a n)[i] = m.read (a + i) := by
  simp [Memory.readBytes]

/-- The four bytes at word k of a written run of words are that word's. -/
theorem Memory.readBytes_writeBytes_word {m : Memory} (hm : m.Wf) (a : Nat) (ws : List Word) {k : Nat}
    (hk : k < ws.length) :
    (m.writeBytes a (wordsBytes ws)).readBytes (a + 4 * k) 4 = wordBytes (ws.getD k 0) := by
  refine List.ext_getElem (by simp) fun i hi _ => ?_
  have hi4 : i < 4 := by simpa using hi
  have hoffset : a + 4 * k + i - a = 4 * k + i := by omega
  rw [Memory.getElem_readBytes, Memory.read_writeBytes hm, if_pos (by omega), hoffset, wordsBytes_getD ws k i hi4 _ hk,
    List.getD_eq_getElem]

theorem exec_flashRd32 (a : Word) (s : State) : exec (.flashRd32 a) s = flashRead 4 a s := rfl

/-- Away from an operation, a flash read returns what its addresses hold and changes nothing else (R200-R202). -/
theorem flashRead_of_idle {s : State} (n : Nat) (a : Word) (hb : s.bsy = false) :
    flashRead n a s = .next { s with rdata := some (memRead s.flash a.toNat n) } := by
  have hidle : ∀ i, i < n → underOperation s (a.toNat + i) = false := fun i _ => by simp [underOperation, hb]
  simp only [flashRead, readFlashBytes_idle hidle]
  rfl

/-! ## The completion step -/

theorem complete_flash_of_busy {s : State} (hb : s.bsy = true) : (complete s).flash = (finishedFlash s).1 := by
  rw [complete, if_pos hb]

theorem pageErased_iff (s : State) (p : Word) :
    pageErased s p = true ↔ ∀ j, j < s.cfg.pageSize → s.flash.read (p.toNat + j) = 0xFF := by
  simp [pageErased, Memory.readBytes]

/-- R180: the commit of w to an erased page stores w's bytes there. -/
theorem complete_flash_of_commit {s : State} {p : Word} {w : List Word} (hb : s.bsy = true)
    (hp : s.pending = .program p w) (he : pageErased s p = true) :
    (complete s).flash = s.flash.writeBytes p.toNat (wordsBytes w) := by
  simp [complete_flash_of_busy hb, finishedFlash, hp, he]

/-- Settles O43: the completed commit stores the buffer's bytes, four of which are each slot's word. -/
theorem committedPageHoldsTheBuffer : Obligations.CommittedPageHoldsTheBuffer := by
  intro s p w _ hwf hb hp hlen herased k hk
  have hslot : memRead (complete s).flash (p.toNat + 4 * k) 4 = w.getD k 0 := by
    rw [complete_flash_of_commit hb hp ((pageErased_iff s p).2 herased), memRead,
      Memory.readBytes_writeBytes_word hwf _ w (hlen ▸ hk), leWord_wordBytes]
  refine ⟨hslot, fun a ha => ?_⟩
  rw [exec_flashRd32, flashRead_of_idle 4 a (complete_bsy s), ha, hslot]

end Sys2Proof.Machine
end

section
/-! PROOFS. What changes the flash array (43_flash_array.md R211): the completion step and reset, and each only where an
erase or a commit is pending. -/

namespace Sys2Proof.Machine

/-! ## Operations that leave the array -/

/-- R34: the pending operations that change the array are the erases and the commits. -/
theorem Pending.changesFlash_iff (op : Pending) :
    op.changesFlash = true ↔ ∃ p, op = .erase p ∨ ∃ w, op = .program p w := by
  cases op <;> simp [Pending.changesFlash]

section Kept
variable {s : State} (h : s.pending.changesFlash = false)
include h

theorem finishedFlash_keeps : (finishedFlash s).1 = s.flash := by
  unfold finishedFlash
  cases hp : s.pending with
  | none => rfl
  | load => rfl
  | erase p => rw [hp] at h; cases h
  | program p w => rw [hp] at h; cases h

theorem interruptedFlash_keeps : (interruptedFlash s).1 = s.flash := by
  unfold interruptedFlash
  cases hp : s.pending with
  | none => rfl
  | load => rfl
  | erase p => rw [hp] at h; cases h
  | program p w => rw [hp] at h; cases h

/-- R180: the completion of a buffer load, or of nothing, leaves the array. -/
theorem complete_keeps_flash : (complete s).flash = s.flash := by
  unfold complete
  split
  · exact finishedFlash_keeps h
  · rfl

/-- R290: a reset that interrupts no operation on the array leaves it. -/
theorem resetBlock_keeps_flash : (resetBlock s).flash = s.flash :=
  (resetBlock_flash s).trans (interruptedFlash_keeps h)

end Kept

/-! ## Events that leave the array -/

/-- The host changes the array by none of its statements: it only issues transactions (R100, R101). -/
theorem hostTurn_keeps_flash {s t : State} (h : hostTurn s = .next t) : t.flash = s.flash := by
  rcases hostTurn_cases h with ⟨d, hc, -, s', rfl | ⟨w, hw⟩, hc', rfl, -⟩ | rfl
  · rfl
  · exact ((transact_frame hw).1 :)
  · exact hostHalt_flash s

/-- R211: a step leaves the array, or it is the completion or the reset of a pending erase or commit. -/
theorem step_keeps_flash_or_finishes {s t : State} (h : step s = .next t) :
    t.flash = s.flash ∨
    ((∃ rest, s.bus = .complete :: rest ∨ s.bus = .reset :: rest) ∧ s.pending.changesFlash = true) := by
  rcases (step_cases h).2 with ⟨-, rfl⟩ | ⟨rest, ⟨w, -, hw⟩ | ⟨hb, rfl⟩ | ⟨hb, rfl⟩ | ⟨-, ht⟩⟩
  · exact .inl rfl
  · exact .inl ((transact_frame hw).1 :)
  · cases hp : s.pending.changesFlash with
    | true => exact .inr ⟨⟨rest, .inl hb⟩, rfl⟩
    | false => exact .inl (complete_keeps_flash (s := { s with bus := rest }) hp)
  · cases hp : s.pending.changesFlash with
    | true => exact .inr ⟨⟨rest, .inr hb⟩, rfl⟩
    | false => exact .inl (resetBlock_keeps_flash (s := { s with bus := rest }) hp)
  · exact .inl (hostTurn_keeps_flash ht :)

/-- Settles O44: a transaction's frame holds the array, and a step that changes it finishes or interrupts an erase or a
commit. -/
theorem flashChangesOnlyAtCompletionOrReset : Obligations.FlashChangesOnlyAtCompletionOrReset := by
  refine ⟨fun _ _ _ h => (exec_frame h).1, fun s t h hne => ?_⟩
  obtain ⟨hevent, hop⟩ := (step_keeps_flash_or_finishes h).resolve_left hne
  exact ⟨hevent, (Pending.changesFlash_iff s.pending).1 hop⟩

end Sys2Proof.Machine
end

section
/-! PROOFS. A page whose erase has completed (42_flash_erase_program.md R180, 43_flash_array.md R210): the array the
completion step leaves, and what every aligned access to the page reads. -/

namespace Sys2Proof.Machine

/-! ## The erased array -/

/-- R180: the erase of page p stores 0xFF in each of its bytes. -/
theorem complete_flash_of_erase {s : State} {p : Word} (hb : s.bsy = true) (hp : s.pending = .erase p) :
    (complete s).flash = s.flash.writeBytes p.toNat (List.replicate s.cfg.pageSize 0xFF) := by
  simp [complete_flash_of_busy hb, finishedFlash, hp]

/-- A run of bytes inside a run written with one value reads as that value. -/
theorem Memory.readBytes_writeBytes_replicate {m : Memory} (hm : m.Wf) (v : Byte) {a size b n : Nat} (hab : a ≤ b)
    (hbn : b + n ≤ a + size) :
    (m.writeBytes a (List.replicate size v)).readBytes b n = List.replicate n v := by
  refine List.ext_getElem (by simp) fun i hi _ => ?_
  have hin : i < n := by simpa using hi
  have hi' : b + i - a < (List.replicate size v).length := by simp; omega
  rw [Memory.getElem_readBytes, Memory.read_writeBytes hm, if_pos (by omega), List.getD_eq_getElem _ _ hi']
  simp

/-! ## Aligned accesses -/

theorem exec_flashRd8 (a : Word) (s : State) : exec (.flashRd8 a) s = flashRead 1 a s := rfl

theorem exec_flashRd16 (a : Word) (s : State) : exec (.flashRd16 a) s = flashRead 2 a s := rfl

/-- R210: a read of n bytes aligned to n, for an n that divides the page size, ends inside the erased page, so each byte
it returns is 0xFF. -/
theorem flashRead_of_erased {s : State} {p a : Word} {n : Nat} (hwf : s.flash.Wf) (hb : s.bsy = true)
    (hp : s.pending = .erase p) (hsize : n ∣ s.cfg.pageSize) (hpage : s.cfg.pageSize ∣ p.toNat)
    (hlo : p.toNat ≤ a.toNat) (hhi : a.toNat < p.toNat + s.cfg.pageSize) (ha : n ∣ a.toNat) :
    flashRead n a (complete s) = .next { complete s with rdata := some (leWord (List.replicate n 0xFF)) } := by
  have hend : a.toNat + n ≤ p.toNat + s.cfg.pageSize :=
    Nat.le_of_lt_add_of_dvd (Nat.add_lt_add_right hhi n) (dvd_add ha dvd_rfl) (dvd_add (hsize.trans hpage) hsize)
  have hbytes : (complete s).flash.readBytes a.toNat n = List.replicate n 0xFF := by
    rw [complete_flash_of_erase hb hp, Memory.readBytes_writeBytes_replicate hwf _ hlo hend]
  rw [flashRead_of_idle n a (complete_bsy s), memRead, hbytes]

/-- Settles O42: each of the three widths divides the page size, and so many bytes 0xFF assemble to the value
stated. -/
theorem erasedPageReadsAllOnes : Obligations.ErasedPageReadsAllOnes := by
  intro s p hc hwf hb hp hpage a hlo hhi
  have hread : ∀ n, n ∣ 4 → n ∣ a.toNat →
      flashRead n a (complete s) = .next { complete s with rdata := some (leWord (List.replicate n 0xFF)) } :=
    fun n h4 => flashRead_of_erased hwf hb hp (h4.trans hc.four_dvd_pageSize) (Nat.dvd_of_mod_eq_zero hpage) hlo hhi
  refine ⟨?_, fun h2 => ?_, fun h4 => ?_⟩
  · exact hread 1 (by decide) (Nat.one_dvd _)
  · exact hread 2 (by decide) (Nat.dvd_of_mod_eq_zero h2)
  · exact hread 4 (by decide) (Nat.dvd_of_mod_eq_zero h4)

end Sys2Proof.Machine
end

section
/-! PROOFS. The data-word write (43_flash_array.md R205): its word, its four checks in order, and the latch. -/

namespace Sys2Proof

/-! ## The words of a write to the flash window (30_encoding.md R94, R95) -/

/-- R60: no register a write can reach has the address of a flash byte. -/
theorem ne_writable_register_of_inFlash {c : Config} (hc : c.Wf) {n : Nat} (hn : c.InFlash n) :
    n ≠ c.regCrcData ∧ n ≠ c.regCrcCtrl ∧ n ≠ c.regKeyr ∧ n ≠ c.regCtlr ∧ n ≠ c.regAddr ∧ n ≠ c.regModeKeyr := by
  obtain ⟨hfctl, hcrc, -⟩ := hc.windows
  simp only [Config.regCrcData, Config.regCrcCtrl, Config.regKeyr, Config.regCtlr, Config.regAddr,
    Config.regModeKeyr]
  omega

/-- R205: of the writes to the flash window, the aligned 32-bit one alone is a transaction of the SSB. -/
theorem decode_flashWrite {c : Config} (hc : c.Wf) {a : Word} (ha : c.InFlash a.toNat) (sz : BitVec 2) (d : Word) :
    decode c (Txn.make true sz a d) =
      if sz = size32 ∧ a.toNat % 4 = 0 then .op (.flashWr32 a d) else .accessViolation := by
  obtain ⟨hdata, hctrl, hkeyr, hctlr, haddr, hmode⟩ := ne_writable_register_of_inFlash hc ha
  rw [decode_make, if_pos (.inl ha)]
  simp [decodeRows, firstRow_cons, firstRow_nil, ha.1, ha.2, hdata, hctrl, hkeyr, hctlr, haddr, hmode]

namespace Machine

/-! ## What the write does -/

section Write
variable {s : State} (a d : Word)

theorem exec_flashWr32 (s : State) :
    exec (.flashWr32 a d) s = finishWrite (encode s.cfg (.flashWr32 a d)) s (flashDataWrite a d s) := rfl

theorem flashDataWrite_of_busy (hb : s.bsy = true) : flashDataWrite a d s = .error ⟨.busy, none⟩ := if_pos hb

/-- R205: past the check of `BSY`, the three checks left, the locks' as one test of `Unlocked` (R147). -/
theorem flashDataWrite_of_idle (hb : s.bsy = false) :
    flashDataWrite a d s =
      if ¬ s.Unlocked then .error ⟨.locked, none⟩
      else if ¬ (s.pagePg = true ∧ s.pageEr = false) then .error ⟨.modeError, none⟩
      else if s.bufState ≠ .ready ∨ s.latch ≠ none then .error ⟨.bufferState, none⟩
      else .ok { s with latch := some (a, d) } := by
  have hlock : (s.lock || s.flock) = true ↔ ¬ s.Unlocked := by
    rw [State.Unlocked]
    cases s.lock <;> cases s.flock <;> decide
  rw [flashDataWrite, if_neg (by simp [hb])]
  simp only [hlock]

end Write

/-- Settles O40: the write's word, then its checks in order, each met where the ones before it pass. -/
theorem flashDataWritesAreLatched : Obligations.FlashDataWritesAreLatched := by
  refine ⟨fun c hc a d ha => ?_, fun a d s => ⟨fun hb => ?_, fun hb hu => ?_, fun hb hu hm => ?_,
    fun hb hu hpg her hbuf => ?_, fun hb hu hpg her hready hlatch => ?_⟩⟩
  · refine ⟨?_, ?_, ?_⟩
    · simpa [size32] using decode_flashWrite hc ha 0b10 d
    · simpa [size32] using decode_flashWrite hc ha 0b00 d
    · simpa [size32] using decode_flashWrite hc ha 0b01 d
  · rw [exec_flashWr32, flashDataWrite_of_busy a d hb]
    rfl
  · rw [exec_flashWr32, flashDataWrite_of_idle a d hb, if_pos hu]
    rfl
  · rw [exec_flashWr32, flashDataWrite_of_idle a d hb, if_neg (not_not.2 hu), if_pos hm]
    rfl
  · rw [exec_flashWr32, flashDataWrite_of_idle a d hb, if_neg (not_not.2 hu), if_neg (not_not.2 ⟨hpg, her⟩),
      if_pos hbuf]
    rfl
  · rw [exec_flashWr32, flashDataWrite_of_idle a d hb, if_neg (not_not.2 hu), if_neg (not_not.2 ⟨hpg, her⟩),
      if_neg (by simp [hready, hlatch])]
    rfl

end Machine
end Sys2Proof
end

section
/-! PROOFS. The words of a block (44_driver_sequences.md R234): a byte of an assembled word is the byte it was assembled
from, and a word past the block is assembled from fill alone. -/

namespace Sys2Proof.Machine

/-! ## A byte of an assembled word -/

/-- The byte put lowest is read back from the low byte. -/
theorem extractLsb'_zero_setWidth_or_shiftLeft (b : Byte) (w : Word) :
    (b.setWidth 32 ||| w <<< 8).extractLsb' 0 8 = b := by
  ext j hj
  have h32 : j < 32 := by omega
  simp [hj, h32]

/-- Above the lowest byte stands what was shifted up by one byte. -/
theorem extractLsb'_succ_setWidth_or_shiftLeft (b : Byte) (w : Word) {i : Nat} (hi : i + 1 < 4) :
    (b.setWidth 32 ||| w <<< 8).extractLsb' (8 * (i + 1)) 8 = w.extractLsb' (8 * i) 8 := by
  ext j hj
  have h32 : 8 * (i + 1) + j < 32 := by omega
  have hge : ¬ 8 * (i + 1) + j < 8 := by omega
  have hsub : 8 * (i + 1) + j - 8 = 8 * i + j := by omega
  have hb : b.getLsbD (8 * (i + 1) + j) = false := BitVec.getLsbD_of_ge _ _ (by omega)
  have hw : w.getLsbD (8 * i + j) = w[8 * i + j] := BitVec.getLsbD_eq_getElem (by omega)
  simp [h32, hge, hsub, hb, hw]

/-- R64: byte i of a word assembled little-endian is the i-th byte of the list, 0 past its end. -/
theorem extractLsb'_leWord (bs : List Byte) {i : Nat} (hi : i < 4) :
    (leWord bs).extractLsb' (8 * i) 8 = bs.getD i 0 := by
  induction bs generalizing i with
  | nil => simp [leWord]
  | cons b bs ih =>
    cases i with
    | zero => exact extractLsb'_zero_setWidth_or_shiftLeft b (leWord bs)
    | succ i =>
      calc (leWord (b :: bs)).extractLsb' (8 * (i + 1)) 8
          _ = (leWord bs).extractLsb' (8 * i) 8 := extractLsb'_succ_setWidth_or_shiftLeft b (leWord bs) hi
          _ = (b :: bs).getD (i + 1) 0 := ih (by omega)

/-! ## The words of a block -/

theorem blockByte_of_length_le {block : List Byte} {j : Nat} (hj : block.length ≤ j) : blockByte block j = 0xFF :=
  List.getD_eq_default _ _ hj

theorem extractLsb'_blockWord (c : Config) (block : List Byte) (k s : Nat) {i : Nat} (hi : i < 4) :
    (blockWord c block k s).extractLsb' (8 * i) 8 = blockByte block (k * c.pageSize + 4 * s + i) := by
  rw [blockWord, extractLsb'_leWord _ hi, List.getD_eq_getElem _ _ (by simpa using hi)]
  simp

/-- R234: a word wholly past the data. -/
theorem blockWord_of_length_le (c : Config) {block : List Byte} {k s : Nat}
    (hpast : block.length ≤ k * c.pageSize + 4 * s) : blockWord c block k s = 0xFFFFFFFF := by
  have hfill : (List.range 4).map (fun i => blockByte block (k * c.pageSize + 4 * s + i)) = List.replicate 4 0xFF :=
    List.map_eq_replicate_iff.2 fun i _ => blockByte_of_length_le (Nat.le_add_right_of_le hpast)
  rw [blockWord, hfill]
  decide

/-- Settles O57: each byte of the word is the block's, and past the block all four are fill. -/
theorem blockWordsHoldTheBlocksBytes : Obligations.BlockWordsHoldTheBlocksBytes :=
  fun c block k s => ⟨fun _ => extractLsb'_blockWord c block k s, blockWord_of_length_le c⟩

end Sys2Proof.Machine
end

section
/-! PROOFS. What a violation does to the machine and who can see it (60_exceptions.md R260, R263): its record holds the
transaction's own word, only a key error does more, and no transaction reads the fault list. -/

open Sys2Proof.Spec

namespace Sys2Proof

/-! ## A decoded word is the word of what it decodes as (30_encoding.md R90, R92) -/

section Words
variable {c : Config} {w : Txn} {i : Instr}

theorem encode_eq_make (c : Config) (i : Instr) :
    encode c i = Txn.make i.isWrite i.size (i.address c) i.operandData := by
  cases i <;> rfl

theorem eq_busAddr {a : Word} {n : Nat} (h : a.toNat = n) : a = busAddr n := by
  rw [← h, busAddr, BitVec.ofNat_toNat, BitVec.setWidth_eq]

/-- R94, R92: a matching row fixes the direction, the width, the address and the data bits in use. -/
theorem fields_of_matching_row (h : (true, i) ∈ decodeRows c w) :
    w.isWrite = i.isWrite ∧ w.size = i.size ∧ w.addr = i.address c ∧ w.usedData = i.operandData := by
  simp only [decodeRows, List.mem_cons, Prod.mk.injEq, List.not_mem_nil, or_false] at h
  rcases h with h | h | h | h | h | h | h | h | h | h | h | h | h | h | h <;> obtain ⟨hit, rfl⟩ := h <;>
    simp only [Bool.true_eq, Bool.and_eq_true, beq_iff_eq, decide_eq_true_eq] at hit <;>
    obtain ⟨⟨hwrite, hsize⟩, haddr⟩ := hit <;>
    refine ⟨hwrite, hsize, ?_, by simp [Txn.usedData, hwrite, hsize, Instr.operandData, size8, size32]⟩
  case inl => exact eq_busAddr haddr
  all_goals first | rfl | exact eq_busAddr haddr.1

theorem encode_of_decode (h : decode c w = .op i) :
    encode c i = Txn.make w.isWrite w.size w.addr w.usedData := by
  obtain ⟨-, -, hrow⟩ := decode_op h
  obtain ⟨hwrite, hsize, haddr, hdata⟩ := fields_of_matching_row (mem_of_firstRow hrow)
  rw [encode_eq_make, hwrite, hsize, haddr, hdata]

/-- R92: a 32-bit write uses all its data bits, so its word comes back whole. -/
theorem encode_of_decode_write32 (h : decode c w = .op i) (hi : i.isWrite = true) (h32 : i.size = size32) :
    encode c i = w := by
  obtain ⟨hres, -, hrow⟩ := decode_op h
  obtain ⟨hwrite, hsize, -, -⟩ := fields_of_matching_row (mem_of_firstRow hrow)
  have hused : w.usedData = w.data := by
    rw [Txn.usedData, hwrite, hi, hsize, h32]
    rfl
  rw [encode_of_decode h, hused, Txn.make_fields hres]

/-- R94: the only write that is not of 32 bits is `CRC_FEED`. -/
theorem Instr.eq_crcFeed_or_size32 (hi : i.isWrite = true) : (∃ b, i = .crcFeed b) ∨ i.size = size32 := by
  cases i with
  | crcFeed b => exact .inl ⟨b, rfl⟩
  | crcCtrlWr | fkeyrWr | fctlrWr | faddrWr | fmodekeyrWr | flashWr32 => exact .inr rfl
  | crcRead16 | crcRead32 | fstatrRd | fctlrRd | faddrRd | flashRd8 | flashRd16 | flashRd32 => cases hi

/-- R95: a list of rows answers an operation or the access violation, never a refusal. -/
theorem firstRow_op_or_accessViolation (rows : List (Bool × Instr)) :
    (∃ i, firstRow rows = .op i) ∨ firstRow rows = .accessViolation := by
  induction rows with
  | nil => exact .inr rfl
  | cons row rows ih =>
    obtain ⟨hit, i⟩ := row
    cases hit with
    | true => exact .inl ⟨i, rfl⟩
    | false => exact ih

end Words

namespace Machine

/-! ## What a violation does (R260) -/

theorem transact_of_op {s : State} {w : Txn} {i : Instr} (h : decode s.cfg w = .op i) : transact w s = exec i s := by
  rw [transact, h]

/-- R260: a transaction in a window never stops the machine. -/
theorem transact_next {s : State} {w : Txn} (hr : w.res = 0) (hw : s.cfg.InWindow w.addr.toNat) :
    ∃ t, transact w s = .next t := by
  have hdec := decode_of_inWindow hr hw
  rcases firstRow_op_or_accessViolation (decodeRows s.cfg w) with ⟨i, hi⟩ | hv
  · rw [transact_of_op (hdec.trans hi)]
    exact exec_next i s
  · exact ⟨_, transact_of_violation (hdec.trans hv)⟩

theorem mainKey_eq_keyError_of_faults_ne {t : Txn} {d : Word} {s : State} (h : (mainKey t d s).faults ≠ s.faults) :
    mainKey t d s = keyError t s := by
  rcases mainKey_cases t d s with ⟨-, -, hm⟩ | ⟨-, -, hm⟩ | hm
  · exact absurd (congrArg State.faults hm) h
  · exact absurd (congrArg State.faults hm) h
  · exact hm

theorem modeKey_eq_keyError_of_faults_ne {t : Txn} {d : Word} {s : State} (h : (modeKey t d s).faults ≠ s.faults) :
    modeKey t d s = keyError t s := by
  rcases modeKey_cases t d s with ⟨-, -, hm⟩ | ⟨-, -, hm⟩ | hm
  · exact absurd (congrArg State.faults hm) h
  · exact absurd (congrArg State.faults hm) h
  · exact hm

/-- R260, R141: an instruction that adds to the fault list is a write, and its whole effect is a failed check's record
or a key error. -/
theorem exec_of_faults_ne {i : Instr} {s t : State} (h : exec i s = .next t) (hne : t.faults ≠ s.faults) :
    i.isWrite = true ∧
      ((∃ v : Violation, t = faulted s v.code (encode s.cfg i) v.info) ∨ t = keyErrored s (encode s.cfg i)) := by
  rcases exec_cases h with ⟨v, d, -, -, rfl⟩ | ⟨crc, -, rfl⟩ | ⟨v, hw, rfl⟩ | ⟨-, accepted⟩
  · exact absurd rfl hne
  · exact absurd rfl hne
  · rw [encode_eq_make, Txn.isWrite_make] at hw
    exact ⟨hw, .inl ⟨v, rfl⟩⟩
  rcases accepted with ⟨d, rfl, -, rfl⟩ | ⟨d, rfl, -, -, rfl⟩ | ⟨d, -, rfl⟩ | ⟨d, -, s', hs', rfl⟩ |
    ⟨a, d, -, -, -, -, -, -, rfl⟩
  · rw [mainKey_eq_keyError_of_faults_ne hne]
    exact ⟨rfl, .inr rfl⟩
  · rw [modeKey_eq_keyError_of_faults_ne hne]
    exact ⟨rfl, .inr rfl⟩
  · exact absurd rfl hne
  · exact absurd (ctlrWrite_ok_faults hs') hne
  · exact absurd rfl hne

/-- Every write that can record a violation is a 32-bit one: `CRC_FEED` records none (R121). -/
theorem size32_of_faults_ne {i : Instr} {s t : State} (h : exec i s = .next t) (hne : t.faults ≠ s.faults) :
    i.size = size32 := by
  refine (Instr.eq_crcFeed_or_size32 (exec_of_faults_ne h hne).1).resolve_left ?_
  rintro ⟨b, rfl⟩
  cases (exec_crcFeed b s).symm.trans h
  exact hne rfl

/-- R260, R141: a word that adds to the fault list records itself, returns 0 if it is a read, and does nothing else but
a key error. -/
theorem transact_of_faults_ne {w : Txn} {s t : State} (h : transact w s = .next t) (hne : t.faults ≠ s.faults) :
    (∃ code info,
      t = { s with faults := s.faults ++ [⟨code, w, info⟩], rdata := if w.isWrite then none else some 0 }) ∨
    (w.isWrite = true ∧ t = keyErrored s w) := by
  rcases transact_cases h with ⟨i, hdec, he⟩ | ⟨-, ht⟩
  · obtain ⟨hi, ht⟩ := exec_of_faults_ne he hne
    have hword : encode s.cfg i = w := encode_of_decode_write32 hdec hi (size32_of_faults_ne he hne)
    have hw : w.isWrite = true := by rw [← hword, encode_eq_make, Txn.isWrite_make, hi]
    rw [hword] at ht
    rcases ht with ⟨v, rfl⟩ | ht
    · exact .inl ⟨v.code, v.info, by rw [if_pos hw]⟩
    · exact .inr ⟨hw, ht⟩
  · exact .inl ⟨.accessViolation, none, ht⟩

/-! ## No transaction reads the fault list (R260) -/

/-- s with another fault list. -/
def State.withFaults (s : State) (fs : List FaultRecord) : State := { s with faults := fs }

/-- The checks and the effect f of a write do the same with any fault list. -/
def IgnoresFaults (f : State → Except Violation State) : Prop :=
  ∀ s fs, ∃ new, f (s.withFaults fs) = (f s).map (·.withFaults new)

namespace IgnoresFaults

/-- A check of the state ignores the list where its condition does; here each condition does so by definition. -/
theorem ite {p : State → Prop} {_ : DecidablePred p} {f g : State → Except Violation State}
    (hf : IgnoresFaults f) (hg : IgnoresFaults g)
    (hp : ∀ s fs, p (s.withFaults fs) ↔ p s := by exact fun _ _ => Iff.rfl) :
    IgnoresFaults fun s => if p s then f s else g s := by
  intro s fs
  by_cases h : p s
  · simpa only [if_pos h, if_pos ((hp s fs).2 h)] using hf s fs
  · simpa only [if_neg h, if_neg (mt (hp s fs).1 h)] using hg s fs

theorem error (v : Violation) : IgnoresFaults fun _ => .error v := fun _ fs => ⟨fs, rfl⟩

theorem ok {f : State → State} (hf : ∀ s fs, ∃ new, f (s.withFaults fs) = (f s).withFaults new) :
    IgnoresFaults fun s => .ok (f s) := fun s fs => (hf s fs).imp fun _ => congrArg Except.ok

/-- A write that ignores the list ends the same with any list. -/
theorem finishWrite_next {f : State → Except Violation State} (hf : IgnoresFaults f) {t : Txn} {s s' : State}
    (h : finishWrite t s (f s) = .next s') (fs : List FaultRecord) :
    ∃ new, finishWrite t (s.withFaults fs) (f (s.withFaults fs)) = .next (s'.withFaults new) := by
  obtain ⟨new, hnew⟩ := hf s fs
  rw [hnew]
  rcases finishWrite_cases h with ⟨s₁, hs₁, rfl⟩ | ⟨v, hv, rfl⟩
  · exact ⟨new, by rw [hs₁]; rfl⟩
  · exact ⟨_, by rw [hv]; rfl⟩

end IgnoresFaults

theorem mainKey_withFaults (t : Txn) (d : Word) (s : State) (fs : List FaultRecord) :
    ∃ new, mainKey t d (s.withFaults fs) = (mainKey t d s).withFaults new := by
  cases hk : s.keySeq with
  | idle =>
    by_cases hd : d = s.cfg.key1
    · exact ⟨fs, by rw [mainKey_first hk hd, mainKey_first (s := s.withFaults fs) hk hd]; rfl⟩
    · exact ⟨_, by rw [mainKey_first_wrong hk hd, mainKey_first_wrong (s := s.withFaults fs) hk hd]; rfl⟩
  | key1Seen =>
    by_cases hd : d = s.cfg.key2
    · exact ⟨fs, by rw [mainKey_second hk hd, mainKey_second (s := s.withFaults fs) hk hd]; rfl⟩
    · exact ⟨_, by rw [mainKey_second_wrong hk hd, mainKey_second_wrong (s := s.withFaults fs) hk hd]; rfl⟩

theorem modeKey_withFaults (t : Txn) (d : Word) (s : State) (fs : List FaultRecord) :
    ∃ new, modeKey t d (s.withFaults fs) = (modeKey t d s).withFaults new := by
  cases hk : s.modeKeySeq with
  | idle =>
    by_cases hd : d = s.cfg.mkey1
    · exact ⟨fs, by rw [modeKey_first hk hd, modeKey_first (s := s.withFaults fs) hk hd]; rfl⟩
    · exact ⟨_, by rw [modeKey_first_wrong hk hd, modeKey_first_wrong (s := s.withFaults fs) hk hd]; rfl⟩
  | key1Seen =>
    by_cases hd : d = s.cfg.mkey2
    · exact ⟨fs, by rw [modeKey_second hk hd, modeKey_second (s := s.withFaults fs) hk hd]; rfl⟩
    · exact ⟨_, by rw [modeKey_second_wrong hk hd, modeKey_second_wrong (s := s.withFaults fs) hk hd]; rfl⟩

theorem applyMode_withFaults (pg er : Bool) (s : State) (fs : List FaultRecord) :
    applyMode pg er (s.withFaults fs) = (applyMode pg er s).withFaults fs := by
  rw [applyMode_eq, applyMode_eq]
  rfl

theorem performAction_withFaults (act : CtlrAction) (s : State) (fs : List FaultRecord) :
    performAction (s.withFaults fs) act = (performAction s act).withFaults fs := by
  cases act with
  | strt =>
    show start (s.withFaults fs) = (start s).withFaults fs
    have her : (s.withFaults fs).pageEr = s.pageEr := rfl
    unfold start
    rw [her]
    split <;> rfl
  | bufLoad =>
    show bufLoad (s.withFaults fs) = (bufLoad s).withFaults fs
    have hlatch : (s.withFaults fs).latch = s.latch := rfl
    unfold bufLoad
    rw [hlatch]
    cases s.latch with
    | none => rfl
    | some word => rfl
  | bufRst => rfl
  | lockSet => rfl
  | flockSet => rfl

theorem modesThenAction_withFaults (d : Word) (act : Option CtlrAction) (s : State) (fs : List FaultRecord) :
    modesThenAction d (s.withFaults fs) act = (modesThenAction d s act).map (·.withFaults fs) := by
  have hcheck : actionCheck (dPagePg d) (dPageEr d) (s.withFaults fs) = actionCheck (dPagePg d) (dPageEr d) s := rfl
  rw [modesThenAction_eq, modesThenAction_eq, hcheck, applyMode_withFaults]
  cases act.bind (actionCheck (dPagePg d) (dPageEr d) s) with
  | some v => rfl
  | none =>
    cases act with
    | none => rfl
    | some a => exact congrArg Except.ok (performAction_withFaults a _ fs)

/-! ### The six writes that can record a violation -/

section Writes
open IgnoresFaults

theorem crcCtrlWrite_ignoresFaults (d : Word) : IgnoresFaults (crcCtrlWrite d) :=
  ite (error _) <| ite (ok fun _ fs => ⟨fs, rfl⟩) (ok fun _ fs => ⟨fs, rfl⟩)

theorem keyrWrite_ignoresFaults (t : Txn) (d : Word) : IgnoresFaults (keyrWrite t d) :=
  ite (error _) <| ite (error _) <| ok (mainKey_withFaults t d)

theorem modeKeyrWrite_ignoresFaults (t : Txn) (d : Word) : IgnoresFaults (modeKeyrWrite t d) :=
  ite (error _) <| ite (error _) <| ite (error _) <| ok (modeKey_withFaults t d)

theorem addrWrite_ignoresFaults (d : Word) : IgnoresFaults (addrWrite d) :=
  ite (error _) <| ok fun _ fs => ⟨fs, rfl⟩

theorem flashDataWrite_ignoresFaults (a d : Word) : IgnoresFaults (flashDataWrite a d) :=
  ite (error _) <| ite (error _) <| ite (error _) <| ite (error _) <| ok fun _ fs => ⟨fs, rfl⟩

/-- R161: each check of a `CTLR` write asks for the word, the modes, the locks, `BSY` and the buffer alone. -/
theorem ctlrWrite_ignoresFaults (d : Word) : IgnoresFaults (ctlrWrite d) :=
  ite (error _) <| ite (ok fun _ fs => ⟨fs, rfl⟩) <| ite (error _) <| ite (error _) <|
    ite (ite (error _) (ok fun _ fs => ⟨fs, rfl⟩)) <|
    ite (ite (error _) (ok fun _ fs => ⟨fs, rfl⟩)) <|
    ite (error _) fun s fs => ⟨fs, modesThenAction_withFaults d _ s fs⟩

end Writes

/-! ### Reads and whole transactions -/

theorem readFlashByte_withFaults (s : State) (a : Nat) (fs : List FaultRecord) :
    readFlashByte (s.withFaults fs) a = ((readFlashByte s a).1, (readFlashByte s a).2.withFaults fs) := by
  have hop : underOperation (s.withFaults fs) a = underOperation s a := rfl
  unfold readFlashByte
  rw [hop]
  split <;> rfl

theorem readFlashBytes_withFaults (s : State) (a n : Nat) (fs : List FaultRecord) :
    readFlashBytes (s.withFaults fs) a n = ((readFlashBytes s a n).1, (readFlashBytes s a n).2.withFaults fs) := by
  induction n generalizing s a with
  | zero => rfl
  | succ n ih => simp only [readFlashBytes, readFlashByte_withFaults, ih]

theorem flashRead_withFaults {n : Nat} {a : Word} {s t : State} (h : flashRead n a s = .next t)
    (fs : List FaultRecord) : flashRead n a (s.withFaults fs) = .next (t.withFaults fs) := by
  cases h
  simp only [flashRead, readFlashBytes_withFaults]
  rfl

/-- R260: an instruction does and returns the same with any fault list. -/
theorem exec_withFaults {i : Instr} {s t : State} (h : exec i s = .next t) (fs : List FaultRecord) :
    ∃ new, exec i (s.withFaults fs) = .next (t.withFaults new) := by
  cases i with
  | crcFeed | crcRead16 | crcRead32 | fstatrRd | fctlrRd | faddrRd => cases h; exact ⟨fs, rfl⟩
  | flashRd8 | flashRd16 | flashRd32 => exact ⟨fs, flashRead_withFaults h fs⟩
  | crcCtrlWr d => exact (crcCtrlWrite_ignoresFaults d).finishWrite_next h fs
  | fkeyrWr d => exact (keyrWrite_ignoresFaults (encode s.cfg (.fkeyrWr d)) d).finishWrite_next h fs
  | fctlrWr d => exact (ctlrWrite_ignoresFaults d).finishWrite_next h fs
  | faddrWr d => exact (addrWrite_ignoresFaults d).finishWrite_next h fs
  | fmodekeyrWr d => exact (modeKeyrWrite_ignoresFaults (encode s.cfg (.fmodekeyrWr d)) d).finishWrite_next h fs
  | flashWr32 a d => exact (flashDataWrite_ignoresFaults a d).finishWrite_next h fs

theorem transact_withFaults {w : Txn} {s t : State} (h : transact w s = .next t) (fs : List FaultRecord) :
    ∃ new, transact w (s.withFaults fs) = .next (t.withFaults new) := by
  rcases transact_cases h with ⟨i, hdec, he⟩ | ⟨hdec, rfl⟩
  · rw [transact_of_op (s := s.withFaults fs) hdec]
    exact exec_withFaults he fs
  · exact ⟨_, transact_of_violation (s := s.withFaults fs) hdec⟩

/-- Settles O47: no word in a window is refused, one that adds to the list has one of two whole effects, and no
transaction reads the list. -/
theorem faultingTransactionHasNoOtherEffect : Obligations.FaultingTransactionHasNoOtherEffect := by
  refine ⟨fun _ _ => transact_next, fun w s t _ h hne => ?_, fun _ _ _ other h => transact_withFaults h other⟩
  rcases transact_of_faults_ne h hne with ⟨code, info, rfl⟩ | ⟨hw, rfl⟩
  · exact ⟨code, info, rfl, rfl, .inl rfl⟩
  · exact ⟨.keySequence, none, rfl, by rw [if_pos hw], .inr ⟨rfl, rfl⟩⟩

/-! ## Reserved bits (R263) -/

/-- R161, R263: the check of the reserved bits comes first, so a 1 there is the write's one fault. -/
theorem exec_fctlrWr_of_reserved {d : Word} (h : d &&& ctlrReserved ≠ 0) (s : State) :
    exec (.fctlrWr d) s = .next (faulted s .reservedBit (encode s.cfg (.fctlrWr d))) := by
  rw [exec_fctlrWr, ctlrWrite, if_pos h, finishWrite_error]
  rfl

/-- Settles O48: the two registers' writes check their reserved bits before anything else. -/
theorem reservedBitsVoidTheWrite : Obligations.ReservedBitsVoidTheWrite :=
  fun _ s => ⟨fun h => exec_fctlrWr_of_reserved h s, fun h => exec_crcCtrlWr_of_reserved h s⟩

end Machine
end Sys2Proof
end

section
/-! PROOFS. A reset that interrupts an operation (70_reset_and_hazards.md R292): what is written, and that it stays inside
the page under operation. -/

namespace Sys2Proof.Machine

/-- R34: an erase of page p is pending, or a commit to it of as many words as a page holds. -/
def State.OperatesOn (s : State) (p : Word) : Prop :=
  s.pending = .erase p ∨ ∃ w, s.pending = .program p w ∧ w.length = s.cfg.wordsPerPage

/-- R292: torn, as the completion step would have left it, or as before. -/
theorem interruptedFlash_of_operatesOn {s : State} {p : Word} (h : s.OperatesOn p) :
    (interruptedFlash s).1 =
      if s.cfg.tornOnReset then s.flash.writeBytes p.toNat (freeBytes s.draws s.cfg.pageSize)
      else if Config.freeChoice s.draws then (finishedFlash { s with draws := s.draws + 1 }).1
      else s.flash := by
  rcases h with hp | ⟨w, hp, -⟩
  all_goals
    simp only [interruptedFlash, hp]
    split_ifs <;> rfl

/-- R292: without tearing, the array is the old one or the finished one. -/
theorem interruptedFlash_old_or_finished {s : State} {p : Word} (h : s.OperatesOn p) (ht : s.cfg.tornOnReset = false) :
    (interruptedFlash s).1 = s.flash ∨ ∃ d, (interruptedFlash s).1 = (finishedFlash { s with draws := d }).1 := by
  rw [interruptedFlash_of_operatesOn h, ht, if_neg Bool.false_ne_true]
  split
  · exact .inr ⟨s.draws + 1, rfl⟩
  · exact .inl rfl

/-! ## Nothing is written outside the page -/

/-- R180: the completion step writes one page's worth of bytes at the page under operation. -/
theorem finishedFlash_eq_writeBytes {s : State} {p : Word} (hc : s.cfg.Wf) (h : s.OperatesOn p) :
    ∃ bs : List Byte, bs.length = s.cfg.pageSize ∧ (finishedFlash s).1 = s.flash.writeBytes p.toNat bs := by
  rcases h with hp | ⟨w, hp, hlen⟩
  · exact ⟨List.replicate s.cfg.pageSize 0xFF, by simp, by simp [finishedFlash, hp]⟩
  · have hw : (wordsBytes w).length = s.cfg.pageSize := by rw [length_wordsBytes, hlen, hc.pageSize_eq]
    simp only [finishedFlash, hp]
    split
    · exact ⟨_, hw, rfl⟩
    · split
      · exact ⟨_, by simp [hw], rfl⟩
      · exact ⟨_, length_freeBytes _ _, rfl⟩

/-- R292: the reset writes at most one page's worth of bytes at the page under operation; none where it stays old. -/
theorem interruptedFlash_eq_writeBytes {s : State} {p : Word} (hc : s.cfg.Wf) (h : s.OperatesOn p) :
    ∃ bs : List Byte, bs.length ≤ s.cfg.pageSize ∧ (interruptedFlash s).1 = s.flash.writeBytes p.toNat bs := by
  rw [interruptedFlash_of_operatesOn h]
  split_ifs
  · exact ⟨_, (length_freeBytes _ _).le, rfl⟩
  · obtain ⟨bs, hlen, hbs⟩ := finishedFlash_eq_writeBytes (s := { s with draws := s.draws + 1 }) hc h
    exact ⟨bs, hlen.le, hbs⟩
  · exact ⟨[], Nat.zero_le _, rfl⟩

/-- Settles O51: what the reset writes lies inside the page, untorn it is nothing or what the completion step writes, and
a load is no operation on the array. -/
theorem interruptedPageIsOldOrNew : Obligations.InterruptedPageIsOldOrNew := by
  refine ⟨fun s p hc hwf (h : s.OperatesOn p) => ⟨fun a ha => ?_, fun ht => ?_⟩, fun s hp => ?_⟩
  · obtain ⟨bs, hlen, hbs⟩ := interruptedFlash_eq_writeBytes hc h
    rw [resetBlock_flash, hbs, Memory.read_writeBytes_outside hwf _ _ _ (by omega)]
  · simp only [resetBlock_flash, complete_flash_of_busy]
    exact interruptedFlash_old_or_finished h ht
  · exact resetBlock_keeps_flash (by rw [hp]; rfl)

end Sys2Proof.Machine
end

section
/-! PROOFS. Encoding and decoding are inverse to each other, and the accesses that decode are those of the table of widths
(30_encoding.md R90-R94, 20_memory.md R66). -/

namespace Sys2Proof

/-! ## The words of `CTLR` writes and of reads of the flash window (30_encoding.md R94, R95) -/

section Words
variable {c : Config} {a : Word}

theorem decode_fctlrWr (hc : c.Wf) (ha : a.toNat = c.regCtlr) (h4 : c.regCtlr % 4 = 0) (d : Word) :
    decode c (Txn.make true size32 a d) = .op (.fctlrWr d) := by
  have hcrc : c.regCtlr ≠ c.regCrcCtrl := ha ▸ ne_regCrcCtrl_of_eq_fctlBase_add hc ha (by decide)
  have hother : c.regCtlr ≠ c.regKeyr := by simp [Config.regCtlr, Config.regKeyr]
  rw [decode_make, if_pos (inWindow_of_eq_fctlBase_add ha (by decide))]
  simp [decodeRows, firstRow_cons, ha, h4, hcrc, hother, size8, size32]

/-- R60: no register a read can reach has the address of a flash byte. -/
theorem ne_readable_register_of_inFlash (hc : c.Wf) {n : Nat} (hn : c.InFlash n) :
    n ≠ c.regCrcValue ∧ n ≠ c.regStatr ∧ n ≠ c.regCtlr ∧ n ≠ c.regAddr := by
  obtain ⟨hfctl, hcrc, -⟩ := hc.windows
  simp only [Config.regCrcValue, Config.regStatr, Config.regCtlr, Config.regAddr]
  omega

/-- R200-R202: a read of the flash window is a transaction of the SSB where its address is aligned to its width. -/
theorem decode_flashRead (hc : c.Wf) (ha : c.InFlash a.toNat) (sz : BitVec 2) (d : Word) :
    decode c (Txn.make false sz a d) =
      if sz = size8 then .op (.flashRd8 a)
      else if sz = size16 ∧ a.toNat % 2 = 0 then .op (.flashRd16 a)
      else if sz = size32 ∧ a.toNat % 4 = 0 then .op (.flashRd32 a)
      else .accessViolation := by
  obtain ⟨hvalue, hstatr, hctlr, haddr⟩ := ne_readable_register_of_inFlash hc ha
  rw [decode_make, if_pos (.inl ha)]
  simp [decodeRows, firstRow_cons, firstRow_nil, ha.1, ha.2, hvalue, hstatr, hctlr, haddr]

theorem decode_flashRead8 (hc : c.Wf) (ha : c.InFlash a.toNat) (d : Word) :
    decode c (Txn.make false size8 a d) = .op (.flashRd8 a) := by
  rw [decode_flashRead hc ha, if_pos rfl]

theorem decode_flashRead16 (hc : c.Wf) (ha : c.InFlash a.toNat) (d : Word) :
    decode c (Txn.make false size16 a d) = if a.toNat % 2 = 0 then .op (.flashRd16 a) else .accessViolation := by
  rw [decode_flashRead hc ha]
  simp [size8, size16, size32]

theorem decode_flashRead32 (hc : c.Wf) (ha : c.InFlash a.toNat) (d : Word) :
    decode c (Txn.make false size32 a d) = if a.toNat % 4 = 0 then .op (.flashRd32 a) else .accessViolation := by
  rw [decode_flashRead hc ha]
  simp [size8, size16, size32]

end Words

/-- Settles O1: each transaction's word is matched by that transaction's own row, every row before it having another
address. -/
theorem encodedTransactionsDecodeBack : Obligations.EncodedTransactionsDecodeBack := by
  intro c hc i hi
  cases i with
  | crcFeed b =>
    have hb : (b.setWidth 32).setWidth 8 = b := by simp
    exact (decode_crcFeed (toNat_busAddr hi.1) _).trans (by rw [hb])
  | crcRead16 => exact decode_crcRead16 (toNat_busAddr hi.1) hi.2 0
  | crcRead32 => exact decode_crcRead32 (toNat_busAddr hi.1) hi.2 0
  | crcCtrlWr d => exact decode_crcCtrlWr (toNat_busAddr hi.1) hi.2 d
  | fkeyrWr d => exact decode_fkeyrWr hc (toNat_busAddr hi.1) hi.2 d
  | fstatrRd => exact decode_fstatrRd hc (toNat_busAddr hi.1) hi.2 0
  | fctlrRd => exact decode_fctlrRd hc (toNat_busAddr hi.1) hi.2 0
  | fctlrWr d => exact decode_fctlrWr hc (toNat_busAddr hi.1) hi.2 d
  | faddrRd => exact decode_faddrRd hc (toNat_busAddr hi.1) hi.2 0
  | faddrWr d => exact decode_faddrWr hc (toNat_busAddr hi.1) hi.2 d
  | fmodekeyrWr d => exact decode_fmodekeyrWr hc (toNat_busAddr hi.1) hi.2 d
  | flashRd8 a => exact decode_flashRead8 hc hi 0
  | flashRd16 a => exact (decode_flashRead16 hc hi.1 0).trans (if_pos hi.2)
  | flashRd32 a => exact (decode_flashRead32 hc hi.1 0).trans (if_pos hi.2)
  | flashWr32 a d => exact (decode_flashWrite hc hi.1 size32 d).trans (if_pos ⟨rfl, hi.2⟩)

/-- Settles O2: a matching row fixes every field of the word but the data bits not in use. -/
theorem decodedWordsEncodeBack : Obligations.DecodedWordsEncodeBack :=
  fun _ _ _ _ h => ⟨wf_of_decode h, encode_of_decode h⟩

/-! ## Which accesses decode -/

theorem exists_firstRow_op_iff (rows : List (Bool × Instr)) :
    (∃ i, firstRow rows = .op i) ↔ ∃ i, (true, i) ∈ rows := by
  refine ⟨fun ⟨i, h⟩ => ⟨i, mem_of_firstRow h⟩, ?_⟩
  rintro ⟨i, hi⟩
  induction rows with
  | nil => cases hi
  | cons row rows ih =>
    obtain ⟨hit, j⟩ := row
    cases hit with
    | true => exact ⟨j, rfl⟩
    | false => exact ih (by simpa using hi)

/-- R90, R93: the four codes of `SZ`. -/
theorem size_cases (sz : BitVec 2) : sz = size8 ∨ sz = size16 ∨ sz = size32 ∨ sz = 0b11 := by
  revert sz
  decide

/-- Settles O3: a word in a window decodes exactly when a row matches it. For each direction and width, the addresses of
the rows are those of the table. -/
theorem admittedAccessesAreTheTableOfWidths : Obligations.AdmittedAccessesAreTheTableOfWidths := by
  intro c _ t hr hw
  rw [decode_of_inWindow hr hw, exists_firstRow_op_iff]
  simp only [decodeRows, List.mem_cons, Prod.mk.injEq, List.not_mem_nil, or_false, exists_or, exists_and_left,
    exists_eq, and_true, Bool.true_eq, Bool.and_eq_true, beq_iff_eq, decide_eq_true_eq]
  simp only [Config.regCrcData, Config.regCrcValue, Config.regCrcCtrl, Config.regKeyr, Config.regStatr, Config.regCtlr,
    Config.regAddr, Config.regModeKeyr]
  cases t.isWrite <;> rcases size_cases t.size with hsz | hsz | hsz | hsz <;> simp [hsz, size8, size16, size32]
  · exact or_comm
  · simp only [or_and_right]
    exact iff_of_eq (by ac_rfl)
  · simp only [or_and_right]
    exact iff_of_eq (by ac_rfl)

end Sys2Proof
end

section
/-! PROOFS. The machine's invariant (Safety.lean): it holds with every register at its reset value, and each operation of
the controller, the completion step and reset keep it, so every step does. -/

namespace Sys2Proof.Machine

/-! ## Reset values -/

/-- R40: with the registers at their reset values the invariant asks for the parameters, the buffer's length and the
flash array alone. -/
theorem inv_of_reset_values {s : State} (hc : s.cfg.Wf) (hf : s.flash.Wf)
    (hw : s.flash.Within s.cfg.flashBase s.cfg.flashEnd) (hbuf : s.buf.length = s.cfg.wordsPerPage) :
    Inv { s with
      lock := true, flock := true, pageEr := false, pagePg := false, bsy := false, keySeq := .idle,
      modeKeySeq := .idle, barred := false, pending := .none,
      loaded := List.replicate s.cfg.wordsPerPage false, bufState := .invalid, bufPage := none, latch := none } where
  config_wf := hc
  busy_iff_pending := by simp
  lock_implies_flock := fun _ => rfl
  busy_implies_unlocked := nofun
  erase_pending := nofun
  program_pending := nofun
  load_pending := nofun
  barred_implies_locked := nofun
  mode_key_implies_main_unlocked := nofun
  buf_length := hbuf
  loaded_length := by simp
  no_page_no_slot := fun _ => rfl
  unloaded_slot := nofun
  buf_page := nofun
  latched := nofun
  flash_wf := hf
  flash_within := hw

theorem inv_powerOn {c : Config} {f : Memory} (hc : c.Wf) (hf : f.Wf) (hw : f.Within c.flashBase c.flashEnd) :
    Inv (State.powerOn c f) :=
  inv_of_reset_values (s := State.powerOn c f) hc hf hw (by simp [State.powerOn])

/-- Settles O52: power-on gives every register its reset value, and the array of `State.reset` is canonical. -/
theorem invariantHoldsAtPowerOn : Obligations.InvariantHoldsAtPowerOn :=
  ⟨fun _ _ => inv_powerOn, inv_powerOn Config.default_wf reset_flash_wf.1 reset_flash_wf.2⟩

/-! ## What the invariant does not speak of -/

/-- The CRC register, `ADDR`, the fault list and all that is not SSB state may change freely. -/
theorem Inv.of_frame {s t : State} (h : Inv s)
    (ht : t = { s with
      crc := t.crc, addr := t.addr, faults := t.faults, host := t.host, rdata := t.rdata, draws := t.draws,
      flashOps := t.flashOps, bus := t.bus }) : Inv t := by
  rw [ht]
  exact { h with }

/-- R34: an idle controller has nothing pending. -/
theorem Inv.pending_of_idle {s : State} (h : Inv s) (hb : s.bsy = false) : s.pending = .none :=
  by_contra fun hp => by simp [h.busy_iff_pending.2 hp] at hb

/-! ## The locks (41_flash_lock.md) -/

section Idle
variable {s : State} (h : Inv s) (hb : s.bsy = false)
include h hb

theorem Inv.keyError (t : Txn) : Inv (keyError t s) :=
  { h with
    lock_implies_flock := fun _ => rfl
    busy_implies_unlocked := fun hb' => absurd (hb'.symm.trans hb) (by decide)
    barred_implies_locked := fun _ => ⟨⟨rfl, rfl⟩, rfl, rfl⟩
    mode_key_implies_main_unlocked := nofun }

theorem Inv.lockSet : Inv (lockSet s) :=
  { h with
    lock_implies_flock := fun _ => rfl
    busy_implies_unlocked := fun hb' => absurd (hb'.symm.trans hb) (by decide)
    barred_implies_locked := fun _ => ⟨⟨rfl, rfl⟩, rfl, rfl⟩
    mode_key_implies_main_unlocked := nofun }

theorem Inv.flockSet : Inv (flockSet s) :=
  { h with
    lock_implies_flock := fun _ => rfl
    busy_implies_unlocked := fun hb' => absurd (hb'.symm.trans hb) (by decide)
    barred_implies_locked := fun hbar =>
      have ⟨hl, hk, _⟩ := h.barred_implies_locked hbar
      ⟨⟨hl.1, rfl⟩, hk, rfl⟩
    mode_key_implies_main_unlocked := nofun }

theorem Inv.mainKey (hbar : s.barred = false) (t : Txn) (d : Word) : Inv (mainKey t d s) := by
  have hopen : ∀ {p : Prop}, s.barred = true → p := fun hbar' => absurd (hbar'.symm.trans hbar) (by decide)
  rcases mainKey_cases t d s with ⟨-, -, hm⟩ | ⟨-, -, hm⟩ | hm <;> rw [hm]
  · exact { h with barred_implies_locked := hopen }
  · exact { h with
      lock_implies_flock := nofun
      busy_implies_unlocked := fun hb' => absurd (hb'.symm.trans hb) (by decide)
      barred_implies_locked := hopen
      mode_key_implies_main_unlocked := fun _ => rfl }
  · exact h.keyError hb t

theorem Inv.modeKey (hbar : s.barred = false) (hl : s.lock = false) (t : Txn) (d : Word) : Inv (modeKey t d s) := by
  have hopen : ∀ {p : Prop}, s.barred = true → p := fun hbar' => absurd (hbar'.symm.trans hbar) (by decide)
  rcases modeKey_cases t d s with ⟨-, -, hm⟩ | ⟨-, -, hm⟩ | hm <;> rw [hm]
  · exact { h with barred_implies_locked := hopen, mode_key_implies_main_unlocked := fun _ => hl }
  · exact { h with
      lock_implies_flock := fun hl' => absurd (hl'.symm.trans hl) (by decide)
      busy_implies_unlocked := fun hb' => absurd (hb'.symm.trans hb) (by decide)
      barred_implies_locked := hopen
      mode_key_implies_main_unlocked := nofun }
  · exact h.keyError hb t

/-! ## The sequencer (42_flash_erase_program.md) -/

/-- R162: a write that leaves page-program mode drops the latch, so a latched word is still in that mode. -/
theorem Inv.applyMode (pg er : Bool) : Inv (applyMode pg er s) := by
  have hp := h.pending_of_idle hb
  rw [applyMode_eq]
  refine { h with erase_pending := ?_, program_pending := ?_, load_pending := ?_, unloaded_slot := ?_, latched := ?_ }
  · simp [hp]
  · simp [hp]
  · simp [hp]
  · intro hready
    exact h.unloaded_slot (by simp only at hready; split at hready <;> simp_all)
  · intro a d hl
    cases hleave : s.pagePg && !pg with
    | true => simp [hleave] at hl
    | false =>
      simp only [hleave, Bool.false_eq_true, if_false] at hl ⊢
      obtain ⟨ha, h4, hpg, hready⟩ := h.latched a d hl
      exact ⟨ha, h4, by simpa [hpg] using hleave, hready⟩

/-- R166: the reset buffer is all ones, with no slot loaded. -/
theorem Inv.bufReset : Inv (bufReset s) := by
  have hp := h.pending_of_idle hb
  refine { h with
    program_pending := ?_, load_pending := ?_, buf_length := ?_, loaded_length := ?_, no_page_no_slot := fun _ => rfl,
    unloaded_slot := ?_, buf_page := nofun, latched := nofun }
  · simp [hp]
  · simp [hp]
  · simp
  · simp
  · intro _ k hk _
    simp_all

end Idle

section Modes
variable {s : State} (h : Inv s)
include h

/-- R205: a word is latched in page-program mode, with the buffer ready. -/
theorem Inv.latch {a d : Word} (ha : s.cfg.InFlash a.toNat) (h4 : a.toNat % 4 = 0) (hpg : s.pagePg = true)
    (hready : s.bufState = .ready) : Inv { s with latch := some (a, d) } :=
  { h with
    latched := by
      intro a' d' hl
      cases hl
      exact ⟨ha, h4, hpg, hready⟩ }

theorem Inv.startErase (hu : s.Unlocked) (hpage : IsPage s.cfg s.addr.toNat) (her : s.pageEr = true)
    (hpg : s.pagePg = false) : Inv (startErase s) :=
  { h with
    busy_iff_pending := by simp
    busy_implies_unlocked := fun _ => hu
    erase_pending := by
      intro p hp
      cases hp
      exact ⟨hpage, her, hpg⟩
    program_pending := nofun
    load_pending := nofun }

/-- R165: the snapshot is a full page, and with no word latched the buffer may be spent. -/
theorem Inv.startProgram (hu : s.Unlocked) (hpage : IsPage s.cfg s.addr.toNat) (her : s.pageEr = false)
    (hpg : s.pagePg = true) (hl : s.latch = none) : Inv (startProgram s) :=
  { h with
    busy_iff_pending := by simp
    busy_implies_unlocked := fun _ => hu
    erase_pending := nofun
    program_pending := by
      intro p w hp
      cases hp
      exact ⟨hpage, h.buf_length, rfl, hpg, her⟩
    load_pending := nofun
    unloaded_slot := nofun
    latched := fun a d hl' => absurd (hl.symm.trans hl') nofun }

omit h in
/-- R167: the whole effect of a load. -/
theorem bufLoad_of_latched {a d : Word} (hl : s.latch = some (a, d)) :
    bufLoad s =
      { s with
        buf := s.buf.set (slotOf s.cfg a.toNat) d, loaded := s.loaded.set (slotOf s.cfg a.toNat) true,
        bufPage := some (pageWord s.cfg a), latch := none, bsy := true, pending := .load } := by
  simp only [bufLoad, hl]

/-- R167: the latched word's slot is loaded, and its page is a page of the flash window. -/
theorem Inv.bufLoad (hu : s.Unlocked) (hpg : s.pagePg = true) (her : s.pageEr = false) {a d : Word}
    (hl : s.latch = some (a, d)) : Inv (bufLoad s) := by
  obtain ⟨ha, -, -, hready⟩ := h.latched a d hl
  rw [bufLoad_of_latched hl]
  refine { h with
    busy_iff_pending := by simp, busy_implies_unlocked := fun _ => hu, erase_pending := nofun,
    program_pending := nofun, load_pending := fun _ => ⟨hready, hpg, her⟩, buf_length := ?_, loaded_length := ?_,
    no_page_no_slot := nofun, unloaded_slot := ?_, buf_page := ?_, latched := nofun }
  · simpa using h.buf_length
  · simpa using h.loaded_length
  · intro _ k hk hun
    have hk' : k < s.buf.length := h.buf_length.symm ▸ hk
    have hk'' : k < s.loaded.length := h.loaded_length.symm ▸ hk
    by_cases hslot : slotOf s.cfg a.toNat = k
    · simp [hslot, hk''] at hun
    · simp only [List.getD_eq_getElem?_getD, List.getElem?_set_ne hslot] at hun ⊢
      simpa using h.unloaded_slot hready k hk (by simpa using hun)
  · intro p hp
    cases hp
    rw [toNat_pageWord]
    exact isPage_pageOf h.config_wf ha

end Modes

/-! ## `CTLR` writes -/

/-- R162: a write that sets page-program mode keeps the buffer's state and the latch. -/
theorem applyMode_true (er : Bool) (s : State) : applyMode true er s = { s with pagePg := true, pageEr := er } := by
  simp [applyMode_eq]

theorem applyMode_true_latch (er : Bool) (s : State) : (applyMode true er s).latch = s.latch := by
  rw [applyMode_true]

/-- R161: an action that its precondition admits keeps the invariant under the new modes. -/
theorem Inv.performAction {s : State} (h : Inv s) (hb : s.bsy = false) (hu : s.Unlocked) {pg er : Bool}
    {act : CtlrAction} (hc : actionCheck pg er s act = none) :
    Inv (performAction (Machine.applyMode pg er s) act) := by
  have hm := h.applyMode hb pg er
  have hmb : (Machine.applyMode pg er s).bsy = false := (applyMode_bsy ..).trans hb
  have hmu : (Machine.applyMode pg er s).Unlocked := ⟨(applyMode_lock ..).trans hu.1, (applyMode_flock ..).trans hu.2⟩
  cases act with
  | strt =>
    obtain ⟨hpage, ⟨rfl, rfl⟩ | ⟨rfl, rfl, -, hl, -⟩⟩ := strtCheck_none hc
    · rw [Machine.performAction, start_of_pageEr (applyMode_pageEr ..)]
      exact hm.startErase hmu (by simpa using hpage) (applyMode_pageEr ..) (applyMode_pagePg ..)
    · rw [Machine.performAction, start_of_not_pageEr (applyMode_pageEr ..)]
      exact hm.startProgram hmu (by simpa using hpage) (applyMode_pageEr ..) (applyMode_pagePg ..)
        ((applyMode_true_latch ..).trans hl)
  | bufLoad =>
    obtain ⟨rfl, rfl, -, a, d, hl, -⟩ := bufLoadCheck_none hc
    exact hm.bufLoad hmu (applyMode_pagePg ..) (applyMode_pageEr ..) ((applyMode_true_latch ..).trans hl)
  | bufRst => exact hm.bufReset hmb
  | lockSet => exact hm.lockSet hmb
  | flockSet => exact hm.flockSet hmb

theorem Inv.ctlrWrite {s s' : State} (h : Inv s) {d : Word} (hs' : Machine.ctlrWrite d s = .ok s') : Inv s' := by
  rcases ctlrWrite_ok hs' with rfl | ⟨hb, -, rfl⟩ | ⟨hb, -, rfl⟩ | ⟨hb, hl, hf, rfl | ⟨act, -, -, hc, rfl⟩⟩
  · exact h
  · exact h.lockSet hb
  · exact h.flockSet hb
  · exact h.applyMode hb ..
  · exact h.performAction hb ⟨hl, hf⟩ hc

/-! ## Transactions and host turns -/

theorem Inv.acknowledge {s : State} (h : Inv s) : Inv (acknowledge s) := h.of_frame rfl

/-- An instruction that answers next keeps the invariant; a data word is latched for an address of its row (R205). -/
theorem Inv.exec {i : Instr} {s t : State} (h : Inv s) (hi : i.Wf s.cfg) (ht : exec i s = .next t) : Inv t := by
  rcases exec_cases ht with ⟨v, d, -, -, rfl⟩ | ⟨c, -, rfl⟩ | ⟨v, -, rfl⟩ | ⟨hb, accepted⟩
  · exact h.of_frame rfl
  · exact h.of_frame rfl
  · exact h.of_frame rfl
  rcases accepted with ⟨d, -, hbar, rfl⟩ | ⟨d, -, hbar, hl, rfl⟩ | ⟨d, -, rfl⟩ | ⟨d, -, s', hs', rfl⟩ |
    ⟨a, d, rfl, -, hpg, -, hready, -, rfl⟩
  · exact (h.mainKey hb hbar ..).acknowledge
  · exact (h.modeKey hb hbar hl ..).acknowledge
  · exact h.of_frame rfl
  · exact (h.ctlrWrite hs').acknowledge
  · exact (h.latch hi.1 hi.2 hpg hready).acknowledge

theorem Inv.transact {w : Txn} {s t : State} (h : Inv s) (ht : transact w s = .next t) : Inv t := by
  rcases transact_cases ht with ⟨i, hdec, he⟩ | ⟨-, rfl⟩
  · exact h.exec (wf_of_decode hdec) he
  · exact h.of_frame rfl

theorem Inv.hostTurn {s t : State} (h : Inv s) (ht : hostTurn s = .next t) : Inv t := by
  rcases hostTurn_cases ht with ⟨d, hc, -, s', rfl | ⟨w, hw⟩, hc', rfl, -⟩ | rfl
  · exact h.of_frame rfl
  · have hs : Inv { s with draws := d, host := hc } := h.of_frame rfl
    exact (hs.transact hw).of_frame rfl
  · exact h.of_frame rfl

/-! ## The completion step and reset -/

/-- R164, R165: an operation on the array is one on a page of the flash window. -/
theorem Inv.operatesOn {s : State} (h : Inv s) (hop : s.pending.changesFlash = true) :
    ∃ p, s.OperatesOn p ∧ IsPage s.cfg p.toNat := by
  obtain ⟨p, hp | ⟨w, hp⟩⟩ := (Pending.changesFlash_iff _).1 hop
  · exact ⟨p, .inl hp, (h.erase_pending p hp).1⟩
  · obtain ⟨hpage, hlen, -⟩ := h.program_pending p w hp
    exact ⟨p, .inr ⟨w, hp, hlen⟩, hpage⟩

/-- At most a page's worth of bytes written at a page address stays inside the flash window. -/
theorem Inv.within_writeBytes {s : State} (h : Inv s) {p : Nat} (hp : IsPage s.cfg p) {bs : List Byte}
    (hbs : bs.length ≤ s.cfg.pageSize) : (s.flash.writeBytes p bs).Within s.cfg.flashBase s.cfg.flashEnd :=
  Memory.within_writeBytes h.flash_within p bs hp.1.1 ((Nat.add_le_add_left hbs p).trans (hp.add_le h.config_wf))

theorem Inv.finishedFlash_within {s : State} (h : Inv s) :
    (finishedFlash s).1.Within s.cfg.flashBase s.cfg.flashEnd := by
  cases hop : s.pending.changesFlash with
  | false => exact finishedFlash_keeps hop ▸ h.flash_within
  | true =>
    obtain ⟨p, hon, hp⟩ := h.operatesOn hop
    obtain ⟨bs, hlen, hbs⟩ := finishedFlash_eq_writeBytes h.config_wf hon
    exact hbs ▸ h.within_writeBytes hp hlen.le

theorem Inv.interruptedFlash_within {s : State} (h : Inv s) :
    (interruptedFlash s).1.Within s.cfg.flashBase s.cfg.flashEnd := by
  cases hop : s.pending.changesFlash with
  | false => exact interruptedFlash_keeps hop ▸ h.flash_within
  | true =>
    obtain ⟨p, hon, hp⟩ := h.operatesOn hop
    obtain ⟨bs, hlen, hbs⟩ := interruptedFlash_eq_writeBytes h.config_wf hon
    exact hbs ▸ h.within_writeBytes hp hlen

theorem Inv.complete {s : State} (h : Inv s) : Inv (complete s) := by
  unfold Machine.complete
  split
  · exact { h with
      busy_iff_pending := by simp
      busy_implies_unlocked := nofun
      erase_pending := nofun
      program_pending := nofun
      load_pending := nofun
      flash_wf := finishedFlash_wf h.flash_wf
      flash_within := h.finishedFlash_within }
  · exact h

theorem Inv.resetBlock {s : State} (h : Inv s) : Inv (resetBlock s) :=
  inv_of_reset_values (s := Machine.resetBlock s) h.config_wf (interruptedFlash_wf h.flash_wf) h.interruptedFlash_within
    (length_freeWords ..)

/-- Settles O53: each kind of event keeps the invariant, and taking the event off the bus does. -/
theorem everyStepKeepsTheInvariant : Obligations.EveryStepKeepsTheInvariant := by
  intro s t h ht
  have hbus : ∀ rest, Inv { s with bus := rest } := fun _ => h.of_frame rfl
  rcases (step_cases ht).2 with ⟨-, rfl⟩ | ⟨rest, ⟨w, -, hw⟩ | ⟨-, rfl⟩ | ⟨-, rfl⟩ | ⟨-, hturn⟩⟩
  · exact h
  · exact (hbus rest).transact hw
  · exact (hbus rest).complete
  · exact (hbus rest).resetBlock
  · exact (hbus rest).hostTurn hturn

end Sys2Proof.Machine
end


section
/-! PROOFS. The opcode table of the default parameters (30_encoding.md R94): its rows are disjoint, and the masks name the
row that the decoder does. -/

namespace Sys2Proof

/-! ## The rows are disjoint -/

/-- Two rows that match one word agree wherever both masks look. -/
theorem value_and_mask_comm {t m m' v v' : Txn} (h : t &&& m = v) (h' : t &&& m' = v') : v &&& m' = v' &&& m := by
  rw [← h, ← h', BitVec.and_assoc, BitVec.and_assoc, BitVec.and_comm m m']

/-- Settles O5: no two different rows agree wherever both masks look. -/
theorem opcodeTableRowsAreDisjoint : Obligations.OpcodeTableRowsAreDisjoint := by
  have hagree : ∀ r ∈ opcodeTable, ∀ r' ∈ opcodeTable, r.value &&& r'.mask = r'.value &&& r.mask → r = r' := by
    decide
  exact fun r hr r' hr' t h h' => hagree r hr r' hr' (value_and_mask_comm h h')

/-! ## A mask of the table as a condition on the fields (R90) -/

/-- The mask m looks at W, SZ and RES whole, and not at D. -/
abbrev MasksFields (m : Txn) : Prop :=
  m.isWrite = true ∧ m.size = BitVec.allOnes 2 ∧ m.res = BitVec.allOnes 5 ∧ m.data = 0

theorem Txn.isWrite_and (t m : Txn) : (t &&& m).isWrite = (t.isWrite && m.isWrite) := BitVec.getLsbD_and
theorem Txn.size_and (t m : Txn) : (t &&& m).size = t.size &&& m.size := BitVec.extractLsb'_and
theorem Txn.res_and (t m : Txn) : (t &&& m).res = t.res &&& m.res := BitVec.extractLsb'_and
theorem Txn.addr_and (t m : Txn) : (t &&& m).addr = t.addr &&& m.addr := BitVec.extractLsb'_and
theorem Txn.data_and (t m : Txn) : (t &&& m).data = t.data &&& m.data := BitVec.extractLsb'_and

/-- Such a mask compares W, SZ and RES, and of A the bits it looks at. -/
theorem and_mask_eq_make_iff {m : Txn} (hm : MasksFields m) (t : Txn) (w : Bool) (sz : BitVec 2) (a : Word) :
    t &&& m = Txn.make w sz a 0 ↔ t.res = 0 ∧ t.isWrite = w ∧ t.size = sz ∧ t.addr &&& m.addr = a := by
  obtain ⟨hw, hsz, hres, hd⟩ := hm
  have hres' : (t &&& m).res = t.res := by rw [Txn.res_and, hres, BitVec.and_allOnes]
  have hw' : (t &&& m).isWrite = t.isWrite := by rw [Txn.isWrite_and, hw, Bool.and_true]
  have hsz' : (t &&& m).size = t.size := by rw [Txn.size_and, hsz, BitVec.and_allOnes]
  have hd' : (t &&& m).data = 0 := by rw [Txn.data_and, hd]; exact BitVec.and_zero
  constructor
  · intro h
    rw [← hres', ← hw', ← hsz', ← Txn.addr_and, h]
    simp
  · rintro ⟨hr, rfl, rfl, rfl⟩
    rw [← Txn.make_fields (hres'.trans hr), hw', hsz', hd', Txn.addr_and]

/-! ## The addresses the masks let through -/

/-- The mask of a register's row looks at the whole address. -/
theorem and_registerMask_eq_iff {m a : Word} (hm : m = BitVec.allOnes 32) (x : Word) :
    x &&& m = a ↔ x.toNat = a.toNat := by
  rw [hm, BitVec.and_allOnes, BitVec.toNat_inj]

/-- The masks of the flash rows look at the 18 bits of the address that tell its window, and at some below. -/
theorem and_flashMask_eq_iff {m : Word} (hm : m.extractLsb' 14 18 = BitVec.allOnes 18) (x : Word) :
    x &&& m = 0x08000000 ↔
      Config.default.InFlash x.toNat ∧ x.extractLsb' 0 14 &&& m.extractLsb' 0 14 = 0 := by
  have hsplit : ∀ y z : Word, y = z ↔ y.extractLsb' 14 18 = z.extractLsb' 14 18 ∧
      y.extractLsb' 0 14 = z.extractLsb' 0 14 := fun y z =>
    ⟨by rintro rfl; exact ⟨rfl, rfl⟩, fun ⟨hhi, hlo⟩ => by
      rw [← BitVec.extractLsb'_append_extractLsb' (w := 18) (len := 14) (x := y), hhi, hlo,
        BitVec.extractLsb'_append_extractLsb']⟩
  have hwindow : x.extractLsb' 14 18 = (0x08000000 : Word).extractLsb' 14 18 ↔ Config.default.InFlash x.toNat := by
    have hx := x.isLt
    rw [← BitVec.toNat_inj]
    simp [BitVec.extractLsb'_toNat, Nat.shiftRight_eq_div_pow, Config.default, Config.InFlash]
    omega
  rw [hsplit, BitVec.extractLsb'_and, hm, BitVec.and_allOnes, hwindow, BitVec.extractLsb'_and]
  rfl

/-- The low k bits of the low 14 are those of the word. -/
theorem lowBits_and_eq_zero_iff {k : Nat} (hk : k ≤ 14) {l : BitVec 14} (hl : l.toNat = 2 ^ k - 1) (x : Word) :
    x.extractLsb' 0 14 &&& l = 0 ↔ x.toNat % 2 ^ k = 0 := by
  rw [← BitVec.toNat_inj, BitVec.toNat_and, hl, Nat.and_two_pow_sub_one_eq_mod, BitVec.extractLsb'_toNat,
    Nat.shiftRight_zero, Nat.mod_mod_of_dvd _ (pow_dvd_pow 2 hk)]
  rfl

/-! ## The decoder's rows and the table's -/

/-- The row of the decoder and the row of the table are of one transaction, and a word without RES matches both or
neither; the table's masks look at RES too. -/
def SameRow (t : Txn) (row : Bool × Instr) (r : OpcodeRow) : Prop :=
  (t &&& r.mask = r.value ↔ t.res = 0 ∧ row.1 = true) ∧ r.mnemonic = row.2.mnemonic

section Rows
variable {t : Txn} {w : Bool} {sz : BitVec 2} {i : Instr}

theorem sameRow_of_address {m v : Txn} {a : Word} {addressOk : Bool} (hm : MasksFields m) (hv : v = Txn.make w sz a 0)
    (haddr : t.addr &&& m.addr = a ↔ addressOk = true) :
    SameRow t (t.isWrite == w && t.size == sz && addressOk, i) ⟨i.mnemonic, m, v⟩ := by
  refine ⟨?_, rfl⟩
  rw [hv, and_mask_eq_make_iff hm, haddr]
  simp only [Bool.and_eq_true, beq_iff_eq, and_assoc]

/-- A register's row asks for its address, which is aligned to the width (R24). -/
theorem sameRow_register {v : Txn} {reg n : Nat} (hreg : OnBus reg n) (hv : v = Txn.make w sz (busAddr reg) 0) :
    SameRow t (t.isWrite == w && t.size == sz && decide (t.addr.toNat = reg ∧ t.addr.toNat % n = 0), i)
      ⟨i.mnemonic, 0xFFFFFFFFFF00000000, v⟩ := by
  refine sameRow_of_address (by decide) hv ?_
  rw [and_registerMask_eq_iff (by decide), toNat_busAddr hreg.1, decide_eq_true_eq]
  exact ⟨fun h => ⟨h, h ▸ hreg.2⟩, And.left⟩

/-- A flash row asks for an address in the flash window, aligned to the width. -/
theorem sameRow_flash {m v : Txn} (k : Nat) (hk : k ≤ 14) (hm : MasksFields m)
    (hhi : m.addr.extractLsb' 14 18 = BitVec.allOnes 18) (hlo : (m.addr.extractLsb' 0 14).toNat = 2 ^ k - 1)
    (hv : v = Txn.make w sz 0x08000000 0) :
    SameRow t (t.isWrite == w && t.size == sz &&
      decide (Config.default.InFlash t.addr.toNat ∧ t.addr.toNat % 2 ^ k = 0), i) ⟨i.mnemonic, m, v⟩ := by
  refine sameRow_of_address hm hv ?_
  rw [and_flashMask_eq_iff hhi, lowBits_and_eq_zero_iff hk hlo, decide_eq_true_eq]

end Rows

theorem decodeRows_sameRow (t : Txn) : List.Forall₂ (SameRow t) (decodeRows Config.default t) opcodeTable := by
  have hbyte : ∀ {p : Prop} {n : Nat}, p ∧ n % 1 = 0 ↔ p := and_iff_left (Nat.mod_one _)
  have hcrcFeed := sameRow_register (t := t) (w := true) (sz := size8) (i := .crcFeed (t.data.setWidth 8))
    (reg := Config.default.regCrcData) (n := 1) (by decide) rfl
  have hflashRd8 := sameRow_flash (t := t) (w := false) (sz := size8) (i := .flashRd8 t.addr) 0
    (m := 0xFFFFFFC00000000000) (by decide) (by decide) (by decide) (by decide) rfl
  simp only [hbyte, pow_zero] at hcrcFeed hflashRd8
  refine .cons hcrcFeed ?_
  iterate 10 refine .cons (sameRow_register (by decide) (by decide)) ?_
  refine .cons hflashRd8 ?_
  refine .cons (sameRow_flash 1 (by decide) (by decide) (by decide) (by decide) (by decide)) ?_
  iterate 2 refine .cons (sameRow_flash 2 (by decide) (by decide) (by decide) (by decide) (by decide)) ?_
  exact .nil

/-! ## The first row -/

/-- A row of the decoder that matches has its address in a window. -/
theorem inWindow_of_matching_row {c : Config} {t : Txn} {i : Instr} (h : (true, i) ∈ decodeRows c t) :
    c.InWindow t.addr.toNat := by
  simp only [decodeRows, List.mem_cons, Prod.mk.injEq, List.not_mem_nil, or_false] at h
  rcases h with h | h | h | h | h | h | h | h | h | h | h | h | h | h | h <;> obtain ⟨hit, rfl⟩ := h <;>
    simp only [Bool.true_eq, Bool.and_eq_true, decide_eq_true_eq] at hit <;>
    simp only [Config.regCrcData, Config.regCrcValue, Config.regCrcCtrl, Config.regKeyr, Config.regStatr,
      Config.regCtlr, Config.regAddr, Config.regModeKeyr, Config.InWindow, Config.windowSize] at hit ⊢ <;>
    omega

theorem decode_op_of_matching_row {c : Config} {t : Txn} {i : Instr} (hr : t.res = 0) (h : (true, i) ∈ decodeRows c t) :
    ∃ j, decode c t = .op j := by
  rw [decode_of_inWindow hr (inWindow_of_matching_row h)]
  exact (exists_firstRow_op_iff _).2 ⟨i, h⟩

section First
variable {t : Txn} {rows : List (Bool × Instr)} {table : List OpcodeRow} (h : List.Forall₂ (SameRow t) rows table)
include h

/-- The first row of the decoder that matches and the first of the table have one mnemonic. -/
theorem mnemonic_of_firstRow (hr : t.res = 0) {i : Instr} (hop : firstRow rows = .op i) :
    (table.find? (fun r => t &&& r.mask == r.value)).map (·.mnemonic) = some i.mnemonic := by
  induction h with
  | nil => cases hop
  | @cons row r _ _ hrow _ ih =>
    obtain ⟨hit, j⟩ := row
    cases hit with
    | true =>
      cases hop
      rw [List.find?_cons_of_pos (by simpa using hrow.1.2 ⟨hr, rfl⟩), Option.map_some, hrow.2]
    | false =>
      rw [List.find?_cons_of_neg (by simpa using fun hm => (hrow.1.1 hm).2)]
      exact ih hop

/-- Where a row of the table matches, so does the decoder's. -/
theorem exists_matching_row {r : OpcodeRow} (hr : r ∈ table) (hm : t &&& r.mask = r.value) :
    t.res = 0 ∧ ∃ i, (true, i) ∈ rows := by
  induction h with
  | nil => cases hr
  | @cons row _ _ _ hrow _ ih =>
    obtain ⟨hit, j⟩ := row
    rcases List.mem_cons.1 hr with rfl | hr
    · obtain ⟨hres, rfl⟩ := hrow.1.1 hm
      exact ⟨hres, j, List.mem_cons_self ..⟩
    · exact (ih hr).imp_right fun ⟨i, hi⟩ => ⟨i, List.mem_cons_of_mem _ hi⟩

end First

/-- Settles O4: row by row the masks of the table match what the decoder's conditions do, so the first row that matches
is the same. -/
theorem opcodeTableNamesTheDecodedRow : Obligations.OpcodeTableNamesTheDecodedRow := by
  intro t
  have hsame := decodeRows_sameRow t
  refine ⟨fun i hi => ?_, fun hno => ?_⟩
  · obtain ⟨hres, -, hrow⟩ := decode_op hi
    exact mnemonic_of_firstRow hsame hres hrow
  · rw [tableMnemonic, Option.map_eq_none_iff, List.find?_eq_none]
    intro r hr hm
    obtain ⟨hres, i, hi⟩ := exists_matching_row hsame hr (by simpa using hm)
    obtain ⟨j, hj⟩ := decode_op_of_matching_row hres hi
    exact hno j hj

end Sys2Proof
end

section
/-! PROOFS. One step of the machine, event by event (00_scope.md R7, R12; 60_exceptions.md R276), the parameters it keeps,
and reset's values (10_state.md R40). -/

namespace Sys2Proof.Machine

/-! ## The events -/

/-- Settles O9: the word comes off the bus and decodes. -/
theorem stepRunsTheDecodedTransaction : Obligations.StepRunsTheDecodedTransaction :=
  fun _ _ _ _ hc hb hi => (step_txn hc hb).trans (transact_of_op hi)

/-- A step that has an event to take is that event, off the bus. -/
theorem step_of_event {s : State} {e : BusEvent} {rest : List BusEvent} (hc : s.cfg.Wf) (hb : s.bus = e :: rest) :
    step s = takeEvent e { s with bus := rest } := by
  unfold step nextEvent
  rw [if_pos hc.check, hb]

theorem step_of_no_event {s : State} (hc : s.cfg.Wf) (hb : s.bus = []) : step s = .next s := by
  unfold step nextEvent
  rw [if_pos hc.check, hb]

/-- R7: a configuration that breaks a constraint is refused. -/
theorem step_of_badConfig {s : State} (hc : ¬ s.cfg.Wf) : step s = .refused .badConfig := by
  unfold step nextEvent
  rw [if_neg (mt (Config.wf_iff s.cfg).1 hc)]

/-- Settles O10: each event of the bus is taken as it stands, and the check of the parameters comes first. -/
theorem stepTakesTheOtherEvents : Obligations.StepTakesTheOtherEvents :=
  fun _ _ => ⟨fun hc hb => step_of_event hc hb, fun hc hb => step_of_event hc hb, fun hc hb => step_of_event hc hb,
    fun hc hb => step_of_no_event hc hb, step_of_badConfig⟩

/-! ## What a step keeps -/

/-- The host issues at most one transaction, which keeps the parameters and the events to come. -/
theorem hostTurn_keeps_cfg_and_bus {s t : State} (h : hostTurn s = .next t) : t.cfg = s.cfg ∧ t.bus = s.bus := by
  rcases hostTurn_cases h with ⟨d, hc, -, s', rfl | ⟨w, hw⟩, hc', rfl, -⟩ | rfl
  · exact ⟨rfl, rfl⟩
  · obtain ⟨-, hcfg, hbus, -⟩ := transact_frame hw
    exact ⟨hcfg, hbus⟩
  · exact ⟨hostHalt_cfg s, hostHalt_bus s⟩

theorem step_keeps_cfg {s t : State} (h : step s = .next t) : t.cfg = s.cfg := by
  rcases (step_cases h).2 with ⟨-, rfl⟩ | ⟨rest, ⟨w, -, hw⟩ | ⟨-, rfl⟩ | ⟨-, rfl⟩ | ⟨-, ht⟩⟩
  · rfl
  · exact (transact_frame hw).2.1
  · exact complete_cfg _
  · exact resetBlock_cfg _
  · exact (hostTurn_keeps_cfg_and_bus ht).1

/-- Settles O11: no kind of event writes the parameters. -/
theorem noStepChangesTheConfiguration : Obligations.NoStepChangesTheConfiguration := fun _ _ => step_keeps_cfg

/-! ## Reset (R40) -/

/-- Settles O50: the updates of power-on and of reset, written out; an array of any bytes reads as the free bytes. -/
theorem resetValuesAreTheTable : Obligations.ResetValuesAreTheTable := by
  refine ⟨fun c f => ⟨rfl, by simp [State.powerOn, Config.wordsPerPage]⟩, rfl, fun a ha => ?_, fun s rest hc hb => ?_⟩
  · exact Memory.read_free ha
  · refine ⟨_, step_of_reset hc hb, rfl, length_freeWords .., fun herase hprogram => ?_⟩
    refine resetBlock_keeps_flash (s := { s with bus := rest }) (Bool.eq_false_of_not_eq_true fun hop => ?_)
    obtain ⟨p, hp | ⟨w, hp⟩⟩ := (Pending.changesFlash_iff _).1 hop
    · exact herase p hp
    · exact hprogram p w hp

end Sys2Proof.Machine
end

section
/-! PROOFS. Messages and their CRC (40_crc.md R127, R129): the residue of a message followed by its own CRC, and that a
change of one byte is never lost. -/

namespace Sys2Proof.Machine

theorem crc16_append (m n : List Byte) : crc16 (m ++ n) = crcFold (crc16 m) n := List.foldl_append

/-! ## The residue (R127) -/

theorem crcShifts_zero (n : Nat) : crcShifts n 0 = 0 :=
  (crcShifts_of_top_clear fun _ _ => BitVec.getLsbD_zero).trans (BitVec.zero_shiftLeft n)

/-- A byte fed that equals the register's high byte cancels it, and the low byte moves up. -/
theorem crcStep_highByte (c : Half) : crcStep c (c.extractLsb' 8 8) = c <<< 8 := by
  have hcancel : (0#8).setWidth 16 <<< 8 ^^^ (c.setWidth 8).setWidth 16 = (c.setWidth 8).setWidth 16 := by simp
  rw [crcStep, crcEntry_eq, BitVec.xor_self, hcancel, crcShifts_lowByte]

/-- A register whose low byte is 0 is cleared by feeding its high byte. -/
theorem crcStep_shifted_lowByte (c : Half) : crcStep (c <<< 8) (c.extractLsb' 0 8) = 0 := by
  have hlow : c.extractLsb' 0 8 = c.setWidth 8 := by
    ext i hi
    simp
  rw [crcStep, hlow, lowByte_shiftLeft_eight, BitVec.xor_self]
  exact crcShifts_zero 8

/-- Settles O17: the two bytes of the CRC clear the register one after the other; the examples are evaluated. -/
theorem crcHighByteFirstLeavesNoResidue : Obligations.CrcHighByteFirstLeavesNoResidue := by
  refine ⟨fun m => ?_, crc16_checkMessage, ?_⟩
  · rw [crc16_append, crcFold_cons, crcFold_cons, crcFold_nil, crcStep_highByte, crcStep_shifted_lowByte]
  · have hsplit : ([0x31, 0x32, 0x33, 0x34, 0x35, 0x36, 0x37, 0x38, 0x39, 0xB1, 0x29] : List Byte) =
        [0x31, 0x32, 0x33, 0x34, 0x35, 0x36, 0x37, 0x38, 0x39] ++ [0xB1, 0x29] := rfl
    obtain ⟨h1, h2⟩ : crcStep 0x29B1 0xB1 = 0xB3B1 ∧ crcStep 0xB3B1 0x29 = 0x93F3 := by decide
    rw [hsplit, crc16_append, crc16_checkMessage, crcFold_cons, crcFold_cons, crcFold_nil, h1, h2]

/-! ## A change of one byte (R129) -/

/-- Only 0 is shifted to 0: a set top bit leaves the polynomial's lowest bit. -/
theorem eq_zero_of_crcShift_eq_zero {c : Half} (h : crcShift c = 0) : c = 0 := by
  cases htop : c.getLsbD 15 with
  | true =>
    rw [crcShift_of_top_set htop] at h
    have hbit := congrArg (·.getLsbD 0) h
    simp at hbit
  | false =>
    rw [crcShift_of_top_clear htop] at h
    ext i hi
    rcases Nat.lt_or_eq_of_le (Nat.le_of_lt_succ hi) with hi | rfl
    · have hbit := congrArg (·.getLsbD (i + 1)) h
      simpa [Nat.succ_lt_succ hi] using hbit
    · simpa using htop

theorem crcShift_injective : Function.Injective crcShift := by
  intro c d h
  have hxor : crcShift (c ^^^ d) = 0 := by rw [crcShift_xor, h]; exact BitVec.xor_self
  exact BitVec.xor_eq_zero_iff.1 (eq_zero_of_crcShift_eq_zero hxor)

theorem crcShifts_injective (n : Nat) : Function.Injective (crcShifts n) := by
  induction n with
  | zero => exact Function.injective_id
  | succ n ih => exact ih.comp crcShift_injective

theorem crcStep_injective_register (b : Byte) : Function.Injective (crcStep · b) :=
  fun _ _ h => (BitVec.xor_left_inj _).1 (crcShifts_injective 8 h)

theorem crcStep_injective_byte (c : Half) : Function.Injective (crcStep c) := by
  intro b b' h
  have hshift := (BitVec.xor_right_inj c).1 (crcShifts_injective 8 h)
  refine BitVec.eq_of_getLsbD_eq fun i hi => ?_
  have hbit := congrArg (·.getLsbD (i + 8)) hshift
  have hi16 : i + 8 < 16 := by omega
  simpa [hi, hi16] using hbit

theorem crcFold_injective_register (m : List Byte) : Function.Injective (crcFold · m) := by
  induction m with
  | nil => exact Function.injective_id
  | cons b m ih => exact ih.comp (crcStep_injective_register b)

/-- Settles O18: two bytes leave the register in two values, and the bytes that follow keep them apart. -/
theorem crcDetectsAChangeOfOneByte : Obligations.CrcDetectsAChangeOfOneByte := by
  intro before after b b' hb h
  simp only [crc16_append, crcFold_cons] at h
  exact hb (crcStep_injective_byte (crc16 before) (crcFold_injective_register after h))

end Sys2Proof.Machine
end

section
/-! PROOFS. The checks of a `CTLR` write in their order (42_flash_erase_program.md R161), and the operations it starts: the
erase, the commit and the buffer load (R164, R165, R167). -/

namespace Sys2Proof.Machine
open Sys2Proof.Spec

/-! ## The checks before the action's own (R161) -/

/-- The lock actions d asks for are one where one of its two bits is at 1 and its lock at 0, and else none. -/
theorem length_lockActions (d : Word) (s : State) :
    (lockActions d s).length = ((d.getLsbD 7 && !s.lock) || (d.getLsbD 15 && !s.flock)).toNat := by
  unfold lockActions dLock dFlock
  cases d.getLsbD 7 && !s.lock <;> cases d.getLsbD 15 && !s.flock <;> rfl

theorem length_operationActions (d : Word) :
    (operationActions d).length = (d.getLsbD 6).toNat + (d.getLsbD 18).toNat + (d.getLsbD 19).toNat := by
  unfold operationActions dStrt dBufLoad dBufRst
  cases d.getLsbD 6 <;> cases d.getLsbD 18 <;> cases d.getLsbD 19 <;> rfl

theorem length_ctlrActions (d : Word) (s : State) :
    (ctlrActions d s).length =
      (d.getLsbD 6).toNat + (d.getLsbD 18).toNat + (d.getLsbD 19).toNat +
        ((d.getLsbD 7 && !s.lock) || (d.getLsbD 15 && !s.flock)).toNat := by
  rw [ctlrActions_eq, List.length_append, length_operationActions, length_lockActions]

section Checks
variable {d : Word} {s : State} (hr : d &&& ctlrReserved = 0)
include hr

theorem ctlrWrite_of_no_request (hm : modeChanges d s = false) (ha : ctlrActions d s = []) :
    ctlrWrite d s = .ok s := by
  rw [ctlrWrite, if_neg (not_not.2 hr), if_pos ⟨hm, ha⟩]

section Requested
variable (hreq : ¬ (modeChanges d s = false ∧ ctlrActions d s = []))
include hreq

theorem ctlrWrite_of_busy (hb : s.bsy = true) : ctlrWrite d s = .error ⟨.busy, none⟩ := by
  rw [ctlrWrite, if_neg (not_not.2 hr), if_neg hreq, if_pos hb]

variable (hb : s.bsy = false)
include hb

theorem ctlrWrite_of_many (hn : 1 < (ctlrActions d s).length) : ctlrWrite d s = .error ⟨.multiAction, none⟩ := by
  rw [ctlrWrite, if_neg (not_not.2 hr), if_neg hreq, if_neg (by simp [hb]), if_pos hn]

theorem ctlrWrite_of_locked (hn : (ctlrActions d s).length ≤ 1) (hl : lockActions d s = [])
    (hlocked : s.lock = true ∨ s.flock = true) : ctlrWrite d s = .error ⟨.locked, none⟩ := by
  have hop : ∀ a, ctlrActions d s = [a] → a ≠ .lockSet ∧ a ≠ .flockSet := fun a ha => by
    rw [ctlrActions_eq, hl, List.append_nil] at ha
    exact not_lock_of_mem_operationActions (ha ▸ List.mem_singleton_self a)
  rw [ctlrWrite, if_neg (not_not.2 hr), if_neg hreq, if_neg (by simp [hb]), if_neg (Nat.not_lt.2 hn),
    if_neg fun ha => (hop _ ha).1 rfl, if_neg fun ha => (hop _ ha).2 rfl, if_pos (by simpa using hlocked)]

end Requested

/-- R161: a lock action beside a mode change breaks the one-action rule, whatever else the write asks for. -/
theorem ctlrWrite_of_lockAction_and_mode (hb : s.bsy = false) (hm : modeChanges d s = true)
    (hl : (lockActions d s).length = 1) : ctlrWrite d s = .error ⟨.multiAction, none⟩ := by
  obtain ⟨a, ha⟩ := List.length_eq_one_iff.1 hl
  rw [ctlrWrite_lockAction hr ha hb, if_pos hm, ite_self]

end Checks

/-- Settles O28: the count n is the number of actions d asks for, and each check is met where those before it pass. -/
theorem controlWriteChecksInOrder : Obligations.ControlWriteChecksInOrder := by
  intro d s t lockAction modeChange n
  have hn : (ctlrActions d s).length = n := length_ctlrActions d s
  have hlen : (lockActions d s).length = lockAction.toNat := length_lockActions d s
  have hm : modeChanges d s = modeChange := rfl
  have hreq : modeChange = true ∨ 0 < n → ¬ (modeChanges d s = false ∧ ctlrActions d s = []) := by
    rintro (h | h) ⟨hm', ha⟩
    · exact absurd (hm'.symm.trans (hm.trans h)) (by decide)
    · rw [← hn, ha] at h
      exact absurd h (by decide)
  have hfault : ∀ {code}, ctlrWrite d s = .error ⟨code, none⟩ →
      exec (.fctlrWr d) s = .next (faulted s code t) := fun h => by
    rw [exec_fctlrWr, h]
    rfl
  refine ⟨fun hr => exec_fctlrWr_of_reserved hr s, fun hr hmc h0 => ?_, fun hr h hb => ?_, fun hr hb h => ?_,
    fun hr hb h1 hl h hlocked => ?_⟩
  · rw [exec_fctlrWr, ctlrWrite_of_no_request hr (hm.trans hmc) (List.length_eq_zero_iff.1 (hn.trans h0))]
    rfl
  · exact hfault (ctlrWrite_of_busy hr (hreq h) hb)
  · refine hfault ?_
    rcases h with hmany | ⟨hla, hmc⟩
    · exact ctlrWrite_of_many hr (hreq (.inr (by omega))) hb (hn ▸ hmany)
    · exact ctlrWrite_of_lockAction_and_mode hr hb (hm.trans hmc) (by rw [hlen, hla]; rfl)
  · exact hfault (ctlrWrite_of_locked hr (hreq h) hb (hn ▸ h1) (List.length_eq_zero_iff.1 (by rw [hlen, hl]; rfl)) hlocked)

/-! ## `STRT` (R164, R165) -/

/-- R164, R165: the address check comes first in either mode. -/
theorem strtCheck_of_not_page {pg er : Bool} {s : State} (hmode : pg ≠ er) (hp : ¬ IsPage s.cfg s.addr.toNat) :
    strtCheck pg er s = some ⟨.addressRange, some s.addr⟩ := by
  cases pg <;> cases er
  · exact absurd rfl hmode
  · exact if_pos hp
  · exact if_pos hp
  · exact absurd rfl hmode

theorem strtCheck_erase {s : State} (hp : IsPage s.cfg s.addr.toNat) : strtCheck false true s = none :=
  if_neg (not_not.2 hp)

/-- R165: past the address check, the buffer's and then the page's. -/
theorem strtCheck_program {s : State} (hp : IsPage s.cfg s.addr.toNat) :
    strtCheck true false s =
      if ¬ (s.bufState = .ready ∧ s.latch = none) then some ⟨.bufferState, none⟩
      else if ¬ (s.bufPage = none ∨ s.bufPage = some s.addr) then some ⟨.pageMismatch, s.bufPage⟩
      else none := by
  simp only [not_and_or, not_or]
  exact if_neg (not_not.2 hp)

/-- Settles O31: the address is the one check of an erase, which starts under the modes of its own write. -/
theorem eraseStartsOnAPageAddress : Obligations.EraseStartsOnAPageAddress := by
  intro d s h hu hb
  have ha : operationActions d = [.strt] := operationActions_eq h
  refine ⟨fun hp => ?_, fun hp => ?_⟩
  · rw [exec_fctlrWr_operation_runs h ha hu hb (strtCheck_erase hp), performAction,
      start_of_pageEr (applyMode_pageEr ..), applyMode_eq]
    simp [startErase, acknowledge]
  · exact exec_fctlrWr_operation_fails h ha hu hb (strtCheck_of_not_page (pg := false) (er := true) (by decide) hp)

/-- R165: a commit that passes its checks, its modes being those of its own write. -/
theorem exec_fctlrWr_commit {d : Word} {s : State} (h : CtlrData d true false false true false false false)
    (hu : s.Unlocked) (hb : s.bsy = false) (hc : strtCheck true false s = none) :
    exec (.fctlrWr d) s = .next
      { s with
        pagePg := true, pageEr := false, rdata := none, bsy := true, pending := .program s.addr s.buf,
        bufState := .invalid } := by
  rw [exec_fctlrWr_operation_runs h (operationActions_eq h) hu hb hc, performAction,
    start_of_not_pageEr (applyMode_pageEr ..), applyMode_true]
  rfl

/-- Settles O32: the three checks in order, each met where the ones before it pass; the snapshot is the buffer, whose
slots the invariant tells of. -/
theorem commitTakesASnapshotOfTheBuffer : Obligations.CommitTakesASnapshotOfTheBuffer := by
  refine ⟨fun d s h hu hb => ?_, fun d s t p w hinv h hu hb ht hp k hk hun => ?_⟩
  · intro t page bufferOk samePage
    have hfails : ∀ {v : Violation}, strtCheck true false s = some v →
        exec (.fctlrWr d) s = .next (faulted s v.code t v.info) :=
      exec_fctlrWr_operation_fails h (operationActions_eq h) hu hb
    refine ⟨fun hpage => ?_, fun hpage hbuf => ?_, fun hpage hbuf hsame => ?_, fun hpage hbuf hsame => ?_⟩
    · exact hfails (strtCheck_of_not_page (by decide) hpage)
    · exact hfails ((strtCheck_program hpage).trans (if_pos hbuf))
    · exact hfails ((strtCheck_program hpage).trans ((if_neg (not_not.2 hbuf)).trans (if_pos hsame)))
    · exact exec_fctlrWr_commit h hu hb
        ((strtCheck_program hpage).trans ((if_neg (not_not.2 hbuf)).trans (if_neg (not_not.2 hsame))))
  · cases hc : strtCheck true false s with
    | some v =>
      cases (exec_fctlrWr_operation_fails h (operationActions_eq h) hu hb hc).symm.trans ht
      exact absurd ((hinv.pending_of_idle hb).symm.trans hp) nofun
    | none =>
      cases (exec_fctlrWr_commit h hu hb hc).symm.trans ht
      cases hp
      obtain ⟨-, ⟨her, -⟩ | ⟨-, -, hready, -⟩⟩ := strtCheck_none hc
      · cases her
      · exact hinv.unloaded_slot hready k hk hun

/-! ## `BUFLOAD` (R167) -/

theorem bufLoadCheck_otherMode {pg er : Bool} (h : ¬ (pg = true ∧ er = false)) (s : State) :
    bufLoadCheck pg er s = some ⟨.modeError, none⟩ := if_pos h

theorem bufLoadCheck_not_ready {s : State} (h : s.bufState ≠ .ready ∨ s.latch = none) :
    bufLoadCheck true false s = some ⟨.bufferState, none⟩ := by
  by_cases hready : s.bufState = .ready
  · simp [bufLoadCheck, hready, h.resolve_left (not_not.2 hready)]
  · simp [bufLoadCheck, hready]

/-- R167: with a word latched, the check of its page and then of its slot. -/
theorem bufLoadCheck_latched {s : State} {a v : Word} (hready : s.bufState = .ready) (hl : s.latch = some (a, v)) :
    bufLoadCheck true false s =
      if ¬ (s.bufPage = none ∨ s.bufPage = some (pageWord s.cfg a)) then some ⟨.pageMismatch, s.bufPage⟩
      else if s.loaded.getD (slotOf s.cfg a.toNat) false then some ⟨.bufferState, none⟩
      else none := by
  simp [bufLoadCheck, hready, hl]

/-- Settles O34: the checks in order, each met where the ones before it pass, and the load under the modes of its own
write. -/
theorem bufferLoadMovesTheLatchedWord : Obligations.BufferLoadMovesTheLatchedWord := by
  intro d s pg er h hu hb t
  have ha : operationActions d = [.bufLoad] := operationActions_eq h
  have hfails : ∀ {v : Violation}, bufLoadCheck pg er s = some v →
      exec (.fctlrWr d) s = .next (faulted s v.code t v.info) :=
    exec_fctlrWr_operation_fails h ha hu hb
  refine ⟨fun hm => hfails (bufLoadCheck_otherMode hm s), ?_, ?_⟩
  · rintro rfl rfl hbuf
    exact hfails (bufLoadCheck_not_ready hbuf)
  · rintro a v rfl rfl hready hl
    have hcheck := bufLoadCheck_latched hready hl
    refine ⟨fun hsome hother => ?_, fun hsame hloaded => ?_, fun hsame hloaded => ?_⟩
    · exact hfails (hcheck.trans (if_pos (not_or.2 ⟨hsome, hother⟩)))
    · exact hfails (hcheck.trans ((if_neg (not_not.2 hsame)).trans (if_pos hloaded)))
    · have hpass := hcheck.trans ((if_neg (not_not.2 hsame)).trans (if_neg (Bool.eq_false_iff.1 hloaded)))
      rw [exec_fctlrWr_operation_runs h ha hu hb hpass, performAction, applyMode_true,
        bufLoad_of_latched (s := { s with pagePg := true, pageEr := false }) hl]
      rfl

end Sys2Proof.Machine
end

section
/-! PROOFS. What no transaction changes while the controller is locked or busy (41_flash_lock.md R147, 20_memory.md R71,
70_reset_and_hazards.md R300), and the four key writes that unlock it (41_flash_lock.md R143). -/

namespace Sys2Proof.Machine

/-- Settles O22: the main pair, and then the mode pair. -/
theorem fourKeyWritesUnlock : Obligations.FourKeyWritesUnlock := by
  intro s _ hbar hb hk hmk
  obtain ⟨t₁, h₁, h₂⟩ := exec_mainPair hb hbar hk
  obtain ⟨t₃, h₃, h₄⟩ := exec_modePair (s := { s with lock := false, rdata := none }) hb hbar rfl hmk
  exact ⟨t₁, _, t₃, h₁, h₂, h₃, h₄⟩

/-! ## Locked (R147) -/

/-- R147: outside `Unlocked` a transaction can change the CRC register, the locks and their sequencers, `ADDR`, and what
is no SSB state. -/
theorem exec_of_not_unlocked {i : Instr} {s t : State} (h : exec i s = .next t) (hu : ¬ s.Unlocked) :
    t = { s with
      crc := t.crc, lock := t.lock, flock := t.flock, addr := t.addr, keySeq := t.keySeq, modeKeySeq := t.modeKeySeq,
      barred := t.barred, faults := t.faults, rdata := t.rdata, draws := t.draws } := by
  rcases exec_cases h with ⟨v, d, -, -, rfl⟩ | ⟨c, -, rfl⟩ | ⟨v, -, rfl⟩ | ⟨-, accepted⟩
  · rfl
  · rfl
  · rfl
  rcases accepted with ⟨d, -, -, rfl⟩ | ⟨d, -, -, -, rfl⟩ | ⟨d, -, rfl⟩ | ⟨d, -, s', hs', rfl⟩ | ⟨a, d, -, hu', -⟩
  · rcases mainKey_cases (encode s.cfg i) d s with ⟨-, -, hm⟩ | ⟨-, -, hm⟩ | hm <;> rw [hm] <;> rfl
  · rcases modeKey_cases (encode s.cfg i) d s with ⟨-, -, hm⟩ | ⟨-, -, hm⟩ | hm <;> rw [hm] <;> rfl
  · rfl
  · rcases ctlrWrite_ok hs' with rfl | ⟨-, -, rfl⟩ | ⟨-, -, rfl⟩ | ⟨-, hl, hf, -⟩
    · rfl
    · rfl
    · rfl
    · exact absurd ⟨hl, hf⟩ hu
  · exact absurd hu' hu

/-- Settles O26: an instruction's frame outside `Unlocked`; an access violation is a record and no more. -/
theorem onlyUnlockedAcceptsFlashOperations : Obligations.OnlyUnlockedAcceptsFlashOperations := by
  intro w s t h hu
  rcases transact_cases h with ⟨i, -, he⟩ | ⟨-, rfl⟩
  · rw [exec_of_not_unlocked he hu]
    exact ⟨rfl, rfl, rfl, rfl, rfl, rfl, rfl, rfl, rfl, rfl⟩
  · exact ⟨rfl, rfl, rfl, rfl, rfl, rfl, rfl, rfl, rfl, rfl⟩

/-! ## Busy (R71, R300) -/

/-- Every accepted write of the controller needs `BSY` = 0. -/
theorem transact_of_busy {w : Txn} {s t : State} (h : transact w s = .next t) (hb : s.bsy = true) :
    t = { s with crc := t.crc, faults := t.faults, rdata := t.rdata, draws := t.draws } := by
  rcases transact_cases h with ⟨i, -, he⟩ | ⟨-, rfl⟩
  · rcases exec_cases he with ⟨v, d, -, -, rfl⟩ | ⟨c, -, rfl⟩ | ⟨v, -, rfl⟩ | ⟨hb', -⟩
    · rfl
    · rfl
    · rfl
    · exact absurd (hb.symm.trans hb') (by decide)
  · rfl

theorem transact_keeps_busy {w : Txn} {s t : State} (h : transact w s = .next t) (hb : s.bsy = true) :
    t.bsy = true := by
  rw [transact_of_busy h hb]
  exact hb

theorem hostTurn_keeps_busy {s t : State} (h : hostTurn s = .next t) (hb : s.bsy = true) : t.bsy = true := by
  rcases hostTurn_cases h with ⟨d, hc, -, s', rfl | ⟨w, hw⟩, hc', rfl, -⟩ | rfl
  · exact hb
  · exact (transact_keeps_busy hw hb :)
  · exact hb

/-- R71: `BSY` stays 1 over a step, or the step is the completion step or reset. -/
theorem step_keeps_busy_or_finishes {s t : State} (h : step s = .next t) (hb : s.bsy = true) :
    t.bsy = true ∨ ∃ rest, s.bus = .complete :: rest ∨ s.bus = .reset :: rest := by
  rcases (step_cases h).2 with ⟨-, rfl⟩ | ⟨rest, ⟨w, -, hw⟩ | ⟨hc, -⟩ | ⟨hr, -⟩ | ⟨-, ht⟩⟩
  · exact .inl hb
  · exact .inl (transact_keeps_busy hw hb)
  · exact .inr ⟨rest, .inl hc⟩
  · exact .inr ⟨rest, .inr hr⟩
  · exact .inl (hostTurn_keeps_busy ht hb)

/-- Settles O37: a transaction's frame while busy, and the two events that clear `BSY`. -/
theorem busyInterlockHoldsUntilCompletion : Obligations.BusyInterlockHoldsUntilCompletion :=
  ⟨fun _ _ _ => transact_of_busy, fun _ _ h hb hb' =>
    (step_keeps_busy_or_finishes h hb).resolve_left fun hb₁ => absurd (hb₁.symm.trans hb') (by decide)⟩

end Sys2Proof.Machine
end

section
/-! PROOFS. Reads of the flash array (20_memory.md R69, 43_flash_array.md R200-R202): in the page under operation each byte
is free, and elsewhere a read returns what the array holds. -/

namespace Sys2Proof.Machine
open Sys2Proof.Spec

/-! ## Bytes under an operation -/

/-- R73: the model's check is the statement's condition. -/
theorem underOperation_iff (s : State) (a : Nat) : underOperation s a = true ↔ InBusyPage s a := by
  unfold underOperation InBusyPage pageOf
  cases s.pending <;> simp

theorem readFlashByte_of_busy {s : State} {a : Nat} (h : underOperation s a = true) :
    readFlashByte s a = (Config.freeByte s.draws, { s with draws := s.draws + 1 }) := if_pos h

theorem freeBytes_succ (k n : Nat) : freeBytes k (n + 1) = Config.freeByte k :: freeBytes (k + 1) n := by
  simp [freeBytes, List.range_succ_eq_map, Function.comp_def, Nat.add_assoc, Nat.add_comm 1]

/-- A run of bytes under an operation is one of free values, one drawn for each. -/
theorem readFlashBytes_busy {s : State} {a n : Nat} (h : ∀ i, i < n → underOperation s (a + i) = true) :
    readFlashBytes s a n = (freeBytes s.draws n, { s with draws := s.draws + n }) := by
  induction n generalizing s a with
  | zero => rfl
  | succ n ih =>
    have hfirst : underOperation s a = true := h 0 (Nat.succ_pos n)
    have hrest : ∀ i, i < n → underOperation s (a + 1 + i) = true := fun i hi => by
      rw [Nat.add_assoc, Nat.add_comm 1]
      exact h (i + 1) (by omega)
    rw [readFlashBytes, readFlashByte_of_busy hfirst, freeBytes_succ, Nat.add_comm n, ← Nat.add_assoc]
    simp only [ih (s := { s with draws := s.draws + 1 }) hrest]

/-- A read that draws nothing meets no byte under an operation. -/
theorem not_underOperation_of_draws_eq {s : State} {a n : Nat} (h : (readFlashBytes s a n).2.draws = s.draws) :
    ∀ i, i < n → underOperation s (a + i) = false := by
  induction n generalizing s a with
  | zero => nofun
  | succ n ih =>
    cases hop : underOperation s a with
    | true =>
      obtain ⟨d, hd, hle⟩ := readFlashBytes_state { s with draws := s.draws + 1 } (a + 1) n
      rw [readFlashBytes, readFlashByte_of_busy hop, hd] at h
      exact absurd (h ▸ hle) (Nat.not_succ_le_self _)
    | false =>
      have hfirst : readFlashByte s a = (s.flash.read a, s) := if_neg (by simp [hop])
      rw [readFlashBytes, hfirst] at h
      intro i hi
      cases i with
      | zero => exact hop
      | succ i =>
        rw [Nat.add_comm i, ← Nat.add_assoc]
        exact ih h i (by omega)

/-! ## Whole reads -/

/-- Away from the page under operation a read returns what its addresses hold. -/
theorem flashRead_of_not_inBusyPage {s : State} {a : Word} {n : Nat} (h : ∀ i, i < n → ¬ InBusyPage s (a.toNat + i)) :
    flashRead n a s = .next { s with rdata := some (memRead s.flash a.toNat n) } := by
  have hidle : ∀ i, i < n → underOperation s (a.toNat + i) = false := fun i hi =>
    Bool.eq_false_of_not_eq_true (mt (underOperation_iff s _).1 (h i hi))
  rw [flashRead, readFlashBytes_idle hidle]
  rfl

theorem flashRead_of_inBusyPage {s : State} {a : Word} {n : Nat} (h : ∀ i, i < n → InBusyPage s (a.toNat + i)) :
    flashRead n a s = .next { s with rdata := some (leWord (freeBytes s.draws n)), draws := s.draws + n } := by
  rw [flashRead, readFlashBytes_busy fun i hi => (underOperation_iff s _).2 (h i hi)]
  rfl

/-- A read aligned to its width, which divides the page size, lies in one page. -/
theorem pageOf_add_of_aligned {c : Config} (hc : c.Wf) {a n i : Nat} (hn : n ∣ c.pageSize) (ha : n ∣ a) (hi : i < n) :
    pageOf c (a + i) = pageOf c a := by
  have hpage := pageSize_dvd_pageOf c a
  have hend : a + n ≤ pageOf c a + c.pageSize :=
    Nat.le_of_lt_add_of_dvd (Nat.add_lt_add_right (lt_pageOf_add hc a) n) (dvd_add ha dvd_rfl)
      (dvd_add (hn.trans hpage) hn)
  have hstart := pageOf_le c a
  exact (pageOf_eq_iff hc hpage _).2 (by omega)

theorem inBusyPage_add_iff {s : State} (hc : s.cfg.Wf) {a n i : Nat} (hn : n ∣ s.cfg.pageSize) (ha : n ∣ a)
    (hi : i < n) : InBusyPage s (a + i) ↔ InBusyPage s a := by
  have hpage : a + i - (a + i) % s.cfg.pageSize = a - a % s.cfg.pageSize := pageOf_add_of_aligned hc hn ha hi
  rw [InBusyPage, InBusyPage, hpage]

/-- The two cases of an aligned read (R200-R202). -/
theorem flashRead_aligned {s : State} (hc : s.cfg.Wf) {a : Word} {n : Nat} (hn : n ∣ 4) (ha : n ∣ a.toNat) :
    (¬ InBusyPage s a.toNat → flashRead n a s = .next { s with rdata := some (memRead s.flash a.toNat n) }) ∧
    (InBusyPage s a.toNat →
      flashRead n a s = .next { s with rdata := some (leWord (freeBytes s.draws n)), draws := s.draws + n }) := by
  have hiff := fun i (hi : i < n) => inBusyPage_add_iff (s := s) hc (hn.trans hc.four_dvd_pageSize) ha hi
  exact ⟨fun h => flashRead_of_not_inBusyPage fun i hi => mt (hiff i hi).1 h,
    fun h => flashRead_of_inBusyPage fun i hi => (hiff i hi).2 h⟩

/-! ## Bytes assembled (R64) -/

theorem leWord_one (b : Byte) : leWord [b] = b.setWidth 32 := by
  simp [leWord]

theorem leWord_two (b₀ b₁ : Byte) : leWord [b₀, b₁] = (b₁ ++ b₀).setWidth 32 := by
  refine BitVec.eq_of_getLsbD_eq fun i hi => ?_
  simp only [leWord, BitVec.getLsbD_or, BitVec.getLsbD_shiftLeft, BitVec.getLsbD_setWidth, BitVec.getLsbD_append, hi]
  by_cases h8 : i < 8
  · simp [h8]
  · have h : i - 8 < 32 := by omega
    simp [h8, h, b₀.getLsbD_of_ge i (by omega)]

theorem leWord_four (b₀ b₁ b₂ b₃ : Byte) : leWord [b₀, b₁, b₂, b₃] = b₃ ++ b₂ ++ b₁ ++ b₀ := by
  have hbytes : wordBytes (b₃ ++ b₂ ++ b₁ ++ b₀) = [b₀, b₁, b₂, b₃] := by
    simp only [wordBytes, List.cons.injEq, and_true]
    refine ⟨BitVec.extractLsb'_append_eq_right, ?_, ?_, ?_⟩
    · rw [BitVec.extractLsb'_append_eq_of_le (by decide)]
      exact BitVec.extractLsb'_append_eq_right
    · rw [BitVec.extractLsb'_append_eq_of_le (by decide), BitVec.extractLsb'_append_eq_of_le (by decide)]
      exact BitVec.extractLsb'_append_eq_right
    · rw [BitVec.extractLsb'_append_eq_of_le (by decide), BitVec.extractLsb'_append_eq_of_le (by decide)]
      exact BitVec.extractLsb'_append_eq_left
  rw [← hbytes, leWord_wordBytes]

/-- Settles O38: the byte's word; a byte under an operation is free, another is the array's. -/
theorem flashByteReads : Obligations.FlashByteReads := by
  refine ⟨fun c hc a d ha => decode_flashRead8 hc ha d, fun a s => ⟨fun h => ?_, fun h => ?_⟩⟩
  · have hbyte : ∀ i, i < 1 → ¬ InBusyPage s (a.toNat + i) := by simpa using h
    rw [exec_flashRd8, flashRead_of_not_inBusyPage hbyte, memRead]
    exact congrArg (fun v => Host.Outcome.next { s with rdata := some v }) (leWord_one _)
  · have hbyte : ∀ i, i < 1 → InBusyPage s (a.toNat + i) := by simpa using h
    refine ⟨Config.freeByte s.draws, ?_⟩
    rw [exec_flashRd8, flashRead_of_inBusyPage hbyte, ← leWord_one]
    rfl

/-- Settles O39: the two words; an aligned read lies in one page, so its bytes are all free or all the array's. -/
theorem flashHalfwordAndWordReads : Obligations.FlashHalfwordAndWordReads := by
  refine ⟨fun c hc a d ha => ⟨decode_flashRead16 hc ha d, decode_flashRead32 hc ha d⟩, fun a s hc h2 => ?_,
    fun a s hc h4 => ?_⟩
  · obtain ⟨hidle, hbusy⟩ := flashRead_aligned (s := s) hc (n := 2) (by decide) (Nat.dvd_of_mod_eq_zero h2)
    refine ⟨fun h => ?_, fun h => ⟨Config.freeByte s.draws, Config.freeByte (s.draws + 1), ?_⟩⟩
    · rw [exec_flashRd16, hidle h, ← leWord_two]
      rfl
    · rw [exec_flashRd16, hbusy h, ← leWord_two]
      rfl
  · obtain ⟨hidle, hbusy⟩ := flashRead_aligned (s := s) hc (n := 4) (by decide) (Nat.dvd_of_mod_eq_zero h4)
    refine ⟨fun h => ?_, fun h => ⟨leWord (freeBytes s.draws 4), ?_⟩⟩
    · rw [exec_flashRd32, hidle h, ← leWord_four]
      rfl
    · rw [exec_flashRd32, hbusy h]

/-! ## Reads have no side effect (R69) -/

theorem flashRead_state {n : Nat} {a : Word} {s t : State} (h : flashRead n a s = .next t) :
    t = { s with rdata := t.rdata, draws := t.draws } := by
  obtain ⟨d, hd, -⟩ := readFlashBytes_state s a.toNat n
  cases h
  rw [hd]
  rfl

/-- A read that drew no free value returned the array's bytes, and does so again. -/
theorem flashRead_again {n : Nat} {a : Word} {s t : State} (h : flashRead n a s = .next t) (hd : t.draws = s.draws) :
    flashRead n a t = .next t := by
  have hidle : ∀ i, i < n → underOperation s (a.toNat + i) = false :=
    not_underOperation_of_draws_eq (by cases h; exact hd)
  have hread : ∀ v, flashRead n a { s with rdata := v } =
      .next { s with rdata := some (memRead s.flash a.toNat n) } := fun v => by
    rw [flashRead, readFlashBytes_idle (s := { s with rdata := v }) hidle]
    rfl
  cases (hread s.rdata).symm.trans h
  exact hread _

/-- Settles O49: a read's answer is computed from state it leaves as it is. -/
theorem readsHaveNoSideEffect : Obligations.ReadsHaveNoSideEffect := by
  intro i s t hi h
  rcases hi with rfl | rfl | rfl | rfl | rfl | ⟨a, rfl | rfl | rfl⟩
  iterate 5
    · cases h
      exact ⟨rfl, fun _ => rfl⟩
  iterate 3
    · exact ⟨flashRead_state h, flashRead_again h⟩

end Sys2Proof.Machine
end

section
/-! PROOFS. The array's representation (10_state.md R37) and the completion step, byte by byte
(42_flash_erase_program.md R180). -/

namespace Sys2Proof.Machine

/-- Every byte after writing a run, as two cases. -/
theorem Memory.read_writeBytes_cases {m : Memory} (hm : m.Wf) (a b : Nat) (bs : List Byte) :
    (m.writeBytes a bs).read b = if a ≤ b ∧ b < a + bs.length then bs.getD (b - a) 0 else m.read b := by
  split
  · next hin =>
    have hlt : b - a < bs.length := by omega
    rw [Memory.read_writeBytes hm, if_pos hin.1, List.getD_eq_getElem _ _ hlt, List.getD_eq_getElem _ _ hlt]
  · next hout => exact Memory.read_writeBytes_outside hm a b bs (by omega)

/-- Settles O45: one write keeps the form, so a run of them does. -/
theorem flashArrayWritesKeepCanonicalForm : Obligations.FlashArrayWritesKeepCanonicalForm :=
  fun _ a bs hm => ⟨Memory.wf_writeBytes hm a bs, fun b => Memory.read_writeBytes_cases hm a b bs⟩

/-! ## The completion step -/

theorem complete_of_idle {s : State} (hb : s.bsy = false) : complete s = s := if_neg (by simp [hb])

/-- R180: the completion of an erase, at every address. -/
theorem read_complete_of_erase {s : State} {p : Word} (hwf : s.flash.Wf) (hb : s.bsy = true)
    (hp : s.pending = .erase p) (a : Nat) :
    (complete s).flash.read a =
      if p.toNat ≤ a ∧ a < p.toNat + s.cfg.pageSize then 0xFF else s.flash.read a := by
  rw [complete_flash_of_erase hb hp, Memory.read_writeBytes_cases hwf, List.length_replicate]
  split
  · next hin =>
    have hlt : a - p.toNat < s.cfg.pageSize := by omega
    simp [hlt]
  · rfl

/-- Byte i of word k among the bytes of consecutive words, as a field of the word (R64). -/
theorem wordsBytes_getD_extractLsb' {ws : List Word} {k i : Nat} (hk : k < ws.length) (hi : i < 4) (b : Byte) :
    (wordsBytes ws).getD (4 * k + i) b = (ws.getD k 0).extractLsb' (8 * i) 8 := by
  rw [wordsBytes_getD ws k i hi b hk, List.getD_eq_getElem _ _ hi]
  interval_cases i <;> rfl

section Commit
variable {s : State} {p : Word} {w : List Word} (hc : s.cfg.Wf) (hb : s.bsy = true) (hwf : s.flash.Wf)
  (hp : s.pending = .program p w) (hlen : w.length = s.cfg.wordsPerPage)
include hc hb hwf hp hlen

/-- R180: a commit changes nothing outside its page. -/
theorem read_complete_of_commit_outside {a : Nat} (ha : ¬ (p.toNat ≤ a ∧ a < p.toNat + s.cfg.pageSize)) :
    (complete s).flash.read a = s.flash.read a := by
  obtain ⟨bs, hbs, hflash⟩ := finishedFlash_eq_writeBytes hc (.inr ⟨w, hp, hlen⟩)
  rw [complete_flash_of_busy hb, hflash, Memory.read_writeBytes_outside hwf _ _ _ (by omega)]

variable {k i : Nat} (hk : k < s.cfg.wordsPerPage) (hi : i < 4)
include hk hi

omit hc in
/-- R180: onto an erased page the buffer's bytes are stored. -/
theorem read_complete_of_commit_erased (he : pageErased s p = true) :
    (complete s).flash.read (p.toNat + 4 * k + i) = (w.getD k 0).extractLsb' (8 * i) 8 := by
  have hoffset : p.toNat + 4 * k + i - p.toNat = 4 * k + i := by omega
  rw [complete_flash_of_commit hb hp he, Memory.read_writeBytes hwf, if_pos (by omega), hoffset,
    wordsBytes_getD_extractLsb' (hlen ▸ hk) hi]

/-- R180: onto data, under `PROGRAM_OVER_DATA = And`, each byte is the old one and the buffer's. -/
theorem read_complete_of_commit_and (he : ¬ pageErased s p = true) (hand : s.cfg.programOverData = .and) :
    (complete s).flash.read (p.toNat + 4 * k + i) =
      s.flash.read (p.toNat + 4 * k + i) &&& (w.getD k 0).extractLsb' (8 * i) 8 := by
  have hpage := hc.pageSize_eq
  have hflash : (complete s).flash =
      s.flash.writeBytes p.toNat
        (List.zipWith (· &&& ·) (s.flash.readBytes p.toNat s.cfg.pageSize) (wordsBytes w)) := by
    simp [complete_flash_of_busy hb, finishedFlash, hp, he, hand]
  have hoffset : p.toNat + 4 * k + i - p.toNat = 4 * k + i := by omega
  have hold : 4 * k + i < (s.flash.readBytes p.toNat s.cfg.pageSize).length := by simp; omega
  have hnew : 4 * k + i < (wordsBytes w).length := by simp; omega
  have hzip : 4 * k + i <
      (List.zipWith (· &&& ·) (s.flash.readBytes p.toNat s.cfg.pageSize) (wordsBytes w)).length := by
    simp only [List.length_zipWith]; omega
  rw [hflash, Memory.read_writeBytes hwf, if_pos (by omega), hoffset, List.getD_eq_getElem _ _ hzip,
    List.getElem_zipWith, Memory.getElem_readBytes, ← Nat.add_assoc, ← List.getD_eq_getElem _ 0 hnew,
    wordsBytes_getD_extractLsb' (hlen ▸ hk) hi]

end Commit

/-- Settles O41: the step's record of changes, and per pending operation the bytes it writes. -/
theorem completionFinishesThePendingOperation : Obligations.CompletionFinishesThePendingOperation := by
  refine ⟨fun s => complete_of_idle, fun s hb => ?_, fun s _ _ hp => complete_keeps_flash (by rw [hp]; rfl),
    fun s p hb hwf hp => read_complete_of_erase hwf hb hp, fun s p w hc hb hwf hp hlen => ?_⟩
  · simp only [complete, if_pos hb]
  · refine ⟨fun a => read_complete_of_commit_outside hc hb hwf hp hlen, fun he k i hk hi => ?_,
      fun he hand k i hk hi => ?_⟩
    · exact read_complete_of_commit_erased hb hwf hp hlen hk hi ((pageErased_iff s p).2 he)
    · exact read_complete_of_commit_and hc hb hwf hp hlen hk hi (mt (pageErased_iff s p).1 he) hand

end Sys2Proof.Machine
end

section
/-! PROOFS. The reference driver (44_driver_sequences.md R230-R235): the region of a block, and the stored block with its
CRC field. -/

namespace Sys2Proof.Machine

/-! ## Region geometry (R230, R231) -/

/-- The word 2^k - 1, at k = 32 by wrapping, has its low k bits set. -/
theorem toNat_twoPow_sub_one {k : Nat} (hk : k < 33) : (BitVec.ofNat 32 (2 ^ k) - 1 : Word).toNat = 2 ^ k - 1 := by
  have hle : 2 ^ k ≤ 2 ^ 32 := Nat.pow_le_pow_right (by decide) (Nat.le_of_lt_succ hk)
  have hpos := Nat.two_pow_pos k
  have hone : (1 : Word).toNat = 1 := rfl
  generalize 2 ^ k = p at hle hpos ⊢
  simp only [BitVec.toNat_sub, BitVec.toNat_ofNat, hone]
  omega

/-- Clearing the low k bits. -/
theorem and_not_lowBits {k : Nat} {x m : Word} (hm : m.toNat = 2 ^ k - 1) : x &&& ~~~m = x >>> k <<< k := by
  refine BitVec.eq_of_getLsbD_eq fun i hi => ?_
  have hbit : m.getLsbD i = decide (i < k) := by
    rw [BitVec.getLsbD, hm, Nat.testBit_two_pow_sub_one]
  simp only [BitVec.getLsbD_and, BitVec.getLsbD_not, BitVec.getLsbD_shiftLeft, BitVec.getLsbD_ushiftRight, hbit, hi]
  by_cases hik : i < k
  · simp [hik]
  · simp [hik, Nat.add_sub_cancel' (Nat.le_of_not_lt hik)]

/-- R230: where it does not overflow, `align_up` rounds up to a multiple of the page size. -/
theorem toNat_alignUp {length k : Nat} (hk : k < 33) (hlen : length + 2 ^ k - 1 < 2 ^ 32) :
    (alignUp (BitVec.ofNat 32 length) (BitVec.ofNat 32 (2 ^ k))).toNat = (length + 2 ^ k - 1) / 2 ^ k * 2 ^ k := by
  have hpos := Nat.two_pow_pos k
  have hsum : (BitVec.ofNat 32 length + BitVec.ofNat 32 (2 ^ k) - 1 : Word).toNat = length + 2 ^ k - 1 := by
    have hone : (1 : Word).toNat = 1 := rfl
    generalize 2 ^ k = p at hlen hpos ⊢
    simp only [BitVec.toNat_sub, BitVec.toNat_add, BitVec.toNat_ofNat, hone]
    omega
  have hle := Nat.div_mul_le_self (length + 2 ^ k - 1) (2 ^ k)
  rw [alignUp, and_not_lowBits (toNat_twoPow_sub_one hk), BitVec.toNat_shiftLeft, BitVec.toNat_ushiftRight, hsum,
    Nat.shiftRight_eq_div_pow, Nat.shiftLeft_eq, Nat.mod_eq_of_lt (by omega)]

/-- R230: the bytes of the whole pages that hold a block of the given length. -/
def alignedLength (c : Config) (length : Nat) : Nat := (length + c.pageSize - 1) / c.pageSize * c.pageSize

/-- R230, R231: the region, with no word arithmetic left. -/
theorem region_eq {c : Config} (hc : c.Wf) (length : Nat) :
    region c length =
      if length + c.pageSize - 1 < 2 ^ 32 ∧ alignedLength c length ≤ c.flashEnd - c.flashBase then
        some ⟨alignedLength c length, alignedLength c length / c.pageSize, c.flashEnd - alignedLength c length⟩
      else none := by
  obtain ⟨k, hk, hpage⟩ := hc.page_pow
  unfold region
  by_cases hlen : length + c.pageSize - 1 < 2 ^ 32
  · have haligned : (alignUp (BitVec.ofNat 32 length) (BitVec.ofNat 32 c.pageSize)).toNat = alignedLength c length := by
      rw [alignedLength, hpage]
      exact toNat_alignUp hk (hpage ▸ hlen)
    have hwhole : alignedLength c length / c.pageSize * c.pageSize = alignedLength c length :=
      Nat.div_mul_cancel (Nat.dvd_mul_left ..)
    have hfits : c.flashBase + alignedLength c length ≤ c.flashEnd ↔
        alignedLength c length ≤ c.flashEnd - c.flashBase := by
      have := hc.base_lt
      omega
    simp only [hlen, if_true, haligned, hwhole, hfits, true_and]
  · simp only [hlen, if_false, false_and]

/-- Settles O55: the aligned length is the least multiple of the page size not below the length. -/
theorem regionIsTheSmallestRunOfPages : Obligations.RegionIsTheSmallestRunOfPages := by
  refine ⟨fun c length r hc h => ?_, fun c length hc => ?_, by decide⟩
  · have hpos := hc.pageSize_pos
    rw [region_eq hc] at h
    split at h
    · next hfits =>
      cases h
      have hmod := Nat.div_add_mod' (length + c.pageSize - 1) c.pageSize
      have hlt := Nat.mod_lt (length + c.pageSize - 1) hpos
      have hbase := hc.base_lt
      have halign : alignedLength c length = (length + c.pageSize - 1) / c.pageSize * c.pageSize := rfl
      refine ⟨Nat.mul_mod_left .., ?_, ?_, Nat.div_mul_cancel (Nat.dvd_mul_left ..), ?_, ?_⟩ <;> simp only <;> omega
    · cases h
  · rw [region_eq hc]
    split
    · next hfits => exact ⟨fun _ => hfits, fun _ => ⟨_, rfl⟩⟩
    · next hfits => exact ⟨nofun, fun h => absurd h hfits⟩

/-! ## Data layout (R233, R235) -/

theorem crcInUse_iff {useCrc : Bool} {length : Nat} : crcInUse useCrc length = true ↔ useCrc = true ∧ 2 ≤ length := by
  simp [crcInUse]

theorem not_crcInUse_iff {useCrc : Bool} {length : Nat} :
    ¬ crcInUse useCrc length = true ↔ useCrc = false ∨ length < 2 := by
  rw [crcInUse_iff, not_and_or, Bool.not_eq_true, Nat.not_le]

theorem storedBlock_of_not_inUse {useCrc : Bool} {block : List Byte} (h : ¬ crcInUse useCrc block.length = true) :
    storedBlock useCrc block = block := if_neg h

/-- The CRC field of a block: its payload's CRC, low byte first. -/
def crcField (block : List Byte) : List Byte :=
  [(crc16 (block.take (block.length - 2))).extractLsb' 0 8, (crc16 (block.take (block.length - 2))).extractLsb' 8 8]

theorem storedBlock_of_inUse {useCrc : Bool} {block : List Byte} (h : crcInUse useCrc block.length = true) :
    storedBlock useCrc block = block.take (block.length - 2) ++ crcField block := if_pos h

/-- A half word is its two bytes. -/
theorem half_eq_bytes (c : Half) :
    c = (c.extractLsb' 0 8).setWidth 16 ||| ((c.extractLsb' 8 8).setWidth 16 <<< 8) := by
  ext i hi
  interval_cases i <;> simp

section Stored
variable {block : List Byte} (h : 2 ≤ block.length)
include h

theorem length_payload : (block.take (block.length - 2)).length = block.length - 2 := by
  rw [List.length_take]
  omega

theorem length_storedBlock : (block.take (block.length - 2) ++ crcField block).length = block.length := by
  rw [List.length_append, length_payload h]
  exact Nat.sub_add_cancel h

theorem take_storedBlock :
    (block.take (block.length - 2) ++ crcField block).take (block.length - 2) = block.take (block.length - 2) :=
  List.take_left' (length_payload h)

/-- R233: the field is the last two bytes of what is stored. -/
theorem storedBlock_lowByte :
    (block.take (block.length - 2) ++ crcField block)[block.length - 2]? =
      some ((crc16 (block.take (block.length - 2))).extractLsb' 0 8) := by
  have hlen := length_payload h
  rw [List.getElem?_append_right hlen.le, hlen, Nat.sub_self]
  rfl

theorem storedBlock_highByte :
    (block.take (block.length - 2) ++ crcField block)[block.length - 1]? =
      some ((crc16 (block.take (block.length - 2))).extractLsb' 8 8) := by
  have hlen := length_payload h
  have hindex : block.length - 1 - (block.length - 2) = 1 := by omega
  rw [List.getElem?_append_right (by omega), hlen, hindex]
  rfl

end Stored

/-- R235: a block is valid when its CRC is off, and else exactly when the equation holds. -/
theorem blockValid_iff (useCrc : Bool) (block : List Byte) :
    blockValid useCrc block = true ↔
      useCrc = false ∨ block.length < 2 ∨
      crc16 (block.take (block.length - 2)) =
        ((block.getD (block.length - 2) 0).setWidth 16 ||| ((block.getD (block.length - 1) 0).setWidth 16 <<< 8)) := by
  unfold blockValid
  split
  · next h =>
    obtain ⟨rfl, hlen⟩ := crcInUse_iff.1 h
    have hbyte : ∀ {j}, j < block.length → blockByte block j = block.getD j 0 := fun hj => by
      rw [blockByte, List.getD_eq_getElem _ _ hj, List.getD_eq_getElem _ _ hj]
    rw [beq_iff_eq, hbyte (by omega), hbyte (by omega)]
    simp [Nat.not_lt.2 hlen]
  · next h =>
    exact ⟨fun _ => or_assoc.1 (.inl (not_crcInUse_iff.1 h)), fun _ => rfl⟩

/-- Settles O56: the field stands in the last two bytes, and its two bytes make up the CRC of the rest. -/
theorem storedBlocksReadBackValid : Obligations.StoredBlocksReadBackValid := by
  refine ⟨fun block => storedBlock_of_not_inUse (not_crcInUse_iff.2 (.inl rfl)),
    fun block h => storedBlock_of_not_inUse (not_crcInUse_iff.2 (.inr h)), fun block h => ?_, blockValid_iff,
    fun useCrc block => ?_⟩
  · rw [storedBlock_of_inUse (crcInUse_iff.2 ⟨rfl, h⟩)]
    exact ⟨length_storedBlock h, take_storedBlock h, storedBlock_lowByte h, storedBlock_highByte h⟩
  · rw [blockValid_iff]
    by_cases hin : crcInUse useCrc block.length = true
    · obtain ⟨-, h⟩ := crcInUse_iff.1 hin
      rw [storedBlock_of_inUse hin, length_storedBlock h, take_storedBlock h, List.getD_eq_getElem?_getD,
        List.getD_eq_getElem?_getD, storedBlock_lowByte h, storedBlock_highByte h]
      exact .inr (.inr (half_eq_bytes _))
    · rw [storedBlock_of_not_inUse hin]
      exact or_assoc.1 (.inl (not_crcInUse_iff.1 hin))

end Sys2Proof.Machine
end

section
/-! PROOFS. The host's expressions (30_encoding.md R96, R101, R109): each operator on 32-bit unsigned values, and the host
registers. -/

namespace Sys2Proof.Machine

/-! ## The operators (R101) -/

theorem add_eq_ofNat (x y : Word) : x + y = BitVec.ofNat 32 (x.toNat + y.toNat) :=
  BitVec.eq_of_toNat_eq (by simp)

theorem sub_eq_ofInt (x y : Word) : x - y = BitVec.ofInt 32 (x.toNat - y.toNat : Int) := by
  apply BitVec.eq_of_toNat_eq
  rw [BitVec.toNat_sub, BitVec.toNat_ofInt]
  omega

theorem shiftLeft_eq_ofNat (x : Word) (n : Nat) : x <<< n = BitVec.ofNat 32 (x.toNat * 2 ^ n) :=
  BitVec.eq_of_toNat_eq (by simp [Nat.shiftLeft_eq])

theorem ushiftRight_eq_ofNat (x : Word) (n : Nat) : x >>> n = BitVec.ofNat 32 (x.toNat / 2 ^ n) := by
  apply BitVec.eq_of_toNat_eq
  rw [BitVec.toNat_ushiftRight, Nat.shiftRight_eq_div_pow, BitVec.toNat_ofNat,
    Nat.mod_eq_of_lt (lt_of_le_of_lt (Nat.div_le_self _ _) x.isLt)]

theorem truthWord_eq (p : Bool) : truthWord p = if p then 1 else 0 := by
  cases p <;> rfl

/-- R101: a shift by 31 or less moves the bits of the word. -/
theorem HostOp.apply_shl {n : Nat} {x y : Word} (hy : y.toNat < 32) : HostOp.apply n .shl x y = x <<< y.toNat :=
  if_pos hy

theorem HostOp.apply_shr {n : Nat} {x y : Word} (hy : y.toNat < 32) : HostOp.apply n .shr x y = x >>> y.toNat :=
  if_pos hy

theorem HostOp.apply_eq (n : Nat) (x y : Word) : HostOp.apply n .eq x y = if x = y then 1 else 0 := by
  simp [HostOp.apply, truthWord_eq]

theorem HostOp.apply_ne (n : Nat) (x y : Word) : HostOp.apply n .ne x y = if x = y then 0 else 1 := by
  simp [HostOp.apply, truthWord_eq]

theorem HostOp.apply_lt (n : Nat) (x y : Word) : HostOp.apply n .lt x y = if x.toNat < y.toNat then 1 else 0 := by
  simp [HostOp.apply, truthWord_eq]

/-! ## Registers (R109) -/

theorem HostExpr.eval_reg {c : Config} {rs : HostRegs} {n : Nat} {r : HostReg} {v : Word} (h : rs.get r = some v) :
    HostExpr.eval c rs n (.reg r) = v := by
  rw [HostExpr.eval, h, Option.getD_some]

@[simp] theorem HostRegs.get_set (rs : HostRegs) (r r' : HostReg) (v : Word) :
    (rs.set r v).get r' = if r' = r then some v else rs.get r' := by
  cases r <;> cases r' <;> rfl

/-- Settles O60: each form of expression has the equation of its operator. -/
theorem hostExpressionsEvaluate : Obligations.HostExpressionsEvaluate := by
  refine ⟨fun c rs n => ⟨fun _ => rfl, fun k => by cases k <;> rfl, fun r v => HostExpr.eval_reg, fun _ => rfl,
      fun e e' => ⟨rfl, rfl, rfl, add_eq_ofNat _ _, sub_eq_ofInt _ _, fun hy => ⟨?_, ?_⟩, HostOp.apply_eq _ _ _,
        HostOp.apply_ne _ _ _, HostOp.apply_lt _ _ _⟩⟩,
    fun rs r r' v => ⟨HostRegs.get_set rs r r' v, Option.isNone_iff_eq_none⟩,
    fun _ _ _ _ _ _ => ⟨rfl, rfl, rfl, rfl⟩, fun _ _ => ⟨rfl, rfl⟩⟩
  · exact (HostOp.apply_shl hy).trans (shiftLeft_eq_ofNat _ _)
  · exact (HostOp.apply_shr hy).trans (ushiftRight_eq_ofNat _ _)

end Sys2Proof.Machine
end

section
/-! PROOFS. The host's statements (30_encoding.md R100, R101): one host event performs one, and a jump goes on after the
first statement that holds its label. -/

namespace Sys2Proof.Machine

/-! ## Labels -/

theorem findLabel_cons (l : Nat) (st : HostStmt) (rest : List HostStmt) (n : Nat) :
    findLabel l (st :: rest) n = if st = .label l then some (n + 1) else findLabel l rest (n + 1) := by
  cases st with
  | label k => simp [findLabel]
  | writeReg | readReg | readAt | writeAt | assign | goto | ifGoto | halt => rfl

/-- R101: the position after the first label l. -/
theorem findLabel_eq_some {l : Nat} {prog : List HostStmt} {n : Nat} (hn : prog[n]? = some (.label l))
    (hfirst : ∀ m, m < n → prog[m]? ≠ some (.label l)) (k : Nat) : findLabel l prog k = some (k + n + 1) := by
  induction prog generalizing n k with
  | nil => simp at hn
  | cons st rest ih =>
    cases n with
    | zero => simp_all [findLabel_cons]
    | succ n =>
      have hst : st ≠ .label l := fun h => hfirst 0 (Nat.succ_pos n) (by simp [h])
      rw [findLabel_cons, if_neg hst, ih (n := n) (by simpa using hn) fun m hm => by
        simpa using hfirst (m + 1) (Nat.succ_lt_succ hm)]
      congr 1
      omega

theorem findLabel_eq_none {l : Nat} {prog : List HostStmt} (h : ∀ n : Nat, prog[n]? ≠ some (.label l)) (k : Nat) :
    findLabel l prog k = none := by
  induction prog generalizing k with
  | nil => rfl
  | cons st rest ih =>
    have hst : st ≠ .label l := fun hst => h 0 (by simp [hst])
    rw [findLabel_cons, if_neg hst, ih fun n => by simpa using h (n + 1)]

/-! ## One turn -/

section Turn
variable {s : State}

theorem hostTurn_of_halted (h : s.host.halted = true) : hostTurn s = .next s := if_pos h

theorem hostTurn_of_no_statement (h : s.host.halted = false) (hst : s.host.prog[s.host.pc]? = none) :
    hostTurn s = .refused .hostNoStatement := by
  rw [hostTurn, if_neg (by simp [h]), hst]

theorem hostTurn_of_statement {st : HostStmt} (h : s.host.halted = false) (hst : s.host.prog[s.host.pc]? = some st) :
    hostTurn s = hostStmt st s := by
  rw [hostTurn, if_neg (by simp [h]), hst]

/-- R101: a jump to a label that the program holds. -/
theorem hostJump_of_label {l n : Nat} (hn : s.host.prog[n]? = some (.label l))
    (hfirst : ∀ m, m < n → s.host.prog[m]? ≠ some (.label l)) :
    hostJump l s = .next { s with host := { s.host with pc := n + 1 } } := by
  rw [hostJump, findLabel_eq_some hn hfirst, Nat.zero_add]

theorem hostJump_of_no_label {l : Nat} (h : ∀ n : Nat, s.host.prog[n]? ≠ some (.label l)) :
    hostJump l s = .refused (.hostNoLabel l) := by
  rw [hostJump, findLabel_eq_none h]

theorem hostWrite_of_next {w : Txn} {t : State} (h : transact w s = .next t) :
    hostWrite w s = .next { t with host := { t.host with pc := t.host.pc + 1 } } := by
  rw [hostWrite, h]
  rfl

/-- R100: a read keeps what it returned. -/
theorem hostRead_of_next {w : Txn} {r : HostReg} {t : State} {v : Word} (h : transact w s = .next t)
    (hv : t.rdata = some v) :
    hostRead w r s =
      .next { t with host := { t.host with pc := t.host.pc + 1, regs := t.host.regs.set r v } } := by
  have hset : t.rdata.elim t (hostSet r · t) = hostSet r v t := by rw [hv, Option.elim_some]
  rw [hostRead, h]
  show Host.Outcome.next (hostNext (t.rdata.elim t (hostSet r · t))) = _
  rw [hset]
  rfl

end Turn

/-- Settles O54: the host event performs the statement at the host's position, whose form says what it does; the words
are those of `encode`. -/
theorem hostStatementsTakeEffect : Obligations.HostStatementsTakeEffect := by
  refine ⟨fun s rest hc hb => ?_, fun c d => ⟨rfl, rfl, rfl, rfl, rfl, rfl, rfl, rfl, rfl, rfl, rfl⟩, rfl, rfl, rfl⟩
  intro s₀ after moved reads target
  have hstep : step s = hostTurn s₀ := step_of_event hc hb
  refine ⟨fun h => hstep.trans (hostTurn_of_halted h), fun h hst => hstep.trans (hostTurn_of_no_statement h hst),
    fun st h hst => ?_⟩
  have hdo : step s = hostStmt st s₀ := hstep.trans (hostTurn_of_statement h hst)
  rw [hdo]
  refine ⟨?_, ?_, ?_, ?_, ?_, ?_, ?_, ?_, ?_, ?_, ?_⟩
  · rintro l rfl
    rfl
  · rintro rfl
    rfl
  · rintro r e rfl
    rfl
  · rintro l n rfl ⟨hn, hfirst⟩
    exact hostJump_of_label hn hfirst
  · rintro l (rfl | ⟨e, rfl, he⟩) hno
    · exact hostJump_of_no_label hno
    · exact (if_pos he).trans (hostJump_of_no_label hno)
  · rintro e l n rfl he ⟨hn, hfirst⟩
    exact (if_pos he).trans (hostJump_of_label hn hfirst)
  · rintro e l rfl he
    exact if_neg (not_not.2 he)
  · rintro k e t rfl ht
    exact hostWrite_of_next ht
  · rintro k r t v rfl ht hv
    exact hostRead_of_next ht hv
  · rintro sz e r t v rfl ht hv
    exact hostRead_of_next ht hv
  · rintro sz e e' t rfl ht
    exact hostWrite_of_next ht

end Sys2Proof.Machine
end

section
/-! PROOFS. Runs (30_encoding.md R101, 60_exceptions.md R264, R265): a program ends once and with the state of its `halt`,
and a poll of a `BSY` that nothing clears never ends. -/

namespace Sys2Proof.Machine

/-! ## The end of a program (R101, R264) -/

/-- A step of a run, whatever arrived before it. -/
theorem Run.step {r : Nat → State} (h : Run r) (n : Nat) : ∃ es, Machine.step ((r n).arrive es) = .next (r (n + 1)) := by
  obtain ⟨e, he⟩ := h
  exact ⟨e n, he n⟩

section Ends
variable {r : Nat → State} (hrun : Run r)
include hrun

theorem Run.halted_mono {m n : Nat} (hmn : m ≤ n) (h : (r m).host.halted = true) : (r n).host.halted = true := by
  induction n, hmn using Nat.le_induction with
  | base => exact h
  | succ n _ ih =>
    obtain ⟨es, hs⟩ := hrun.step n
    rcases step_halted hs with heq | ⟨rest, -, ht⟩
    · exact heq.trans ih
    · rw [ht]
      rfl

/-- Before its end the host has not halted, and from it on it has. -/
theorem Run.endsAt_unique {m n : Nat} (hm : EndsAt r m) (hn : EndsAt r n) : m = n := by
  have hle : ∀ {i j}, EndsAt r i → EndsAt r j → i ≤ j := fun hi hj => by
    by_contra hlt
    have := hrun.halted_mono (Nat.lt_of_not_le hlt) hj.2
    exact absurd (this.symm.trans hi.1) (by decide)
  exact Nat.le_antisymm (hle hm hn) (hle hn hm)

/-- R101: the end state is the state at `halt`. -/
theorem Run.endState {n : Nat} (hn : EndsAt r n) :
    r (n + 1) =
      { r n with
        bus := (r (n + 1)).bus, host := { (r n).host with halted := true },
        faults := if (r n).Locked then (r n).faults else (r n).faults ++ [⟨.notRelocked, none, none⟩] } := by
  obtain ⟨es, hs⟩ := hrun.step n
  rcases step_halted hs with heq | ⟨rest, -, ht⟩
  · exact absurd (hn.2.symm.trans (heq.trans hn.1)) (by decide)
  · rw [ht]
    rfl

/-- R264: a good end is at the one end there is. -/
theorem Run.goodEnd_at {n : Nat} (hn : EndsAt r n) (hgood : GoodEnd r) :
    (r (n + 1)).faults = [] ∧ (r (n + 1)).bsy = false ∧ (r (n + 1)).host.error = false := by
  obtain ⟨m, hm, hend⟩ := hgood
  rwa [hrun.endsAt_unique hn hm]

end Ends

/-- Settles O58: the host's mark is never taken back, so there is one end, where only `halt` can have set it. -/
theorem aProgramEndsOnceAndNotWellWhileBusy : Obligations.AProgramEndsOnceAndNotWellWhileBusy := by
  intro r hrun
  refine ⟨fun m n => hrun.endsAt_unique, fun n => hrun.endState, fun n hn hl hgood => ?_, fun n hn hbad hgood => ?_⟩
  · obtain ⟨hfaults, -⟩ := hrun.goodEnd_at hn hgood
    rw [hrun.endState hn] at hfaults
    simp [hl] at hfaults
  · obtain ⟨hfaults, hbsy, herror⟩ := hrun.goodEnd_at hn hgood
    rcases hbad with h | h | h
    · exact h hfaults
    · exact absurd (h.symm.trans hbsy) (by decide)
    · exact absurd (h.symm.trans herror) (by decide)

/-! ## With no completion and no reset `BSY` stays 1 (R265) -/

/-- The event clears no `BSY`. -/
def BusEvent.KeepsBusy (e : BusEvent) : Prop := e ≠ .complete ∧ e ≠ .reset

/-- A step leaves on the bus none but events that were there. -/
theorem step_bus_subset {s t : State} (h : step s = .next t) : t.bus ⊆ s.bus := by
  have htail : ∀ {e rest}, s.bus = e :: rest → rest ⊆ s.bus := fun hb => hb ▸ List.subset_cons_self ..
  rcases (step_cases h).2 with ⟨-, rfl⟩ | ⟨rest, ⟨w, hb, hw⟩ | ⟨hb, rfl⟩ | ⟨hb, rfl⟩ | ⟨hb, ht⟩⟩
  · exact List.Subset.refl _
  · rw [(transact_frame hw).2.2.1]
    exact htail hb
  · rw [complete_bus]
    exact htail hb
  · rw [resetBlock_bus]
    exact htail hb
  · rw [(hostTurn_keeps_cfg_and_bus ht).2]
    exact htail hb

/-- A step that meets no event that clears `BSY` keeps it, and none to come. -/
theorem step_keeps_busy {s t : State} (h : step s = .next t) (hbus : ∀ e ∈ s.bus, e.KeepsBusy) (hb : s.bsy = true) :
    t.bsy = true ∧ ∀ e ∈ t.bus, e.KeepsBusy := by
  refine ⟨(step_keeps_busy_or_finishes h hb).resolve_right ?_, fun e he => hbus e (step_bus_subset h he)⟩
  rintro ⟨rest, hc | hr⟩
  · exact (hbus .complete (by simp [hc])).1 rfl
  · exact (hbus .reset (by simp [hr])).2 rfl

theorem RunOn.busy {e : Nat → List BusEvent} {r : Nat → State} (hrun : RunOn e r)
    (h₀ : ∀ x ∈ (r 0).bus, x.KeepsBusy) (he : ∀ n, ∀ x ∈ e n, x.KeepsBusy) (hb : (r 0).bsy = true) (n : Nat) :
    (r n).bsy = true ∧ ∀ x ∈ (r n).bus, x.KeepsBusy := by
  induction n with
  | zero => exact ⟨hb, h₀⟩
  | succ n ih =>
    obtain ⟨hbn, hbus⟩ := ih
    refine step_keeps_busy (hrun n) (fun x hx => ?_) hbn
    rcases List.mem_append.1 hx with hx | hx
    · exact hbus x hx
    · exact he n x hx

/-! ## A host at a poll (R181, R265) -/

/-- A turn of the host that nothing else stands before. -/
theorem step_arrive_host {s : State} (hc : s.cfg.Wf) (hbus : s.bus = []) : step (s.arrive [.host]) = hostTurn s := by
  have hoff : { s.arrive [.host] with bus := [] } = s := by
    show { s with bus := [] } = s
    rw [← hbus]
  have hstep := step_of_event (s := s.arrive [.host]) (e := .host) (rest := []) hc (by simp [State.arrive, hbus])
  rw [hstep, hoff]
  rfl

/-- The host stands at the label l of a `POLL_BSY` (30_encoding.md R102) while `BSY` = 1, with no event to come. -/
structure AtPoll (s : State) (l : Nat) : Prop where
  config_wf : s.cfg.Wf
  statr     : OnBus s.cfg.regStatr 4
  busy      : s.bsy = true
  no_event  : s.bus = []
  running   : s.host.halted = false
  label     : s.host.prog[s.host.pc]? = some (.label l)
  read      : s.host.prog[s.host.pc + 1]? = some (.readReg .fstatr .t7)
  branch    : s.host.prog[s.host.pc + 2]? = some (.ifGoto (.bin .and (.reg .t7) (.num 1)) l)
  first     : ∀ m, m < s.host.pc → s.host.prog[m]? ≠ some (.label l)

/-- An evaluation that reads no unwritten register is no host error (R109). -/
theorem evaluated_of_written {e : HostExpr} {s : State} (h : e.readsUnwritten s.host.regs = false) :
    evaluated e s = { s with draws := s.draws + 1 } := by
  simp only [evaluated, h, Bool.or_false]

/-- s once the poll has read 1 and taken d branches, the host at position pc. -/
def polled (s : State) (pc d : Nat) : State :=
  { s with
    host := { s.host with pc := pc, regs := s.host.regs.set .t7 1 }, rdata := some 1, draws := s.draws + d }

/-- The poll's run: the label, a read, and from then on a branch back and a read in turn. -/
def pollRun (s : State) : Nat → State
  | 0 => s
  | 1 => hostNext s
  | n + 2 => polled s (if n % 2 = 0 then s.host.pc + 2 else s.host.pc + 1) ((n + 1) / 2)

/-- A host at the position after the statements before its poll, none of which holds the poll's label. -/
theorem atPoll {s : State} {l : Nat} {before after : List HostStmt} (hc : s.cfg.Wf) (hstatr : OnBus s.cfg.regStatr 4)
    (hb : s.bsy = true) (hbus : s.bus = []) (hprog : s.host.prog = before ++ pollBsySeq l ++ after)
    (hfirst : ∀ st ∈ before, st ≠ .label l) (hpc : s.host.pc = before.length) (hhalt : s.host.halted = false) :
    AtPoll s l := by
  have hat : ∀ j, j < 3 → s.host.prog[s.host.pc + j]? = (pollBsySeq l)[j]? := fun j hj => by
    rw [hprog, hpc, List.append_assoc, List.getElem?_append_right (Nat.le_add_right ..), Nat.add_sub_cancel_left,
      List.getElem?_append_left (by simpa [pollBsySeq] using hj)]
  refine ⟨hc, hstatr, hb, hbus, hhalt, hat 0 (by decide), hat 1 (by decide), hat 2 (by decide), fun m hm hl => ?_⟩
  have hlt : m < before.length := hpc ▸ hm
  rw [hprog, List.append_assoc, List.getElem?_append_left hlt] at hl
  exact hfirst _ (List.mem_of_getElem? hl) rfl

section Poll
variable {s : State} {l : Nat} (h : AtPoll s l)
include h

/-- R172: the poll's read of `STATR` returns 1. -/
theorem AtPoll.transact_read {u : State} (hcfg : u.cfg = s.cfg) (hb : u.bsy = true) :
    transact (ReadReg.fstatr.word u.cfg) u = .next { u with rdata := some 1 } := by
  have hdec : decode u.cfg (ReadReg.fstatr.word u.cfg) = .op .fstatrRd := by
    rw [hcfg]
    exact decode_fstatrRd h.config_wf (toNat_busAddr h.statr.1) h.statr.2 0
  rw [transact_of_op hdec, exec_fstatrRd, statrView_of_busy hb]

theorem AtPoll.step_label : step (s.arrive [.host]) = .next (hostNext s) := by
  rw [step_arrive_host h.config_wf h.no_event, hostTurn_of_statement h.running h.label]
  rfl

theorem AtPoll.step_first_read : step ((hostNext s).arrive [.host]) = .next (polled s (s.host.pc + 2) 0) := by
  rw [step_arrive_host (s := hostNext s) h.config_wf h.no_event,
    hostTurn_of_statement (s := hostNext s) h.running h.read]
  exact hostRead_of_next (h.transact_read (u := hostNext s) rfl h.busy) rfl

theorem AtPoll.step_read (d : Nat) :
    step ((polled s (s.host.pc + 1) d).arrive [.host]) = .next (polled s (s.host.pc + 2) d) := by
  rw [step_arrive_host (s := polled s _ d) h.config_wf h.no_event,
    hostTurn_of_statement (s := polled s _ d) h.running h.read]
  exact hostRead_of_next (h.transact_read (u := polled s _ d) rfl h.busy) rfl

/-- The poll has read 1, so the branch is taken, back to the statement after the label. -/
theorem AtPoll.step_branch (d : Nat) :
    step ((polled s (s.host.pc + 2) d).arrive [.host]) = .next (polled s (s.host.pc + 1) (d + 1)) := by
  have hvalue : exprValue (.bin .and (.reg .t7) (.num 1)) (polled s (s.host.pc + 2) d) = 1 := by
    show (1 : Word) &&& 1 = 1
    decide
  have hevaluated : evaluated (.bin .and (.reg .t7) (.num 1)) (polled s (s.host.pc + 2) d) =
      polled s (s.host.pc + 2) (d + 1) := evaluated_of_written rfl
  rw [step_arrive_host (s := polled s _ d) h.config_wf h.no_event,
    hostTurn_of_statement (s := polled s _ d) h.running h.branch, hostStmt, hvalue, if_pos (by decide), hevaluated]
  exact hostJump_of_label (s := polled s _ _) h.label h.first

theorem AtPoll.runOn : RunOn (fun _ => [.host]) (pollRun s)
  | 0 => h.step_label
  | 1 => h.step_first_read
  | n + 2 => by
    rcases Nat.mod_two_eq_zero_or_one n with hn | hn
    · have hnext : ¬ (n + 1) % 2 = 0 := by omega
      have hd : (n + 1 + 1) / 2 = (n + 1) / 2 + 1 := by omega
      simp only [pollRun, if_pos hn, if_neg hnext, hd]
      exact h.step_branch _
    · have hnow : ¬ n % 2 = 0 := by omega
      have hnext : (n + 1) % 2 = 0 := by omega
      have hd : (n + 1 + 1) / 2 = (n + 1) / 2 := by omega
      simp only [pollRun, if_neg hnow, if_pos hnext, hd]
      exact h.step_read _

end Poll

theorem pollRun_frame (s : State) :
    ∀ n, pollRun s n =
      { s with host := (pollRun s n).host, rdata := (pollRun s n).rdata, draws := (pollRun s n).draws }
  | 0 => rfl
  | 1 => rfl
  | _ + 2 => rfl

theorem pollRun_halted (s : State) : ∀ n, (pollRun s n).host.halted = s.host.halted
  | 0 => rfl
  | 1 => rfl
  | _ + 2 => rfl

theorem pollRun_prog (s : State) : ∀ n, (pollRun s n).host.prog = s.host.prog
  | 0 => rfl
  | 1 => rfl
  | _ + 2 => rfl

/-- From the first read on the poll has read 1. -/
theorem pollRun_reads {s : State} :
    ∀ n, 2 ≤ n → (pollRun s n).rdata = some 1 ∧ (pollRun s n).host.regs.get .t7 = some 1
  | 0, hn => absurd hn (by decide)
  | 1, hn => absurd hn (by decide)
  | _ + 2, _ => ⟨rfl, rfl⟩

/-- The poll's position, after every odd number of steps, is its read. -/
theorem pollRun_pc_of_odd (s : State) (n : Nat) : (pollRun s (2 * n + 3)).host.pc = s.host.pc + 1 :=
  if_neg (by omega)

/-- Settles O59: `BSY` is cleared by no event of such a run, and the poll's run is written out. -/
theorem stuckBusyPollsForEver : Obligations.StuckBusyPollsForEver := by
  refine ⟨fun e r hrun h₀ he hb n => (hrun.busy h₀ he hb n).1,
    fun s l before after hc hstatr hb hbus hprog hfirst hpc hhalt => ?_⟩
  have hpoll := atPoll hc hstatr hb hbus hprog hfirst hpc hhalt
  have hbusy : ∀ n, (pollRun s n).bsy = true := fun n => by
    rw [pollRun_frame]
    exact hb
  refine ⟨pollRun s, rfl, hpoll.runOn, fun hclears => ?_, fun n => ⟨pollRun_frame s n, ?_, pollRun_reads n, ?_⟩⟩
  · obtain ⟨m, -, hm⟩ := hclears 0 (hbusy 0)
    exact absurd ((hbusy m).symm.trans hm) (by decide)
  · exact (pollRun_halted s n).trans hhalt
  · refine ⟨2 * n + 3, by omega, ?_⟩
    rw [pollRun_prog, pollRun_pc_of_odd]
    exact hpoll.read

end Sys2Proof.Machine
end
